-- ==== Sys2Proof/Word.lean ====
section
/-! DEFINITION. The value types of spec/00_scope.md rule R6: every value is an unsigned integer of a stated width. -/

namespace Sys2Proof

/-- A byte: a general register, a memory byte, a timer (R6, R20). -/
abbrev Byte := BitVec 8

/-- A 16-bit value: the index register, the program counter, an instruction word (R6, R22, R23). -/
abbrev Word := BitVec 16

/-- A 4-bit field of the instruction word (R81). -/
abbrev Nibble := BitVec 4

/-- The number of a general register, 0 to 15 (R20); also the number of a key (R33). -/
abbrev Reg := Fin 16

end Sys2Proof
end

