-- ==== Sys2Proof/Config.lean ====
section
/-! DEFINITION. The configuration given to CONSTRUCT and fixed afterwards (spec/10_state.md R40 to R51, spec/00_scope.md
R5), and the two open functions of the random generator (R36). The preset values and the font bytes are data of
Machine/Presets.lean. -/

namespace Sys2Proof

/-- `Q.isa` (R47): three ordered levels, `Chip8 < SuperChip < XOChip`. -/
inductive Isa where
  | chip8
  | superChip
  | xoChip
  deriving DecidableEq, Repr

/-- The place of a level in the order of R47. -/
def Isa.level : Isa → Nat
  | .chip8 => 0
  | .superChip => 1
  | .xoChip => 2

/-- `isa >= need` in the order of R47. -/
def Isa.atLeast (isa need : Isa) : Bool := decide (need.level ≤ isa.level)

/-- `QUIRKS` (R40): nine independent fields, one per rule R41 to R49. Every combination is legal. -/
structure Quirks where
  /-- R41, read by `8XY6` and `8XYE`. -/
  shiftUsesVy : Bool
  /-- R42, read by `FX55` and `FX65`. -/
  loadStoreIncrementsIndex : Bool
  /-- R43, read by `BNNN`. -/
  jumpUsesVx : Bool
  /-- R44, read by `DXYN`. -/
  spriteWraps : Bool
  /-- R45, read by `DXYN`. -/
  displayWait : Bool
  /-- R46, read by `8XY1`, `8XY2`, `8XY3`. -/
  vfResetOnLogic : Bool
  /-- R47, read by the decoder, by `DXYN` with `N = 0` and by a taken skip. -/
  isa : Isa
  /-- R48, read by the four scrolls. -/
  scrollWraps : Bool
  /-- R49, read by the waiting step. -/
  keyWaitRelease : Bool
  deriving DecidableEq, Repr

/-- `MEM_SIZE` (R5, R51): the baseline of 4096 bytes or the extended 65536. -/
inductive MemSize where
  | baseline
  | extended
  deriving DecidableEq, Repr

/-- The number of bytes of a memory size (R60). -/
def MemSize.bytes : MemSize → Nat
  | .baseline => 4096
  | .extended => 65536

/-- `UNKNOWN_POLICY` (R51, R106). -/
inductive UnknownPolicy where
  | halt
  | skip
  deriving DecidableEq, Repr

/-- `CONFIG` (R40) with the open font parameters of R5. -/
structure Config where
  /-- `MEM_SIZE`. -/
  memSize : MemSize
  /-- `QUIRKS`. -/
  quirks : Quirks
  /-- `SEED`, the input of `rng_init` (R36); the spec gives it no width: notes/assumptions/2.md. -/
  seed : Nat
  /-- `UNKNOWN_POLICY`. -/
  unknownPolicy : UnknownPolicy
  /-- `STACK_DEPTH`, 1 to 255 (`Config.legal`). -/
  stackDepth : Nat
  /-- `FONT_SMALL_BASE`. -/
  fontSmallBase : Word
  /-- `FONT_SMALL`: 16 glyphs of 5 bytes (R73). -/
  fontSmall : Vector Byte 80
  /-- `FONT_BIG_BASE`. -/
  fontBigBase : Word
  /-- `FONT_BIG`: 16 glyphs of 10 bytes (R74). -/
  fontBig : Vector Byte 160
  deriving DecidableEq, Repr

/-- `ORIGIN` (R5, R61): where a program is loaded and where execution starts. -/
def origin : Nat := 0x200

/-- The ranges of R5, and D12's constraint that both font tables lie wholly below `ORIGIN`. Quirk combinations are never
validated (R40, R260). CONSTRUCT does not ask this: what it does outside the ranges is a DESIGN CHOICE, unsafe for such
configurations: notes/assumptions/14.md. -/
def Config.legal (c : Config) : Bool :=
  decide (1 ≤ c.stackDepth ∧ c.stackDepth ≤ 255
    ∧ c.fontSmallBase.toNat + 80 ≤ origin ∧ c.fontBigBase.toNat + 160 ≤ origin)

/-- `RngState` (R36), "a single opaque seed/state word": the spec leaves the type open, and a natural number carries a
word of any width. DESIGN CHOICE, safe: notes/assumptions/2.md. -/
abbrev RngState := Nat

/-- `rng_init` (R36, D32), an open total function: no proof can see a value of it. Free value, notes/assumptions/2.md. -/
opaque Config.rngInit : Nat → RngState

/-- `rng_next` (R36, R151, D32), an open total function: the next generator state and the byte handed out. Free value,
notes/assumptions/2.md. -/
opaque Config.rngNext : RngState → RngState × Byte

/-- `SEED` when the host gives none (R36, U2): an arbitrary value. Free value, notes/assumptions/2.md. -/
opaque Config.hostSeed : Nat

end Sys2Proof
end

