-- ==== Sys2Proof/Machine/Presets.lean ====
section
/-! DEFINITION. The data of the configuration: the four dialect presets (spec/10_state.md R50), the font tables
(spec/20_memory.md R73, R74) and the default configuration of spec/00_scope.md R5. -/

namespace Sys2Proof.Machine

/-- R50, column `CHIP8`. -/
def presetChip8 : Quirks where
  vfResetOnLogic := true
  loadStoreIncrementsIndex := true
  displayWait := true
  spriteWraps := false
  shiftUsesVy := true
  jumpUsesVx := false
  isa := .chip8
  scrollWraps := false
  keyWaitRelease := false

/-- R50, column `SCHIP11`. -/
def presetSchip11 : Quirks where
  vfResetOnLogic := false
  loadStoreIncrementsIndex := false
  displayWait := true
  spriteWraps := false
  shiftUsesVy := false
  jumpUsesVx := true
  isa := .superChip
  scrollWraps := false
  keyWaitRelease := false

/-- R50, column `SCHIP_MODERN`. -/
def presetSchipModern : Quirks where
  vfResetOnLogic := false
  loadStoreIncrementsIndex := false
  displayWait := false
  spriteWraps := false
  shiftUsesVy := false
  jumpUsesVx := true
  isa := .superChip
  scrollWraps := false
  keyWaitRelease := false

/-- R50, column `XOCHIP`. -/
def presetXochip : Quirks where
  vfResetOnLogic := false
  loadStoreIncrementsIndex := true
  displayWait := false
  spriteWraps := true
  shiftUsesVy := true
  jumpUsesVx := false
  isa := .xoChip
  scrollWraps := false
  keyWaitRelease := false

/-- R73, glyphs 0 to F of 5 bytes. -/
def fontSmallTable : Vector Byte 80 :=
  #v[0xF0, 0x90, 0x90, 0x90, 0xF0,
    0x20, 0x60, 0x20, 0x20, 0x70,
    0xF0, 0x10, 0xF0, 0x80, 0xF0,
    0xF0, 0x10, 0xF0, 0x10, 0xF0,
    0x90, 0x90, 0xF0, 0x10, 0x10,
    0xF0, 0x80, 0xF0, 0x10, 0xF0,
    0xF0, 0x80, 0xF0, 0x90, 0xF0,
    0xF0, 0x10, 0x20, 0x40, 0x40,
    0xF0, 0x90, 0xF0, 0x90, 0xF0,
    0xF0, 0x90, 0xF0, 0x10, 0xF0,
    0xF0, 0x90, 0xF0, 0x90, 0x90,
    0xE0, 0x90, 0xE0, 0x90, 0xE0,
    0xF0, 0x80, 0x80, 0x80, 0xF0,
    0xE0, 0x90, 0x90, 0x90, 0xE0,
    0xF0, 0x80, 0xF0, 0x80, 0xF0,
    0xF0, 0x80, 0xF0, 0x80, 0x80]

/-- R74, glyphs 0 to F of 10 bytes. -/
def fontBigTable : Vector Byte 160 :=
  #v[0x3C, 0x7E, 0xE7, 0xC3, 0xC3, 0xC3, 0xC3, 0xE7, 0x7E, 0x3C,
    0x18, 0x38, 0x58, 0x18, 0x18, 0x18, 0x18, 0x18, 0x18, 0x3C,
    0x3E, 0x7F, 0xC3, 0x06, 0x0C, 0x18, 0x30, 0x60, 0xFF, 0xFF,
    0x3C, 0x7E, 0xC3, 0x03, 0x0E, 0x0E, 0x03, 0xC3, 0x7E, 0x3C,
    0x06, 0x0E, 0x1E, 0x36, 0x66, 0xC6, 0xFF, 0xFF, 0x06, 0x06,
    0xFF, 0xFF, 0xC0, 0xC0, 0xFC, 0xFE, 0x03, 0xC3, 0x7E, 0x3C,
    0x3E, 0x7C, 0xC0, 0xC0, 0xFC, 0xFE, 0xC3, 0xC3, 0x7E, 0x3C,
    0xFF, 0xFF, 0x03, 0x06, 0x0C, 0x18, 0x30, 0x60, 0x60, 0x60,
    0x3C, 0x7E, 0xC3, 0xC3, 0x7E, 0x7E, 0xC3, 0xC3, 0x7E, 0x3C,
    0x3C, 0x7E, 0xC3, 0xC3, 0x7F, 0x3F, 0x03, 0x03, 0x3E, 0x7C,
    0x7E, 0xFF, 0xC3, 0xC3, 0xC3, 0xFF, 0xFF, 0xC3, 0xC3, 0xC3,
    0xFC, 0xFC, 0xC3, 0xC3, 0xFC, 0xFC, 0xC3, 0xC3, 0xFC, 0xFC,
    0x3C, 0xFF, 0xC3, 0xC0, 0xC0, 0xC0, 0xC0, 0xC3, 0xFF, 0x3C,
    0xFC, 0xFE, 0xC3, 0xC3, 0xC3, 0xC3, 0xC3, 0xC3, 0xFE, 0xFC,
    0xFF, 0xFF, 0xC0, 0xC0, 0xFF, 0xFF, 0xC0, 0xC0, 0xFF, 0xFF,
    0xFF, 0xFF, 0xC0, 0xC0, 0xFF, 0xFF, 0xC0, 0xC0, 0xC0, 0xC0]

/-- The defaults of R5 around a quirk set: 4096 bytes, `Halt`, a stack of 16, the fonts at 0x050 and 0x0A0, and a seed that
the host did not give. -/
def configOf (q : Quirks) : Config where
  memSize := .baseline
  quirks := q
  seed := Config.hostSeed
  unknownPolicy := .halt
  stackDepth := 16
  fontSmallBase := 0x050
  fontSmall := fontSmallTable
  fontBigBase := 0x0A0
  fontBig := fontBigTable

/-- The configuration of `State.reset`: R5 names no default preset, and the model takes `XOCHIP`, under which every row of
the opcode table decodes. DESIGN CHOICE, unsafe: notes/assumptions/1.md. -/
def resetConfig : Config := configOf presetXochip

end Sys2Proof.Machine
end

