-- ==== Sys2Proof/Machine/State.lean ====
section
/-! DEFINITION. The state of one instance (spec/10_state.md), the five faults (spec/60_exceptions.md R240), and CONSTRUCT
(spec/70_reset_and_hazards.md R260, R261). -/

namespace Sys2Proof.Machine

/-- Memory (R60): the cells that differ from the reset contents, addresses strictly rising (`Memory.wf`). The form is a
DESIGN CHOICE, safe: notes/assumptions/13.md. -/
abbrev Memory := List Host.Cell

/-- One bitplane (R28, R223): 64 rows of 128 bits. Pixel `(x, y)` is bit `x` of row `y`; the spec defines no packing.
DESIGN CHOICE, safe: notes/assumptions/9.md. -/
abbrev Plane := Vector (BitVec 128) 64

/-- A plane with every pixel off. -/
def Plane.blank : Plane := Vector.replicate 64 0#128

/-- The state of the block: every item of 10_state.md under its own name, and the configuration it was constructed with. -/
structure State where
  /-- The configuration given to CONSTRUCT (R40, R260); no step writes it. DESIGN CHOICE, safe: notes/assumptions/1.md. -/
  config : Config
  /-- `V[0] .. V[15]` (R20). `V[15]` is `VF` (R21). -/
  v : Vector Byte 16
  /-- `I` (R22). -/
  i : Word
  /-- `PC` (R23). -/
  pc : Word
  /-- `SP`, the number of stack entries in use (R24). -/
  sp : Byte
  /-- `STACK[0 .. STACK_DEPTH-1]` (R24); its length is `config.stackDepth` in every state that meets
  the invariant. DESIGN CHOICE, safe: notes/assumptions/7.md. -/
  stack : List Word
  /-- `MEM` (R25). -/
  mem : Memory
  /-- `DT` (R26). -/
  dt : Byte
  /-- `ST` (R27). -/
  st : Byte
  /-- `PLANE[0]`, `PLANE[1]` (R28). -/
  planes : Vector Plane 2
  /-- `HIRES` (R29). -/
  hires : Bool
  /-- `PLANE_MASK` (R30). -/
  planeMask : BitVec 2
  /-- `PATTERN[0 .. 15]` (R31). -/
  pattern : Vector Byte 16
  /-- `PITCH` (R32). -/
  pitch : Byte
  /-- `KEYS[0 .. 15]`, true when pressed (R33). -/
  keys : Vector Bool 16
  /-- `KEYS_PREV[0 .. 15]` (R34). -/
  keysPrev : Vector Bool 16
  /-- `WAIT_REG` (R35): `none` is Running, `some r` is WaitingForKey. -/
  waitReg : Option Reg
  /-- `RNG` (R36). -/
  rng : RngState
  /-- `FLAGS[0 .. 15]` (R37). -/
  flags : Vector Byte 16
  /-- `DW_STALL` (R38). -/
  dwStall : Bool
  /-- `LAST_UNKNOWN` (R39). -/
  lastUnknown : Option Word
  deriving DecidableEq, Repr

/-- The closed list of R240. Every one is the spec's own typed result of a command, so each is safe: the machine has no
further effect (R107). -/
inductive Fault where
  /-- R241: raised by STEP under `UNKNOWN_POLICY = Halt` when the fetched word is Unknown. Safe. -/
  | unknownOpcode (w : Word)
  /-- R242: raised by `2NNN` with a full stack. Safe. -/
  | stackOverflow
  /-- R243: raised by `00EE` with an empty stack. Safe. -/
  | stackUnderflow
  /-- R244: raised by the fetch, `DXYN`, `FX33`, `FX55`, `FX65`, `5XY2`, `5XY3`, `F002` and `F000 NNNN` when a byte they need
  lies at or beyond `MEM_SIZE`; `addr` is the lowest such address. Safe. -/
  | outOfBoundsAccess (addr : Nat)
  /-- R245: raised by LOAD_ROM for an image that does not fit; never by STEP. Safe. -/
  | invalidRomLength (len : Nat)
  deriving DecidableEq, Repr

/-- Refusals of the model. No instruction of this model is refused. -/
inductive Refusal where
  /-- An arm of `exec` that has no meaning yet; no arm raises it now. Safe. -/
  | notModelled (mnemonic : String)
  deriving DecidableEq, Repr

/-- CONSTRUCT (R260): every item at the CONSTRUCT column of R261, memory at its reset contents. The
values are the spec's. DEDUCED, unsafe about the real block where the source is silent: notes/assumptions/5.md.
A configuration outside the ranges of R5 (`Config.legal` false) is constructed by the same rules; the spec leaves it open.
DESIGN CHOICE, unsafe for such configurations: notes/assumptions/14.md. -/
def State.construct (c : Config) : State where
  config := c
  v := Vector.replicate 16 0#8
  i := 0
  pc := 0x0200
  sp := 0
  stack := List.replicate c.stackDepth 0#16
  mem := []
  dt := 0
  st := 0
  planes := Vector.replicate 2 Plane.blank
  hires := false
  planeMask := 0b01
  pattern := Vector.replicate 16 0#8
  pitch := 64
  keys := Vector.replicate 16 false
  keysPrev := Vector.replicate 16 false
  waitReg := none
  rng := Config.rngInit c.seed
  flags := Vector.replicate 16 0#8
  dwStall := false
  lastUnknown := none

/-- The machine right after CONSTRUCT with `resetConfig`. -/
def State.reset : State := State.construct resetConfig

end Sys2Proof.Machine
end

