-- ==== Sys2Proof/Machine/Ops.lean ====
section
/-! DEFINITION. The named operations over memory, registers, the program counter and faults that every meaning is written
with (spec/00_scope.md R7, R8; spec/20_memory.md; spec/40_step_cycle.md). -/

namespace Sys2Proof.Machine

/-- What one command answers. -/
abbrev Result := Host.Outcome State Fault Refusal

/-! ## Memory -/

/-- The reset contents of one address (R61, R260): zero, then the small font, then the big font over it. This is what an
address that `mem` does not list reads as. DEDUCED: notes/assumptions/6.md and
notes/assumptions/13.md. -/
def initialByte (c : Config) (a : Nat) : Byte :=
  if c.fontBigBase.toNat ≤ a ∧ a < c.fontBigBase.toNat + 160 then c.fontBig[a - c.fontBigBase.toNat]?.getD 0
  else if c.fontSmallBase.toNat ≤ a ∧ a < c.fontSmallBase.toNat + 80 then c.fontSmall[a - c.fontSmallBase.toNat]?.getD 0
  else 0

/-- The listed byte of an address, if there is one. -/
def Memory.lookup : Memory → Nat → Option Byte
  | [], _ => none
  | (k, b) :: m, a => if k = a then some b else Memory.lookup m a

/-- `MEM[a]` (R7). -/
def Memory.read (c : Config) (m : Memory) (a : Nat) : Byte := (Memory.lookup m a).getD (initialByte c a)

/-- List a byte at an address, in address order. -/
def Memory.put : Memory → Nat → Byte → Memory
  | [], a, b => [(a, b)]
  | (k, d) :: m, a, b =>
    if a < k then (a, b) :: (k, d) :: m
    else if a = k then (a, b) :: m
    else (k, d) :: Memory.put m a b

/-- Drop every entry of an address. -/
def Memory.remove : Memory → Nat → Memory
  | [], _ => []
  | (k, d) :: m, a => if k = a then Memory.remove m a else (k, d) :: Memory.remove m a

/-- `MEM[a] <- b`, kept in canonical form: the reset contents are not listed. -/
def Memory.write (c : Config) (m : Memory) (a : Nat) (b : Byte) : Memory :=
  if b = initialByte c a then Memory.remove m a else Memory.put m a b

/-- Bytes at ascending addresses from `a` (R63, R65). -/
def Memory.writeBytes (c : Config) (m : Memory) (a : Nat) : List Byte → Memory
  | [] => m
  | b :: bs => Memory.writeBytes c (Memory.write c m a b) (a + 1) bs

/-- The cells from address `lo` on are rising, differ from the reset contents and lie below `MEM_SIZE`. -/
def Memory.wfFrom (c : Config) (lo : Nat) : Memory → Bool
  | [] => true
  | (a, b) :: m =>
    decide (lo ≤ a) && decide (a < c.memSize.bytes) && !(b == initialByte c a) && Memory.wfFrom c (a + 1) m

/-- The canonical form: addresses strictly rising, no entry equal to what an unlisted address reads as, none at or beyond
`MEM_SIZE` (R60). The form is a DESIGN CHOICE, safe: notes/assumptions/13.md. -/
def Memory.wf (c : Config) (m : Memory) : Bool := Memory.wfFrom c 0 m

/-- `MEM_SIZE` of the instance (R60). -/
def State.memSize (s : State) : Nat := s.config.memSize.bytes

/-- `MEM[a]` in a state (R7). -/
def State.byteAt (s : State) (a : Nat) : Byte := Memory.read s.config s.mem a

/-- `n` bytes from `base` upward, lowest address first. -/
def State.bytesAt (s : State) (base n : Nat) : List Byte := (List.range n).map fun k => s.byteAt (base + k)

/-- Store bytes from `base` upward (R65). The meanings check the bounds first (R62). -/
def State.storeBytes (s : State) (base : Nat) (bs : List Byte) : State :=
  { s with mem := Memory.writeBytes s.config s.mem base bs }

/-! ## Registers -/

/-- `V[x]` (R7, R20). -/
def State.reg (s : State) (x : Reg) : Byte := s.v[x]

/-- `V[x] <- b` (R7, R20). -/
def State.setReg (s : State) (x : Reg) (b : Byte) : State := { s with v := s.v.set x b }

/-- The order of R21 and R152: `V[x]` first, then `VF`, so that with `x = 15` the flag stays. -/
def State.setRegFlag (s : State) (x : Reg) (b flag : Byte) : State := (s.setReg x b).setReg 15 flag

/-- Write a list of (register, byte) pairs in order. -/
def State.setRegs (s : State) : List (Reg × Byte) → State
  | [] => s
  | (x, b) :: rest => (s.setReg x b).setRegs rest

/-- `I <- w` (R22). -/
def State.setIndex (s : State) (w : Word) : State := { s with i := w }

/-! ## The program counter -/

/-- `npc = (PC + 2) mod 2^16` (R7, R104). -/
def State.npc (s : State) : Word := s.pc + 2

/-- `PC <- target` (R7). -/
def State.goto (s : State) (target : Word) : State := { s with pc := target }

/-- `PC <- npc` (R104). -/
def State.advance (s : State) : State := s.goto s.npc

/-- `Skip()` (R109): 4 over the bytes `F0 00` at `npc` at `isa = XOChip`, else 2. The peek never faults. -/
def State.skipWidth (s : State) : Word :=
  if s.config.quirks.isa = .xoChip ∧ s.npc.toNat + 1 < s.memSize
      ∧ s.byteAt s.npc.toNat = 0xF0 ∧ s.byteAt (s.npc.toNat + 1) = 0x00
  then 4 else 2

/-- The end of a conditional skip (R109): `PC <- (npc + Skip()) mod 2^16` when taken, else `PC <- npc`. -/
def State.skipIf (s : State) (taken : Bool) : State := s.goto (if taken then s.npc + s.skipWidth else s.npc)

/-! ## Faults -/

/-- Taking a fault, `raise F(info)` (R7, R247): the command ends with the typed result and control goes nowhere. The spec has
no handler and no return (R248). The state after it is `State.afterFault`. Safe: notes/assumptions/3.md. -/
def raise (f : Fault) : Result := .fault f

/-- The state after a command that faulted (R8, R107): as before it, but for `LAST_UNKNOWN` (R106). -/
def State.afterFault (s : State) : Fault → State
  | .unknownOpcode w => { s with lastUnknown := some w }
  | .stackOverflow => s
  | .stackUnderflow => s
  | .outOfBoundsAccess _ => s
  | .invalidRomLength _ => s

/-- Every byte of an access of `n` bytes at `base` lies below `MEM_SIZE`; the addresses are naturals, with no wrap (R62). -/
def State.inBounds (s : State) (base n : Nat) : Bool := n == 0 || decide (base + n ≤ s.memSize)

/-- The bounds check that precedes every write of an instruction (R62, R244): the fault names `max(base, MEM_SIZE)`. -/
def State.guardAccess (s : State) (base n : Nat) (k : Result) : Result :=
  if s.inBounds base n then k else raise (.outOfBoundsAccess (max base s.memSize))

end Sys2Proof.Machine
end

