-- ==== Sys2Proof/Machine/Flags.lean ====
section
/-! DEFINITION. The values that instructions put in `VF` (spec/10_state.md R21, spec/42_alu.md). Each is computed exactly on
naturals and then narrowed (R152). -/

namespace Sys2Proof.Machine

/-- A flag as a byte: 1 or 0. -/
def flagByte (b : Bool) : Byte := if b then 1 else 0

/-- Carry out of `8XY4` (R146): the true sum is above 255. -/
def carryFlag (a b : Byte) : Byte := flagByte (decide (a.toNat + b.toNat > 255))

/-- No borrow in `a - b` (R147, R149): `a >= b`. -/
def noBorrowFlag (a b : Byte) : Byte := flagByte (decide (a.toNat ≥ b.toNat))

/-- The bit that `8XY6` shifts out (R148): bit 0 of the source. -/
def shrFlag (a : Byte) : Byte := a &&& 1

/-- The bit that `8XYE` shifts out (R150): bit 7 of the source. -/
def shlFlag (a : Byte) : Byte := a >>> 7

/-- The end of `8XY1`, `8XY2`, `8XY3` (R143, R46): `V[x] <- b`, then `VF <- 0` under `vf_reset_on_logic`. -/
def State.setLogic (s : State) (x : Reg) (b : Byte) : State :=
  if s.config.quirks.vfResetOnLogic then s.setRegFlag x b 0 else s.setReg x b

end Sys2Proof.Machine
end

