-- ==== Sys2Proof/Machine/Operands.lean ====
section
/-! DEFINITION. The operand forms: which value or register an instruction reads, and at which addresses
(spec/30_encoding.md R83 and the "Operands" lines of files 41 to 45). -/

namespace Sys2Proof.Machine

/-- `zext_16(NNN)` (R83). -/
def zext16 (nnn : BitVec 12) : Word := nnn.setWidth 16

/-- A byte as a 16-bit value (R6). -/
def zextByte (b : Byte) : Word := b.setWidth 16

/-- The low nibble of a byte as a number 0 to 15: the digit of R163 and R164, the key of R206 and R207 (D31). -/
def lowNibble (b : Byte) : Fin 16 := (b.extractLsb' 0 4).toFin

/-- The source of a shift (R41, R148): `V[Y]` under `shift_uses_vy`, else `V[X]`. -/
def State.shiftSource (s : State) (x y : Reg) : Byte := if s.config.quirks.shiftUsesVy then s.reg y else s.reg x

/-- The offset register of `BNNN` (R43, R123): `V[X]` under `jump_uses_vx`, `X` the top nibble of `NNN`, else `V[0]`. -/
def State.jumpRegister (s : State) (nnn : BitVec 12) : Reg :=
  if s.config.quirks.jumpUsesVx then (nnn.extractLsb' 8 4).toFin else 0

/-- The register of index `k` in the run from `x` towards `y` (R169): `x + k` upward, `x - k` downward. -/
def spanReg (x y : Reg) (k : Nat) : Reg := if x ≤ y then Fin.ofNat 16 (x.val + k) else Fin.ofNat 16 (x.val - k)

/-- `|X - Y| + 1`, the number of registers of the run (R169). -/
def spanCount (x y : Reg) : Nat := (x.val - y.val) + (y.val - x.val) + 1

/-- The registers from `x` to `y` in either direction, both included (R169, R170); from 0 they are `V0 .. VX` (R165). -/
def spanRegs (x y : Reg) : List Reg := (List.range (spanCount x y)).map (spanReg x y)

/-- The values of the registers from `x` to `y`. -/
def State.spanBytes (s : State) (x y : Reg) : List Byte := (spanRegs x y).map s.reg

/-- Load the registers from `x` to `y` with bytes, in order. -/
def State.loadSpan (s : State) (x y : Reg) (bs : List Byte) : State := s.setRegs ((spanRegs x y).zip bs)

/-- `I` after `FX55` or `FX65` (R42): `(I + X + 1) mod 2^16` under `load_store_increments_index`, else `I`. -/
def State.indexAfter (s : State) (x : Reg) : Word :=
  if s.config.quirks.loadStoreIncrementsIndex then s.i + BitVec.ofNat 16 (x.val + 1) else s.i

/-- The decimal digits of a byte, hundreds first (R167). -/
def decimalDigits (b : Byte) : List Byte :=
  [BitVec.ofNat 8 (b.toNat / 100), BitVec.ofNat 8 (b.toNat / 10 % 10), BitVec.ofNat 8 (b.toNat % 10)]

/-- The address of glyph `d` in a font of `size` bytes a glyph (R163, R164). -/
def glyphAddress (base : Word) (size : Nat) (d : Fin 16) : Word := base + BitVec.ofNat 16 (size * d.val)

/-- The width and height of the active window (R182). -/
def State.windowWidth (s : State) : Nat := if s.hires then 128 else 64

/-- The height of the active window (R182). -/
def State.windowHeight (s : State) : Nat := if s.hires then 64 else 32

/-- A plane is selected (R30, R182). -/
def State.isSelected (s : State) (p : Fin 2) : Bool := s.planeMask.getLsbD p.val

/-- `Selected`, the ascending list of selected planes (R182). -/
def State.selected (s : State) : List (Fin 2) := [0, 1].filter fun p => s.isSelected p

/-- The place of a selected plane in `Selected`, the `j` of R181: plane 1 comes second when plane 0 is selected too. -/
def State.planeRank (s : State) (p : Fin 2) : Nat := s.selected.idxOf p

/-- `big` of R181: `N = 0` above `isa = Chip8`. -/
def State.spriteBig (s : State) (n : Nibble) : Bool := n == 0#4 && !(s.config.quirks.isa == .chip8)

/-- `rows` of R181. -/
def State.spriteRows (s : State) (n : Nibble) : Nat := if s.spriteBig n then 16 else n.toNat

/-- `bpr` of R181, bytes per sprite row. -/
def State.spriteRowBytes (s : State) (n : Nibble) : Nat := if s.spriteBig n then 2 else 1

/-- `total` of R181, bytes of sprite data. -/
def State.spriteTotal (s : State) (n : Nibble) : Nat := s.spriteRows n * s.spriteRowBytes n * s.selected.length

/-- `base` of R181: where the block of a selected plane starts. -/
def State.spriteBase (s : State) (n : Nibble) (p : Fin 2) : Nat :=
  s.i.toNat + s.planeRank p * s.spriteRows n * s.spriteRowBytes n

/-- `bit` of R181: the sprite bit in row `r`, column `c` of the block at `base`; the most significant bit is leftmost. -/
def State.spriteBit (s : State) (n : Nibble) (base r c : Nat) : Bool :=
  (s.byteAt (base + r * s.spriteRowBytes n + c / 8)).getLsbD (7 - c % 8)

/-- `x0` of R181. -/
def State.spriteX (s : State) (x : Reg) : Nat := (s.reg x).toNat % s.windowWidth

/-- `y0` of R181. -/
def State.spriteY (s : State) (y : Reg) : Nat := (s.reg y).toNat % s.windowHeight

end Sys2Proof.Machine
end

