-- ==== Sys2Proof/Machine/Alu.lean ====
section
/-! DEFINITION. The meanings of spec/42_alu.md. Operands are read before anything is written, and `VF` is written last
(R21, R152). -/

namespace Sys2Proof.Machine

/-- `6XNN` (R140). -/
def execLdImm (x : Reg) (nn : Byte) (s : State) : Result := .next (s.setReg x nn).advance

/-- `7XNN` (R141): no flag. -/
def execAddImm (x : Reg) (nn : Byte) (s : State) : Result := .next (s.setReg x (s.reg x + nn)).advance

/-- `8XY0` (R142). -/
def execLdReg (x y : Reg) (s : State) : Result := .next (s.setReg x (s.reg y)).advance

/-- `8XY1` (R143). -/
def execOrReg (x y : Reg) (s : State) : Result := .next (s.setLogic x (s.reg x ||| s.reg y)).advance

/-- `8XY2` (R144). -/
def execAndReg (x y : Reg) (s : State) : Result := .next (s.setLogic x (s.reg x &&& s.reg y)).advance

/-- `8XY3` (R145). -/
def execXorReg (x y : Reg) (s : State) : Result := .next (s.setLogic x (s.reg x ^^^ s.reg y)).advance

/-- `8XY4` (R146). -/
def execAddReg (x y : Reg) (s : State) : Result :=
  .next (s.setRegFlag x (s.reg x + s.reg y) (carryFlag (s.reg x) (s.reg y))).advance

/-- `8XY5` (R147). -/
def execSubReg (x y : Reg) (s : State) : Result :=
  .next (s.setRegFlag x (s.reg x - s.reg y) (noBorrowFlag (s.reg x) (s.reg y))).advance

/-- `8XY6` (R148). -/
def execShr (x y : Reg) (s : State) : Result :=
  .next (s.setRegFlag x (s.shiftSource x y >>> 1) (shrFlag (s.shiftSource x y))).advance

/-- `8XY7` (R149). -/
def execSubnReg (x y : Reg) (s : State) : Result :=
  .next (s.setRegFlag x (s.reg y - s.reg x) (noBorrowFlag (s.reg y) (s.reg x))).advance

/-- `8XYE` (R150). -/
def execShl (x y : Reg) (s : State) : Result :=
  .next (s.setRegFlag x (s.shiftSource x y <<< 1) (shlFlag (s.shiftSource x y))).advance

/-- `CXNN` (R151): the generator advances once, the byte is masked. The byte is a free value: notes/assumptions/2.md. -/
def execRnd (x : Reg) (nn : Byte) (s : State) : Result :=
  .next { (s.setReg x ((Config.rngNext s.rng).2 &&& nn)).advance with rng := (Config.rngNext s.rng).1 }

end Sys2Proof.Machine
end

