-- ==== Sys2Proof/Machine/ControlFlow.lean ====
section
/-! DEFINITION. The meanings of spec/41_control_flow.md. -/

namespace Sys2Proof.Machine

/-- `00EE` (R120, R243). The popped entry stays in the stack and is dead (R24). -/
def execRet (s : State) : Result :=
  if s.sp = 0 then raise .stackUnderflow
  else .next { s with pc := s.stack.getD (s.sp.toNat - 1) 0, sp := s.sp - 1 }

/-- `1NNN` (R121). -/
def execJp (nnn : BitVec 12) (s : State) : Result := .next (s.goto (zext16 nnn))

/-- `2NNN` (R122, R242). -/
def execCall (nnn : BitVec 12) (s : State) : Result :=
  if s.sp.toNat = s.config.stackDepth then raise .stackOverflow
  else .next { s with stack := s.stack.set s.sp.toNat s.npc, sp := s.sp + 1, pc := zext16 nnn }

/-- `BNNN` (R123). -/
def execJpV0 (nnn : BitVec 12) (s : State) : Result :=
  .next (s.goto (zext16 nnn + zextByte (s.reg (s.jumpRegister nnn))))

/-- `3XNN` (R124). -/
def execSeImm (x : Reg) (nn : Byte) (s : State) : Result := .next (s.skipIf (s.reg x == nn))

/-- `4XNN` (R125). -/
def execSneImm (x : Reg) (nn : Byte) (s : State) : Result := .next (s.skipIf (s.reg x != nn))

/-- `00FD` (R126): nothing changes, the program counter included. -/
def execExit (s : State) : Result := .next s

/-- `5XY0` (R127). -/
def execSeReg (x y : Reg) (s : State) : Result := .next (s.skipIf (s.reg x == s.reg y))

/-- `9XY0` (R128). -/
def execSneReg (x y : Reg) (s : State) : Result := .next (s.skipIf (s.reg x != s.reg y))

end Sys2Proof.Machine
end

