-- ==== Sys2Proof/Machine/Planes.lean ====
section
/-! DEFINITION. Operations on the bitplanes: pixels, the sprite blit of spec/44_display.md R181, and ScrollWindow of R190. -/

namespace Sys2Proof.Machine

/-- `PLANE[p][y][x]` (R28); false outside the 128 x 64 buffer. -/
def Plane.pixel (p : Plane) (x y : Nat) : Bool := (p[y]?.getD 0#128).getLsbD x

/-- `PLANE[p][y][x] <- PLANE[p][y][x] xor 1`; nothing outside the buffer. -/
def Plane.flip (p : Plane) (x y : Nat) : Plane := p.setIfInBounds y ((p[y]?.getD 0#128) ^^^ (1#128 <<< x))

/-- The row whose pixels `x < n` are `f x`. -/
def rowBits (f : Nat → Bool) : Nat → BitVec 128
  | 0 => 0
  | n + 1 => rowBits f n ||| (if f n then 1#128 <<< n else 0#128)

/-- The plane whose pixel `(x, y)` is `f x y`. -/
def Plane.tabulate (f : Nat → Nat → Bool) : Plane := Vector.ofFn fun y => rowBits (fun x => f x y.val) 128

/-- Rebuild each selected plane and leave the others (R182). -/
def State.mapSelected (s : State) (f : Fin 2 → Plane → Plane) : Vector Plane 2 :=
  Vector.ofFn fun p => if s.isSelected p then f p s.planes[p] else s.planes[p]

/-! ## The sprite blit -/

/-- Where a sprite pixel lands (R44, R181): wrapped on both axes under `sprite_wraps`, else dropped outside the window. -/
def State.placePixel (s : State) (px py : Nat) : Option (Nat × Nat) :=
  if s.config.quirks.spriteWraps then some (px % s.windowWidth, py % s.windowHeight)
  else if px < s.windowWidth ∧ py < s.windowHeight then some (px, py)
  else none

/-- The pixels one block of sprite data touches, row by row, left to right (R181). -/
def State.spritePixels (s : State) (x y : Reg) (n : Nibble) (base : Nat) : List (Nat × Nat) :=
  (List.range (s.spriteRows n)).flatMap fun r =>
    (List.range (8 * s.spriteRowBytes n)).filterMap fun c =>
      if s.spriteBit n base r c then s.placePixel (s.spriteX x + c) (s.spriteY y + r) else none

/-- Flip one pixel and note whether it was on (R181). -/
def blitPixel (acc : Plane × Bool) (xy : Nat × Nat) : Plane × Bool :=
  (Plane.flip acc.1 xy.1 xy.2, acc.2 || Plane.pixel acc.1 xy.1 xy.2)

/-- Flip a list of pixels of a plane; the second part is `coll` of R181. -/
def blit (pixels : List (Nat × Nat)) (p : Plane) : Plane × Bool := pixels.foldl blitPixel (p, false)

/-- One selected plane after the draw, with its collision. DEDUCED, safe: notes/assumptions/12.md. -/
def State.drawPlane (s : State) (x y : Reg) (n : Nibble) (p : Fin 2) : Plane × Bool :=
  blit (s.spritePixels x y n (s.spriteBase n p)) s.planes[p]

/-- The planes after the draw (R181). -/
def State.drawPlanes (s : State) (x y : Reg) (n : Nibble) : Vector Plane 2 :=
  s.mapSelected fun p _ => (s.drawPlane x y n p).1

/-- `coll` of R181 over all selected planes. -/
def State.drawCollides (s : State) (x y : Reg) (n : Nibble) : Bool :=
  s.selected.any fun p => (s.drawPlane x y n p).2

/-! ## The scrolls -/

/-- One plane after ScrollWindow (R190): the pixels of a `w` by `h` window move by `(dx, dy)`, the others stay. -/
def scrollPlane (wraps : Bool) (w h : Nat) (dx dy : Int) (old : Plane) : Plane :=
  Plane.tabulate fun x y =>
    if x < w ∧ y < h then
      let sx : Int := x - dx
      let sy : Int := y - dy
      if wraps then Plane.pixel old (sx % w).toNat (sy % h).toNat
      else if 0 ≤ sx ∧ sx < w ∧ 0 ≤ sy ∧ sy < h then Plane.pixel old sx.toNat sy.toNat
      else false
    else Plane.pixel old x y

/-- `ScrollWindow(dx, dy)` (R190), positive right and down. -/
def State.scrollWindow (s : State) (dx dy : Int) : Vector Plane 2 :=
  s.mapSelected fun _ old => scrollPlane s.config.quirks.scrollWraps s.windowWidth s.windowHeight dx dy old

end Sys2Proof.Machine
end

