-- ==== Sys2Proof/Machine/Display.lean ====
section
/-! DEFINITION. The meanings of spec/44_display.md. -/

namespace Sys2Proof.Machine

/-- `00E0` (R180): the whole buffer of each selected plane. -/
def execCls (s : State) : Result := .next { s.advance with planes := s.mapSelected fun _ _ => Plane.blank }

/-- `DXYN` (R181): the bounds check covers all sprite bytes; then the blit, `VF`, the display-wait latch (R45) and the
program counter. -/
def execDrw (x y : Reg) (n : Nibble) (s : State) : Result :=
  s.guardAccess s.i.toNat (s.spriteTotal n)
    (.next { (s.setReg 15 (flagByte (s.drawCollides x y n))).advance with
      planes := s.drawPlanes x y n
      dwStall := s.dwStall || s.config.quirks.displayWait })

/-- `00FE` (R183): both planes are cleared whatever the mask. -/
def execLow (s : State) : Result := .next { s.advance with hires := false, planes := Vector.replicate 2 Plane.blank }

/-- `00FF` (R184): both planes are cleared whatever the mask. -/
def execHigh (s : State) : Result := .next { s.advance with hires := true, planes := Vector.replicate 2 Plane.blank }

/-- `00CN` (R185). -/
def execScd (n : Nibble) (s : State) : Result := .next { s.advance with planes := s.scrollWindow 0 n.toNat }

/-- `00DN` (R186). -/
def execScu (n : Nibble) (s : State) : Result := .next { s.advance with planes := s.scrollWindow 0 (-(n.toNat : Int)) }

/-- `00FB` (R187). -/
def execScr (s : State) : Result := .next { s.advance with planes := s.scrollWindow 4 0 }

/-- `00FC` (R188). -/
def execScl (s : State) : Result := .next { s.advance with planes := s.scrollWindow (-4) 0 }

/-- `FN01` (R189). -/
def execPlane (n : BitVec 2) (s : State) : Result := .next { s.advance with planeMask := n }

end Sys2Proof.Machine
end

