-- ==== Sys2Proof/Machine/IndexMemory.lean ====
section
/-! DEFINITION. The meanings of spec/43_index_memory.md. Every bounds check precedes the first write (R62). -/

namespace Sys2Proof.Machine

/-- `ANNN` (R160). -/
def execLdI (nnn : BitVec 12) (s : State) : Result := .next (s.setIndex (zext16 nnn)).advance

/-- `FX1E` (R161): wraps, no flag. -/
def execAddIVx (x : Reg) (s : State) : Result := .next (s.setIndex (s.i + zextByte (s.reg x))).advance

/-- `FX29` (R163). -/
def execLdFVx (x : Reg) (s : State) : Result :=
  .next (s.setIndex (glyphAddress s.config.fontSmallBase 5 (lowNibble (s.reg x)))).advance

/-- `FX30` (R164). -/
def execLdHfVx (x : Reg) (s : State) : Result :=
  .next (s.setIndex (glyphAddress s.config.fontBigBase 10 (lowNibble (s.reg x)))).advance

/-- `FX33` (R167). -/
def execLdBVx (x : Reg) (s : State) : Result :=
  s.guardAccess s.i.toNat 3 (.next (s.storeBytes s.i.toNat (decimalDigits (s.reg x))).advance)

/-- `FX55` (R165). -/
def execStoreRegs (x : Reg) (s : State) : Result :=
  s.guardAccess s.i.toNat (x.val + 1)
    (.next ((s.storeBytes s.i.toNat (s.spanBytes 0 x)).setIndex (s.indexAfter x)).advance)

/-- `FX65` (R166). -/
def execLoadRegs (x : Reg) (s : State) : Result :=
  s.guardAccess s.i.toNat (x.val + 1)
    (.next ((s.loadSpan 0 x (s.bytesAt s.i.toNat (x.val + 1))).setIndex (s.indexAfter x)).advance)

/-- `F000 NNNN` (R168): the operand word, cut by the decoder, must lie wholly in memory; the only advance by 4.
DEDUCED, safe: notes/assumptions/10.md. -/
def execLdILong (nnnn : Word) (s : State) : Result :=
  s.guardAccess (s.pc.toNat + 2) 2 (.next ((s.setIndex nnnn).goto (s.pc + 4)))

/-- `5XY2` (R169): `I` is never changed. -/
def execSaveRange (x y : Reg) (s : State) : Result :=
  s.guardAccess s.i.toNat (spanCount x y) (.next (s.storeBytes s.i.toNat (s.spanBytes x y)).advance)

/-- `5XY3` (R170): `I` is never changed. -/
def execLoadRange (x y : Reg) (s : State) : Result :=
  s.guardAccess s.i.toNat (spanCount x y)
    (.next (s.loadSpan x y (s.bytesAt s.i.toNat (spanCount x y))).advance)

/-- `FX75` (R171): entries above `X` keep their value. -/
def execStoreFlags (x : Reg) (s : State) : Result :=
  .next { s.advance with flags := Vector.ofFn fun k => if k ≤ x then s.reg k else s.flags[k] }

/-- `FX85` (R172). -/
def execLoadFlags (x : Reg) (s : State) : Result :=
  .next { s.advance with v := Vector.ofFn fun k => if k ≤ x then s.flags[k] else s.reg k }

end Sys2Proof.Machine
end

