-- ==== Sys2Proof/Machine/TimersAudioKeys.lean ====
section
/-! DEFINITION. The meanings of spec/45_timers_audio_keys.md. -/

namespace Sys2Proof.Machine

/-- `FX07` (R200). -/
def execLdVxDt (x : Reg) (s : State) : Result := .next (s.setReg x s.dt).advance

/-- `FX15` (R201): a load, not a count (R110). -/
def execLdDtVx (x : Reg) (s : State) : Result := .next { s.advance with dt := s.reg x }

/-- `FX18` (R202). -/
def execLdStVx (x : Reg) (s : State) : Result := .next { s.advance with st := s.reg x }

/-- `F002` (R204): all sixteen bytes; `I` is unchanged. -/
def execAudio (s : State) : Result :=
  s.guardAccess s.i.toNat 16
    (.next { s.advance with pattern := Vector.ofFn fun k => s.byteAt (s.i.toNat + k.val) })

/-- `FX3A` (R205). -/
def execPitch (x : Reg) (s : State) : Result := .next { s.advance with pitch := s.reg x }

/-- `EX9E` (R206): the current latch, not the snapshot. -/
def execSkp (x : Reg) (s : State) : Result := .next (s.skipIf s.keys[lowNibble (s.reg x)])

/-- `EXA1` (R207). -/
def execSknp (x : Reg) (s : State) : Result := .next (s.skipIf !s.keys[lowNibble (s.reg x)])

/-- `FX0A` (R208): enters WaitingForKey and takes the snapshot; `V[X]` is not written yet. -/
def execLdVxK (x : Reg) (s : State) : Result := .next { s.advance with waitReg := some x, keysPrev := s.keys }

end Sys2Proof.Machine
end

