-- ==== Sys2Proof/Syntax.lean ====
section
/-! DEFINITION. The fifty instructions of spec/opcode_table.json, one constructor per row, in the table's order
(spec/30_encoding.md R85). Operands are the fields of R81, already cut from the word. -/

namespace Sys2Proof

/-- One constructor per row of the opcode table. The docstring gives the word and the mnemonic of R85. -/
inductive Instr where
  /-- `00CN`, `SCD N`. -/
  | scd (n : Nibble)
  /-- `00DN`, `SCU N`. -/
  | scu (n : Nibble)
  /-- `00E0`, `CLS`. -/
  | cls
  /-- `00EE`, `RET`. -/
  | ret
  /-- `00FB`, `SCR`. -/
  | scr
  /-- `00FC`, `SCL`. -/
  | scl
  /-- `00FD`, `EXIT`. -/
  | exit
  /-- `00FE`, `LOW`. -/
  | low
  /-- `00FF`, `HIGH`. -/
  | high
  /-- `1NNN`, `JP NNN`. -/
  | jp (nnn : BitVec 12)
  /-- `2NNN`, `CALL NNN`. -/
  | call (nnn : BitVec 12)
  /-- `3XNN`, `SE VX, NN`. -/
  | seImm (x : Reg) (nn : Byte)
  /-- `4XNN`, `SNE VX, NN`. -/
  | sneImm (x : Reg) (nn : Byte)
  /-- `5XY0`, `SE VX, VY`. -/
  | seReg (x y : Reg)
  /-- `5XY2`, `SAVE VX-VY`. -/
  | saveRange (x y : Reg)
  /-- `5XY3`, `LOAD VX-VY`. -/
  | loadRange (x y : Reg)
  /-- `6XNN`, `LD VX, NN`. -/
  | ldImm (x : Reg) (nn : Byte)
  /-- `7XNN`, `ADD VX, NN`. -/
  | addImm (x : Reg) (nn : Byte)
  /-- `8XY0`, `LD VX, VY`. -/
  | ldReg (x y : Reg)
  /-- `8XY1`, `OR VX, VY`. -/
  | orReg (x y : Reg)
  /-- `8XY2`, `AND VX, VY`. -/
  | andReg (x y : Reg)
  /-- `8XY3`, `XOR VX, VY`. -/
  | xorReg (x y : Reg)
  /-- `8XY4`, `ADD VX, VY`. -/
  | addReg (x y : Reg)
  /-- `8XY5`, `SUB VX, VY`. -/
  | subReg (x y : Reg)
  /-- `8XY6`, `SHR VX, VY`. -/
  | shr (x y : Reg)
  /-- `8XY7`, `SUBN VX, VY`. -/
  | subnReg (x y : Reg)
  /-- `8XYE`, `SHL VX, VY`. -/
  | shl (x y : Reg)
  /-- `9XY0`, `SNE VX, VY`. -/
  | sneReg (x y : Reg)
  /-- `ANNN`, `LD I, NNN`. -/
  | ldI (nnn : BitVec 12)
  /-- `BNNN`, `JP V0, NNN`; `X` is the top nibble of `NNN` (R83). -/
  | jpV0 (nnn : BitVec 12)
  /-- `CXNN`, `RND VX, NN`. -/
  | rnd (x : Reg) (nn : Byte)
  /-- `DXYN`, `DRW VX, VY, N`. -/
  | drw (x y : Reg) (n : Nibble)
  /-- `EX9E`, `SKP VX`. -/
  | skp (x : Reg)
  /-- `EXA1`, `SKNP VX`. -/
  | sknp (x : Reg)
  /-- `F000 NNNN`, `LD I, LONG NNNN`; the only 4-byte instruction (R87). -/
  | ldILong (nnnn : Word)
  /-- `FN01` with `N <= 3`, `PLANE N`. -/
  | plane (n : BitVec 2)
  /-- `F002`, `AUDIO`. -/
  | audio
  /-- `FX07`, `LD VX, DT`. -/
  | ldVxDt (x : Reg)
  /-- `FX0A`, `LD VX, K`. -/
  | ldVxK (x : Reg)
  /-- `FX15`, `LD DT, VX`. -/
  | ldDtVx (x : Reg)
  /-- `FX18`, `LD ST, VX`. -/
  | ldStVx (x : Reg)
  /-- `FX1E`, `ADD I, VX`. -/
  | addIVx (x : Reg)
  /-- `FX29`, `LD F, VX`. -/
  | ldFVx (x : Reg)
  /-- `FX30`, `LD HF, VX`. -/
  | ldHfVx (x : Reg)
  /-- `FX33`, `LD B, VX`. -/
  | ldBVx (x : Reg)
  /-- `FX3A`, `PITCH VX`. -/
  | pitch (x : Reg)
  /-- `FX55`, `LD [I], VX`. -/
  | storeRegs (x : Reg)
  /-- `FX65`, `LD VX, [I]`. -/
  | loadRegs (x : Reg)
  /-- `FX75`, `LD R, VX`. -/
  | storeFlags (x : Reg)
  /-- `FX85`, `LD VX, R`. -/
  | loadFlags (x : Reg)
  deriving DecidableEq, Repr

end Sys2Proof
end

