-- ==== Sys2Proof/WellFormed.lean ====
section
/-! DEFINITION. When an instruction is legal: its minimum level (the column "min isa" of spec/30_encoding.md R85) is at most
`Q.isa`. Every other restriction of R81 and R82 on an operand is its type's width. -/

namespace Sys2Proof

/-- The column "min isa" of R85. -/
def Instr.minIsa : Instr → Isa
  | .scd _ => .superChip
  | .scu _ => .xoChip
  | .cls => .chip8
  | .ret => .chip8
  | .scr => .superChip
  | .scl => .superChip
  | .exit => .superChip
  | .low => .superChip
  | .high => .superChip
  | .jp _ => .chip8
  | .call _ => .chip8
  | .seImm _ _ => .chip8
  | .sneImm _ _ => .chip8
  | .seReg _ _ => .chip8
  | .saveRange _ _ => .xoChip
  | .loadRange _ _ => .xoChip
  | .ldImm _ _ => .chip8
  | .addImm _ _ => .chip8
  | .ldReg _ _ => .chip8
  | .orReg _ _ => .chip8
  | .andReg _ _ => .chip8
  | .xorReg _ _ => .chip8
  | .addReg _ _ => .chip8
  | .subReg _ _ => .chip8
  | .shr _ _ => .chip8
  | .subnReg _ _ => .chip8
  | .shl _ _ => .chip8
  | .sneReg _ _ => .chip8
  | .ldI _ => .chip8
  | .jpV0 _ => .chip8
  | .rnd _ _ => .chip8
  | .drw _ _ _ => .chip8
  | .skp _ => .chip8
  | .sknp _ => .chip8
  | .ldILong _ => .xoChip
  | .plane _ => .xoChip
  | .audio => .xoChip
  | .ldVxDt _ => .chip8
  | .ldVxK _ => .chip8
  | .ldDtVx _ => .chip8
  | .ldStVx _ => .chip8
  | .addIVx _ => .chip8
  | .ldFVx _ => .chip8
  | .ldHfVx _ => .superChip
  | .ldBVx _ => .chip8
  | .pitch _ => .xoChip
  | .storeRegs _ => .chip8
  | .loadRegs _ => .chip8
  | .storeFlags _ => .superChip
  | .loadFlags _ => .superChip

/-- The one check of R84 step (3): the instruction exists at this level. Only the decoder asks it. DEDUCED, safe:
notes/assumptions/11.md. -/
def Instr.wf (isa : Isa) (i : Instr) : Bool := isa.atLeast i.minIsa

end Sys2Proof
end

