-- ==== Sys2Proof/Decode.lean ====
section
/-! DEFINITION. The decoder of spec/30_encoding.md R80 to R87, total on any bytes, and the encoder written from the same
tables. -/

namespace Sys2Proof

/-- Two bytes as one 16-bit value, the first in bits 15:8 (R63). -/
def joinBytes (hi lo : Byte) : Word := hi ++ lo

/-- The byte of a word that lies at the lower address (R63). -/
def hiByte (w : Word) : Byte := w.extractLsb' 8 8

/-- The byte of a word that lies at the higher address (R63). -/
def loByte (w : Word) : Byte := w.extractLsb' 0 8

/-- The register a 4-bit field numbers (R83). -/
def regOf (b : Nibble) : Reg := b.toFin

/-- The 4-bit field that numbers a register. -/
def bitsOf (x : Reg) : Nibble := BitVec.ofFin x

/-- `OP = w[15:12]` (R81). -/
def fieldOp (w : Word) : Nibble := w.extractLsb' 12 4

/-- `X = w[11:8]` (R81). -/
def fieldX (w : Word) : Nibble := w.extractLsb' 8 4

/-- `Y = w[7:4]` (R81). -/
def fieldY (w : Word) : Nibble := w.extractLsb' 4 4

/-- `N = w[3:0]` (R81). -/
def fieldN (w : Word) : Nibble := w.extractLsb' 0 4

/-- `NN = w[7:0]` (R81). -/
def fieldNN (w : Word) : Byte := w.extractLsb' 0 8

/-- `NNN = w[11:0]` (R81). -/
def fieldNNN (w : Word) : BitVec 12 := w.extractLsb' 0 12

/-- Family 0 of R85: only words `00xx`. -/
def rowZero (w : Word) : Option Instr :=
  if fieldX w = 0#4 then
    match fieldY w with
    | 0xC#4 => some (.scd (fieldN w))
    | 0xD#4 => some (.scu (fieldN w))
    | _ =>
      match fieldNN w with
      | 0xE0#8 => some .cls
      | 0xEE#8 => some .ret
      | 0xFB#8 => some .scr
      | 0xFC#8 => some .scl
      | 0xFD#8 => some .exit
      | 0xFE#8 => some .low
      | 0xFF#8 => some .high
      | _ => none
  else none

/-- Family 5 of R85. -/
def rowFive (w : Word) : Option Instr :=
  match fieldN w with
  | 0x0#4 => some (.seReg (regOf (fieldX w)) (regOf (fieldY w)))
  | 0x2#4 => some (.saveRange (regOf (fieldX w)) (regOf (fieldY w)))
  | 0x3#4 => some (.loadRange (regOf (fieldX w)) (regOf (fieldY w)))
  | _ => none

/-- Family 8 of R85. -/
def rowEight (w : Word) : Option Instr :=
  match fieldN w with
  | 0x0#4 => some (.ldReg (regOf (fieldX w)) (regOf (fieldY w)))
  | 0x1#4 => some (.orReg (regOf (fieldX w)) (regOf (fieldY w)))
  | 0x2#4 => some (.andReg (regOf (fieldX w)) (regOf (fieldY w)))
  | 0x3#4 => some (.xorReg (regOf (fieldX w)) (regOf (fieldY w)))
  | 0x4#4 => some (.addReg (regOf (fieldX w)) (regOf (fieldY w)))
  | 0x5#4 => some (.subReg (regOf (fieldX w)) (regOf (fieldY w)))
  | 0x6#4 => some (.shr (regOf (fieldX w)) (regOf (fieldY w)))
  | 0x7#4 => some (.subnReg (regOf (fieldX w)) (regOf (fieldY w)))
  | 0xE#4 => some (.shl (regOf (fieldX w)) (regOf (fieldY w)))
  | _ => none

/-- Family 9 of R85. -/
def rowNine (w : Word) : Option Instr :=
  match fieldN w with
  | 0x0#4 => some (.sneReg (regOf (fieldX w)) (regOf (fieldY w)))
  | _ => none

/-- Family E of R85. -/
def rowE (w : Word) : Option Instr :=
  match fieldNN w with
  | 0x9E#8 => some (.skp (regOf (fieldX w)))
  | 0xA1#8 => some (.sknp (regOf (fieldX w)))
  | _ => none

/-- Family F of R85; `nnnn` is the word after the opcode, used by `F000 NNNN` alone. `FN01` needs bits 11:10 clear. -/
def rowF (w nnnn : Word) : Option Instr :=
  match fieldNN w with
  | 0x00#8 => if fieldX w = 0#4 then some (.ldILong nnnn) else none
  | 0x01#8 => if (fieldX w).extractLsb' 2 2 = 0#2 then some (.plane ((fieldX w).extractLsb' 0 2)) else none
  | 0x02#8 => if fieldX w = 0#4 then some .audio else none
  | 0x07#8 => some (.ldVxDt (regOf (fieldX w)))
  | 0x0A#8 => some (.ldVxK (regOf (fieldX w)))
  | 0x15#8 => some (.ldDtVx (regOf (fieldX w)))
  | 0x18#8 => some (.ldStVx (regOf (fieldX w)))
  | 0x1E#8 => some (.addIVx (regOf (fieldX w)))
  | 0x29#8 => some (.ldFVx (regOf (fieldX w)))
  | 0x30#8 => some (.ldHfVx (regOf (fieldX w)))
  | 0x33#8 => some (.ldBVx (regOf (fieldX w)))
  | 0x3A#8 => some (.pitch (regOf (fieldX w)))
  | 0x55#8 => some (.storeRegs (regOf (fieldX w)))
  | 0x65#8 => some (.loadRegs (regOf (fieldX w)))
  | 0x75#8 => some (.storeFlags (regOf (fieldX w)))
  | 0x85#8 => some (.loadFlags (regOf (fieldX w)))
  | _ => none

/-- R84 step (1): the row of R85 a word matches, whatever its level, with its fields cut; `nnnn` is the word that follows. -/
def rowOf (w nnnn : Word) : Option Instr :=
  match fieldOp w with
  | 0x0#4 => rowZero w
  | 0x1#4 => some (.jp (fieldNNN w))
  | 0x2#4 => some (.call (fieldNNN w))
  | 0x3#4 => some (.seImm (regOf (fieldX w)) (fieldNN w))
  | 0x4#4 => some (.sneImm (regOf (fieldX w)) (fieldNN w))
  | 0x5#4 => rowFive w
  | 0x6#4 => some (.ldImm (regOf (fieldX w)) (fieldNN w))
  | 0x7#4 => some (.addImm (regOf (fieldX w)) (fieldNN w))
  | 0x8#4 => rowEight w
  | 0x9#4 => rowNine w
  | 0xA#4 => some (.ldI (fieldNNN w))
  | 0xB#4 => some (.jpV0 (fieldNNN w))
  | 0xC#4 => some (.rnd (regOf (fieldX w)) (fieldNN w))
  | 0xD#4 => some (.drw (regOf (fieldX w)) (regOf (fieldY w)) (fieldN w))
  | 0xE#4 => rowE w
  | 0xF#4 => rowF w nnnn
  | _ => none

/-- The length in bytes (R80, R87). -/
def Instr.size : Instr → Nat
  | .ldILong _ => 4
  | _ => 2

/-- What the decoder answers on a list of bytes. -/
inductive Decoded where
  /-- An instruction of this level, and the bytes after it. -/
  | instr (i : Instr) (rest : List Byte)
  /-- R84, R86: the word is Unknown at this level. -/
  | unknown (w : Word)
  /-- Fewer bytes than the instruction is long. -/
  | tooShort
  deriving DecidableEq, Repr

/-- The word after the opcode, where two more bytes are there (R83). -/
def operandWord : List Byte → Word
  | hi :: lo :: _ => joinBytes hi lo
  | _ => 0

/-- R84 on the bytes at the program counter: the row, then the level, then the operand word of `F000 NNNN`. -/
def decode (isa : Isa) : List Byte → Decoded
  | hi :: lo :: rest =>
    match rowOf (joinBytes hi lo) (operandWord rest) with
    | none => .unknown (joinBytes hi lo)
    | some i =>
      if i.wf isa then
        if i.size ≤ rest.length + 2 then .instr i (rest.drop (i.size - 2)) else .tooShort
      else .unknown (joinBytes hi lo)
  | _ => .tooShort

/-! ## The encoder -/

/-- A word from its four fields `OP`, `X`, `Y`, `N` (R81). -/
def wordXYN (op x y n : Nibble) : Word := op ++ x ++ y ++ n

/-- A word from `OP`, `X`, `NN` (R81). -/
def wordXNN (op x : Nibble) (nn : Byte) : Word := op ++ x ++ nn

/-- A word from `OP`, `NNN` (R81). -/
def wordNNN (op : Nibble) (nnn : BitVec 12) : Word := op ++ nnn

/-- The first word of an instruction (R82, R85). -/
def firstWord : Instr → Word
  | .scd n => wordXYN 0x0 0x0 0xC n
  | .scu n => wordXYN 0x0 0x0 0xD n
  | .cls => 0x00E0
  | .ret => 0x00EE
  | .scr => 0x00FB
  | .scl => 0x00FC
  | .exit => 0x00FD
  | .low => 0x00FE
  | .high => 0x00FF
  | .jp nnn => wordNNN 0x1 nnn
  | .call nnn => wordNNN 0x2 nnn
  | .seImm x nn => wordXNN 0x3 (bitsOf x) nn
  | .sneImm x nn => wordXNN 0x4 (bitsOf x) nn
  | .seReg x y => wordXYN 0x5 (bitsOf x) (bitsOf y) 0x0
  | .saveRange x y => wordXYN 0x5 (bitsOf x) (bitsOf y) 0x2
  | .loadRange x y => wordXYN 0x5 (bitsOf x) (bitsOf y) 0x3
  | .ldImm x nn => wordXNN 0x6 (bitsOf x) nn
  | .addImm x nn => wordXNN 0x7 (bitsOf x) nn
  | .ldReg x y => wordXYN 0x8 (bitsOf x) (bitsOf y) 0x0
  | .orReg x y => wordXYN 0x8 (bitsOf x) (bitsOf y) 0x1
  | .andReg x y => wordXYN 0x8 (bitsOf x) (bitsOf y) 0x2
  | .xorReg x y => wordXYN 0x8 (bitsOf x) (bitsOf y) 0x3
  | .addReg x y => wordXYN 0x8 (bitsOf x) (bitsOf y) 0x4
  | .subReg x y => wordXYN 0x8 (bitsOf x) (bitsOf y) 0x5
  | .shr x y => wordXYN 0x8 (bitsOf x) (bitsOf y) 0x6
  | .subnReg x y => wordXYN 0x8 (bitsOf x) (bitsOf y) 0x7
  | .shl x y => wordXYN 0x8 (bitsOf x) (bitsOf y) 0xE
  | .sneReg x y => wordXYN 0x9 (bitsOf x) (bitsOf y) 0x0
  | .ldI nnn => wordNNN 0xA nnn
  | .jpV0 nnn => wordNNN 0xB nnn
  | .rnd x nn => wordXNN 0xC (bitsOf x) nn
  | .drw x y n => wordXYN 0xD (bitsOf x) (bitsOf y) n
  | .skp x => wordXNN 0xE (bitsOf x) 0x9E
  | .sknp x => wordXNN 0xE (bitsOf x) 0xA1
  | .ldILong _ => 0xF000
  | .plane n => wordXNN 0xF (0#2 ++ n) 0x01
  | .audio => 0xF002
  | .ldVxDt x => wordXNN 0xF (bitsOf x) 0x07
  | .ldVxK x => wordXNN 0xF (bitsOf x) 0x0A
  | .ldDtVx x => wordXNN 0xF (bitsOf x) 0x15
  | .ldStVx x => wordXNN 0xF (bitsOf x) 0x18
  | .addIVx x => wordXNN 0xF (bitsOf x) 0x1E
  | .ldFVx x => wordXNN 0xF (bitsOf x) 0x29
  | .ldHfVx x => wordXNN 0xF (bitsOf x) 0x30
  | .ldBVx x => wordXNN 0xF (bitsOf x) 0x33
  | .pitch x => wordXNN 0xF (bitsOf x) 0x3A
  | .storeRegs x => wordXNN 0xF (bitsOf x) 0x55
  | .loadRegs x => wordXNN 0xF (bitsOf x) 0x65
  | .storeFlags x => wordXNN 0xF (bitsOf x) 0x75
  | .loadFlags x => wordXNN 0xF (bitsOf x) 0x85

/-- The words of an instruction: one, or two for `F000 NNNN` (R80, R87). -/
def encodeWords : Instr → List Word
  | .ldILong nnnn => [0xF000, nnnn]
  | i => [firstWord i]

/-- The bytes of an instruction as they lie in memory, each word high byte first (R63). -/
def encode (i : Instr) : List Byte := (encodeWords i).flatMap fun w => [hiByte w, loByte w]

/-! ## The opcode table as data -/

/-- One row of R85: `w & mask = pattern` at level `minIsa` or above. -/
structure OpcodeRow where
  mask : Word
  pattern : Word
  minIsa : Isa
  deriving DecidableEq, Repr

/-- A word matches a row (R84 step (1)). -/
def OpcodeRow.fits (r : OpcodeRow) (w : Word) : Bool := w &&& r.mask == r.pattern

/-- Families 0 to 7 of R85. -/
def opcodeRowsLow : List OpcodeRow :=
  [⟨0xFFF0, 0x00C0, .superChip⟩, ⟨0xFFF0, 0x00D0, .xoChip⟩, ⟨0xFFFF, 0x00E0, .chip8⟩, ⟨0xFFFF, 0x00EE, .chip8⟩,
   ⟨0xFFFF, 0x00FB, .superChip⟩, ⟨0xFFFF, 0x00FC, .superChip⟩, ⟨0xFFFF, 0x00FD, .superChip⟩, ⟨0xFFFF, 0x00FE, .superChip⟩,
   ⟨0xFFFF, 0x00FF, .superChip⟩, ⟨0xF000, 0x1000, .chip8⟩, ⟨0xF000, 0x2000, .chip8⟩, ⟨0xF000, 0x3000, .chip8⟩,
   ⟨0xF000, 0x4000, .chip8⟩, ⟨0xF00F, 0x5000, .chip8⟩, ⟨0xF00F, 0x5002, .xoChip⟩, ⟨0xF00F, 0x5003, .xoChip⟩,
   ⟨0xF000, 0x6000, .chip8⟩, ⟨0xF000, 0x7000, .chip8⟩]

/-- Families 8 to E of R85. -/
def opcodeRowsMid : List OpcodeRow :=
  [⟨0xF00F, 0x8000, .chip8⟩, ⟨0xF00F, 0x8001, .chip8⟩, ⟨0xF00F, 0x8002, .chip8⟩, ⟨0xF00F, 0x8003, .chip8⟩,
   ⟨0xF00F, 0x8004, .chip8⟩, ⟨0xF00F, 0x8005, .chip8⟩, ⟨0xF00F, 0x8006, .chip8⟩, ⟨0xF00F, 0x8007, .chip8⟩,
   ⟨0xF00F, 0x800E, .chip8⟩, ⟨0xF00F, 0x9000, .chip8⟩, ⟨0xF000, 0xA000, .chip8⟩, ⟨0xF000, 0xB000, .chip8⟩,
   ⟨0xF000, 0xC000, .chip8⟩, ⟨0xF000, 0xD000, .chip8⟩, ⟨0xF0FF, 0xE09E, .chip8⟩, ⟨0xF0FF, 0xE0A1, .chip8⟩]

/-- Family F of R85. -/
def opcodeRowsHigh : List OpcodeRow :=
  [⟨0xFFFF, 0xF000, .xoChip⟩, ⟨0xFCFF, 0xF001, .xoChip⟩, ⟨0xFFFF, 0xF002, .xoChip⟩, ⟨0xF0FF, 0xF007, .chip8⟩,
   ⟨0xF0FF, 0xF00A, .chip8⟩, ⟨0xF0FF, 0xF015, .chip8⟩, ⟨0xF0FF, 0xF018, .chip8⟩, ⟨0xF0FF, 0xF01E, .chip8⟩,
   ⟨0xF0FF, 0xF029, .chip8⟩, ⟨0xF0FF, 0xF030, .superChip⟩, ⟨0xF0FF, 0xF033, .chip8⟩, ⟨0xF0FF, 0xF03A, .xoChip⟩,
   ⟨0xF0FF, 0xF055, .chip8⟩, ⟨0xF0FF, 0xF065, .chip8⟩, ⟨0xF0FF, 0xF075, .superChip⟩, ⟨0xF0FF, 0xF085, .superChip⟩]

/-- The fifty rows of R85 in the table's order. -/
def opcodeRows : List OpcodeRow := opcodeRowsLow ++ opcodeRowsMid ++ opcodeRowsHigh

/-! ## The host's entry -/

/-- The four bytes at the program counter for an instruction numbered as spec/opcode_table.json numbers it: bits 15:0 are the
first word, bits 31:16 the second, bits above `nbits` zero, each word high byte first. -/
def tableBytes (nbits w : Nat) : List Byte :=
  let u := BitVec.ofNat 32 (w % 2 ^ nbits)
  [u.extractLsb' 8 8, u.extractLsb' 0 8, u.extractLsb' 24 8, u.extractLsb' 16 8]

/-- The instruction the decoder reads from table bits, at the level under which every row decodes (notes/assumptions/8.md). -/
def decodeTableWord (nbits w : Nat) : Option Instr :=
  match decode .xoChip (tableBytes nbits w) with
  | .instr i _ => some i
  | _ => none

end Sys2Proof
end

