-- ==== Sys2Proof/Machine/StepCycle.lean ====
section
/-! DEFINITION. The parts of a STEP around the instruction (spec/40_step_cycle.md): the fetch, the unknown-opcode step and the
waiting step of spec/45_timers_audio_keys.md R209. -/

namespace Sys2Proof.Machine

/-- The bytes the decoder may look at: at most four from `PC` upward, all below `MEM_SIZE` (R103, R168). -/
def State.fetchBytes (s : State) : List Byte := s.bytesAt s.pc.toNat (min 4 (s.memSize - s.pc.toNat))

/-- What the fetch and the decoder give a running step (R100). -/
inductive Fetched where
  /-- An instruction of the instance's level. -/
  | instr (i : Instr)
  /-- The word decodes to no instruction (R84). -/
  | unknown (w : Word)
  /-- The fetch, or the operand word of `F000 NNNN`, reaches beyond memory; `base` is where that access starts. -/
  | outside (base : Nat)
  deriving DecidableEq, Repr

/-- Fetch and decode (R100, R103, R246): the bounds of the word, then the row, then the bounds of the operand (R168). -/
def State.fetch (s : State) : Fetched :=
  if s.inBounds s.pc.toNat 2 then
    match decode s.config.quirks.isa s.fetchBytes with
    | .instr i _ => .instr i
    | .unknown w => .unknown w
    | .tooShort => .outside (s.pc.toNat + 2)
  else .outside s.pc.toNat

/-- The unknown-opcode step (R106). Under `Halt` the word is kept by `State.afterFault`; under `Skip` it is a 2-byte no-op that
is recorded. -/
def State.unknownStep (s : State) (w : Word) : Result :=
  match s.config.unknownPolicy with
  | .halt => raise (.unknownOpcode w)
  | .skip => .next { s.advance with lastUnknown := some w }

/-- `event(k)` of R209: newly pressed, or newly released under `key_wait_release`. -/
def State.keyEvent (s : State) (k : Fin 16) : Bool :=
  if s.config.quirks.keyWaitRelease then s.keysPrev[k] && !s.keys[k] else !s.keysPrev[k] && s.keys[k]

/-- `hit` of R209: the least key with the event. -/
def State.keyHit (s : State) : Option (Fin 16) := (List.finRange 16).find? fun k => s.keyEvent k

/-- The waiting step (R102, R209): no fetch, no instruction, `PC` is not written. -/
def State.waitingStep (s : State) (r : Reg) : State :=
  match s.keyHit with
  | none => { s with keysPrev := s.keys }
  | some k => { s.setReg r (BitVec.ofNat 8 k.val) with keysPrev := s.keys, waitReg := none }

/-- Lay bytes at `a`, leaving out any beyond `MEM_SIZE`. -/
def State.placeBytes (s : State) (a : Nat) (bs : List Byte) : State := s.storeBytes a (bs.take (s.memSize - a))

end Sys2Proof.Machine
end

