-- ==== Sys2Proof/Machine/Step.lean ====
section
/-! DEFINITION. The STEP command (spec/40_step_cycle.md R100), and the host's way to place one instruction where it fetches. -/

namespace Sys2Proof.Machine

/-- `STEP` (R100): the stalled step, the waiting step, an instruction, or the unknown-opcode step, tested in this order.
The other commands are functions of Machine/HostCommands.lean. DESIGN CHOICE, safe: notes/assumptions/4.md. -/
def step (s : State) : Host.Outcome State Fault Refusal :=
  if s.dwStall then .next s
  else
    match s.waitReg with
    | some r => .next (s.waitingStep r)
    | none =>
      match s.fetch with
      | .instr i => exec i s
      | .unknown w => s.unknownStep w
      | .outside base => raise (.outOfBoundsAccess (max base s.memSize))

/-- The state with the instruction of the given table bits at `PC`, not stalled and not waiting, so that the very next step
fetches it (notes/assumptions/8.md). -/
def State.withFetchWord (s : State) (nbits w : Nat) : State :=
  { s.placeBytes s.pc.toNat (tableBytes nbits w) with dwStall := false, waitReg := none }

end Sys2Proof.Machine
end

