-- ==== Sys2Proof/Machine/HostCommands.lean ====
section
/-! DEFINITION. The host's commands (spec/46_host_commands.md, spec/70_reset_and_hazards.md R260, R263), the fold of a
sequence of commands (R220), and the histories that never end, with the host's duty to keep ticking (R226). -/

namespace Sys2Proof.Machine

/-- `DT - 1` or `ST - 1`, floored at 0 (R221). -/
def countDown (b : Byte) : Byte := if b = 0 then 0 else b - 1

/-- `TICK` (R221). -/
def State.tick (s : State) : State := { s with dt := countDown s.dt, st := countDown s.st, dwStall := false }

/-- `SET_KEY(index, pressed)` (R222): the latch alone. -/
def State.setKey (s : State) (index : Fin 16) (pressed : Bool) : State := { s with keys := s.keys.set index pressed }

/-- The canonical memory that holds bytes from `a` upward over the reset contents (R61, R263). -/
def Memory.ofBytes (c : Config) (a : Nat) : List Byte → Memory
  | [] => []
  | b :: bs => if b = initialByte c a then Memory.ofBytes c (a + 1) bs else (a, b) :: Memory.ofBytes c (a + 1) bs

/-- `LOAD_ROM(bytes)` (R263, R245): every item at the LOAD_ROM column of R261, which keeps the configuration, `KEYS` and `RNG`;
memory is rebuilt whole. -/
def State.loadRom (s : State) (bytes : List Byte) : Result :=
  if bytes.length > s.memSize - origin then raise (.invalidRomLength bytes.length)
  else .next { State.construct s.config with mem := Memory.ofBytes s.config origin bytes, keys := s.keys, rng := s.rng }

/-- What `DISPLAY` answers (R223). -/
structure DisplayView where
  planes : Vector Plane 2
  hires : Bool
  deriving DecidableEq, Repr

/-- `DISPLAY` (R223). -/
def State.display (s : State) : DisplayView := { planes := s.planes, hires := s.hires }

/-- The customary colour index of a pixel (R223), 0 to 3. -/
def DisplayView.colour (d : DisplayView) (x y : Nat) : Nat :=
  (Plane.pixel d.planes[0] x y).toNat + 2 * (Plane.pixel d.planes[1] x y).toNat

/-- The sound-active signal (R225). -/
def State.soundActive (s : State) : Bool := decide (s.st.toNat > 0)

/-- What `AUDIO` answers (R224). -/
structure AudioView where
  soundActive : Bool
  pattern : Vector Byte 16
  pitch : Byte
  deriving DecidableEq, Repr

/-- `AUDIO` (R224). -/
def State.audio (s : State) : AudioView := { soundActive := s.soundActive, pattern := s.pattern, pitch := s.pitch }

/-- The seven commands (R220). A key index of 16 or more cannot be expressed (R222). -/
inductive Command where
  | construct (c : Config)
  | loadRom (bytes : List Byte)
  | step
  | tick
  | setKey (index : Fin 16) (pressed : Bool)
  | display
  | audio
  deriving DecidableEq, Repr

/-- What a command hands back to the host (R111, R223, R224, R240). -/
inductive Reply where
  | ok
  | fault (f : Fault)
  | refused (r : Refusal)
  | display (d : DisplayView)
  | audio (a : AudioView)
  deriving DecidableEq, Repr

/-- The result code of R240; the numbers are the spec's choice D37. A refusal is none of the spec's results. -/
def Reply.code : Reply → Option Nat
  | .ok => some 0
  | .fault (.unknownOpcode _) => some 1
  | .fault .stackOverflow => some 2
  | .fault .stackUnderflow => some 3
  | .fault (.outOfBoundsAccess _) => some 4
  | .fault (.invalidRomLength _) => some 5
  | .refused _ => none
  | .display _ => some 0
  | .audio _ => some 0

/-- A transition's outcome as the state after the command and its reply (R8, R107). -/
def State.settle (s : State) : Result → State × Reply
  | .next t => (t, .ok)
  | .fault f => (s.afterFault f, .fault f)
  | .refused r => (s, .refused r)

/-- One command: one atomic transition or read (R220). CONSTRUCT cannot fail (R260); that it answers `Ok` and constructs the block
for a configuration outside the ranges of R5 too, without asking `Config.legal`, is a DESIGN CHOICE, unsafe for such
configurations: notes/assumptions/14.md. -/
def State.command (s : State) : Command → State × Reply
  | .construct c => (State.construct c, .ok)
  | .loadRom bytes => s.settle (s.loadRom bytes)
  | .step => s.settle (step s)
  | .tick => (s.tick, .ok)
  | .setKey index pressed => (s.setKey index pressed, .ok)
  | .display => (s, .display s.display)
  | .audio => (s, .audio s.audio)

/-- The state after a sequence of commands: the fold of the transition rules over it (R220). -/
def State.runCommands (s : State) (cs : List Command) : State := cs.foldl (fun t c => (t.command c).1) s

/-- A history of commands that never ends: command number `n` is `h n` (R220). Any interleaving is one (R227). -/
abbrev History := Nat → Command

/-- The state before command number `n` of a history that starts in `s`: the fold of its first `n` commands (R220). -/
def History.state (h : History) (s : State) : Nat → State
  | 0 => s
  | n + 1 => ((History.state h s n).command (h n)).1

/-- Weak fairness of `TICK`, the host's duty of R226 ("call it again and again"). Every state takes a `TICK`, so weak fairness
says that one comes after every point of the history; how many other commands come before it is left open (R227). -/
def History.FairTick (h : History) : Prop := ∀ n, ∃ m, n ≤ m ∧ h m = .tick

/-- The host keeps issuing `STEP` (R275). It is no duty (R226: the host may stop for good), so a claim that needs it assumes it.
Both are premises of claims and part of no transition. DESIGN CHOICE, safe: notes/assumptions/4.md. -/
def History.FairStep (h : History) : Prop := ∀ n, ∃ m, n ≤ m ∧ h m = .step

end Sys2Proof.Machine
end

