-- ==== Sys2Proof/Safety.lean ====
section
/-! DEFINITION. What claims about this machine are stated with: the invariants of spec/10_state.md R53, the end of a run of
spec/70_reset_and_hazards.md R270, what a history of commands meets (R226), and the frames (which items of the state two states share). -/

namespace Sys2Proof.Machine

/-- Every pixel of a plane outside the 64 x 32 window is off. -/
def Plane.insideLowWindow (p : Plane) : Prop := ∀ x y, ¬(x < 64 ∧ y < 32) → Plane.pixel p x y = false

/-- R53 (c): what cannot change below `isa = XOChip`. -/
def State.noXoChipState (s : State) : Prop :=
  s.planeMask = 0b01 ∧ s.planes[1] = Plane.blank ∧ s.pattern = Vector.replicate 16 0#8 ∧ s.pitch = 64

/-- R53 (d): what cannot change at `isa = Chip8`. -/
def State.noSuperChipState (s : State) : Prop := s.hires = false ∧ s.flags = Vector.replicate 16 0#8

/-- R53 (a) to (f), with the canonical form of memory and the length of the stack for "`MEM` has exactly `MEM_SIZE` bytes" and
"`STACK[0 .. STACK_DEPTH-1]`", which are the model's own: notes/assumptions/13.md and notes/assumptions/7.md. -/
structure State.Inv (s : State) : Prop where
  configLegal : s.config.legal = true
  stackLength : s.stack.length = s.config.stackDepth
  spBound : s.sp.toNat ≤ s.config.stackDepth
  waitNotStalled : s.waitReg ≠ none → s.dwStall = false
  belowXoChip : s.config.quirks.isa ≠ .xoChip → s.noXoChipState
  atChip8 : s.config.quirks.isa = .chip8 → s.noSuperChipState
  lowWindow : s.hires = false → ∀ p : Fin 2, Plane.insideLowWindow s.planes[p]
  memWf : Memory.wf s.config s.mem = true

/-- R270: the run has ended. Both words are read straight from memory. -/
def State.hasEnded (s : State) : Bool :=
  s.waitReg == none && !s.dwStall && decide (s.pc.toNat + 1 < s.memSize) &&
    ((decide (s.pc.toNat ≤ 0x0FFF) &&
        joinBytes (s.byteAt s.pc.toNat) (s.byteAt (s.pc.toNat + 1)) == 0x1000#16 ||| s.pc) ||
      (s.config.quirks.isa.atLeast .superChip &&
        joinBytes (s.byteAt s.pc.toNat) (s.byteAt (s.pc.toNat + 1)) == 0x00FD#16))

/-! ## Histories -/

/-- The next STEP of this state runs the instruction `i` (R100). -/
def State.Runs (s : State) (i : Instr) : Prop := s.dwStall = false ∧ s.waitReg = none ∧ s.fetch = .instr i

/-- `PC` is at the start of a loop on `DT` (R226), in the customary form `LD VX, DT` ; `SE VX, 0` ; `JP` back; the words are read
straight from memory. The form is a DESIGN CHOICE, safe: notes/assumptions/4.md. -/
def State.AtDtLoop (s : State) (x : Reg) : Prop :=
  let word : Nat → Word := fun k => joinBytes (s.byteAt (s.pc.toNat + k)) (s.byteAt (s.pc.toNat + k + 1))
  s.waitReg = none ∧ s.pc.toNat ≤ 0x0FFF ∧ s.pc.toNat + 5 < s.memSize ∧
    word 0 = wordXNN 0xF (bitsOf x) 0x07 ∧ word 2 = wordXNN 0x3 (bitsOf x) 0x00 ∧ word 4 = 0x1000#16 ||| s.pc

/-! ## Frames -/

/-- Every general register outside a list is unchanged. -/
def SameRegsBut (rs : List Reg) (s t : State) : Prop := ∀ r : Reg, r ∉ rs → t.reg r = s.reg r

/-- Every byte of memory reads as before. -/
def SameMemory (s t : State) : Prop := ∀ a, t.byteAt a = s.byteAt a

/-- Every byte of memory outside `[base, base + n)` reads as before. -/
def SameMemoryBut (base n : Nat) (s t : State) : Prop := ∀ a, ¬(base ≤ a ∧ a < base + n) → t.byteAt a = s.byteAt a

/-- Nothing changed but the program counter. -/
def OnlyPc (s t : State) : Prop := t = { s with pc := t.pc }

/-- Nothing changed but general registers and the program counter. -/
def OnlyRegsPc (s t : State) : Prop := t = { s with v := t.v, pc := t.pc }

/-- Nothing changed but the index register and the program counter. -/
def OnlyIndexPc (s t : State) : Prop := t = { s with i := t.i, pc := t.pc }

/-- Nothing changed but memory, the index register and the program counter. -/
def OnlyMemIndexPc (s t : State) : Prop := t = { s with mem := t.mem, i := t.i, pc := t.pc }

/-- Nothing changed but general registers, the index register and the program counter. -/
def OnlyRegsIndexPc (s t : State) : Prop := t = { s with v := t.v, i := t.i, pc := t.pc }

/-- Nothing changed but the planes and the program counter. -/
def OnlyPlanesPc (s t : State) : Prop := t = { s with planes := t.planes, pc := t.pc }

/-! ## What each instruction may write, read off the "Pseudocode" lines of files 41 to 45 -/

/-- The general registers an instruction may write under a quirk set. -/
def destRegs (q : Quirks) : Instr → List Reg
  | .ldImm x _ => [x]
  | .addImm x _ => [x]
  | .ldReg x _ => [x]
  | .orReg x _ => if q.vfResetOnLogic then [x, 15] else [x]
  | .andReg x _ => if q.vfResetOnLogic then [x, 15] else [x]
  | .xorReg x _ => if q.vfResetOnLogic then [x, 15] else [x]
  | .addReg x _ => [x, 15]
  | .subReg x _ => [x, 15]
  | .shr x _ => [x, 15]
  | .subnReg x _ => [x, 15]
  | .shl x _ => [x, 15]
  | .rnd x _ => [x]
  | .drw _ _ _ => [15]
  | .ldVxDt x => [x]
  | .loadRange x y => spanRegs x y
  | .loadRegs x => spanRegs 0 x
  | .loadFlags x => spanRegs 0 x
  | _ => []

/-- How many bytes an instruction stores, from `I` upward (R65). -/
def storeCount : Instr → Nat
  | .ldBVx _ => 3
  | .storeRegs x => x.val + 1
  | .saveRange x y => spanCount x y
  | _ => 0

/-- The instructions that may write `I` under a quirk set (R22). -/
def writesIndex (q : Quirks) : Instr → Bool
  | .ldI _ => true
  | .ldILong _ => true
  | .addIVx _ => true
  | .ldFVx _ => true
  | .ldHfVx _ => true
  | .storeRegs _ => q.loadStoreIncrementsIndex
  | .loadRegs _ => q.loadStoreIncrementsIndex
  | _ => false

/-- The instructions that write the planes (R28). -/
def writesPlanes : Instr → Bool
  | .drw _ _ _ => true
  | .cls => true
  | .scd _ => true
  | .scu _ => true
  | .scr => true
  | .scl => true
  | .low => true
  | .high => true
  | _ => false

/-! ## The display -/

/-- R181: some set bit of the sprite of `DXYN` lands on pixel `(px, py)` of the selected plane `p`. Every quantity of the rule
is written out here: `big`, `rows`, `bpr`, the block of the plane, the bit, and the place of the pixel. -/
def SpriteHits (s : State) (x y : Reg) (n : Nibble) (p : Fin 2) (px py : Nat) : Prop :=
  let big : Bool := n == 0 && s.config.quirks.isa != .chip8
  let rows := if big then 16 else n.toNat
  let bpr := if big then 2 else 1
  let w := if s.hires then 128 else 64
  let h := if s.hires then 64 else 32
  let j := if p = 1 ∧ s.planeMask.getLsbD 0 = true then 1 else 0
  let base := s.i.toNat + j * rows * bpr
  ∃ r c, r < rows ∧ c < 8 * bpr ∧ (s.byteAt (base + r * bpr + c / 8)).getLsbD (7 - c % 8) = true ∧
    (if s.config.quirks.spriteWraps
      then px = ((s.reg x).toNat % w + c) % w ∧ py = ((s.reg y).toNat % h + r) % h
      else px = (s.reg x).toNat % w + c ∧ py = (s.reg y).toNat % h + r ∧ px < w ∧ py < h)

/-- R181: the number of bytes of sprite data. -/
def SpriteBytes (s : State) (n : Nibble) : Nat :=
  let big : Bool := n == 0 && s.config.quirks.isa != .chip8
  (if big then 16 else n.toNat) * (if big then 2 else 1) *
    ((if s.planeMask.getLsbD 0 then 1 else 0) + (if s.planeMask.getLsbD 1 then 1 else 0))

/-- R190: `t` has the planes of `s` after `ScrollWindow(dx, dy)`, pixel by pixel. -/
def Scrolled (dx dy : Int) (s t : State) : Prop :=
  let w : Nat := if s.hires then 128 else 64
  let h : Nat := if s.hires then 64 else 32
  (∀ p : Fin 2, s.planeMask.getLsbD p.val = false → t.planes[p] = s.planes[p]) ∧
  ∀ p : Fin 2, s.planeMask.getLsbD p.val = true → ∀ x y : Nat, x < 128 → y < 64 →
    (¬(x < w ∧ y < h) → Plane.pixel t.planes[p] x y = Plane.pixel s.planes[p] x y) ∧
    (x < w → y < h → s.config.quirks.scrollWraps = true →
      Plane.pixel t.planes[p] x y = Plane.pixel s.planes[p] ((x - dx) % w).toNat ((y - dy) % h).toNat) ∧
    (x < w → y < h → s.config.quirks.scrollWraps = false →
      ∀ sx sy : Nat, (sx : Int) = x - dx → (sy : Int) = y - dy → sx < w → sy < h →
        Plane.pixel t.planes[p] x y = Plane.pixel s.planes[p] sx sy) ∧
    (x < w → y < h → s.config.quirks.scrollWraps = false →
      ¬(0 ≤ x - dx ∧ x - dx < w ∧ 0 ≤ y - dy ∧ y - dy < h) → Plane.pixel t.planes[p] x y = false)

/-! ## Decoding -/

/-- A one-word instruction: from level `need` on the word decodes to `i` and nothing of what follows is used; below `need` it is
Unknown (R84). -/
def DecodesTo (w : Word) (need : Isa) (i : Instr) : Prop :=
  ∀ isa rest, decode isa (hiByte w :: loByte w :: rest) = if isa.atLeast need then .instr i rest else .unknown w

/-- The next state of an outcome, for tests and claims about one outcome. -/
def nextOf : Result → Option State
  | .next t => some t
  | .fault _ => none
  | .refused _ => none

/-- The fault of an outcome. -/
def faultOf : Result → Option Fault
  | .next _ => none
  | .fault f => some f
  | .refused _ => none

end Sys2Proof.Machine
end

