-- ==== Sys2Proof/Certificates/Slice0/Obligations.lean ====
section
/-! DEFINITION. The statements for the provers. Each docstring names the rule of spec/ that the statement formalises. -/

open Sys2Proof Sys2Proof.Machine

/-! ## Encoding -/

/-- 30_encoding.md, sections 1 and 2: decoding the bytes of an instruction, at any level that has it and with anything behind
it, gives the instruction with every operand, and what was behind it. -/
def Obligations.DecodeEncodeRoundTrip : Prop :=
  ∀ (isa : Isa) (i : Instr) (rest : List Byte), i.wf isa = true → decode isa (encode i ++ rest) = .instr i rest

/-- 30_encoding.md, sections 1 and 2: whatever the decoder accepts is legal at the level and is the encoding of what it
answers; no two instructions share an encoding, and no bit is ignored. -/
def Obligations.DecodedBytesAreTheEncoding : Prop :=
  ∀ (isa : Isa) (bs : List Byte) (i : Instr) (rest : List Byte),
    decode isa bs = .instr i rest → i.wf isa = true ∧ bs = encode i ++ rest

/-- 30_encoding.md, section 2, with the mask, match and min isa columns of R85: at most one row fits a word; the decoder answers
Unknown exactly when no row of the level fits; and when a row of the level fits (with the operand word there for `F000`) it answers
that row's instruction, whose own first word is the word read. The first clause is the sentence "the rows are pairwise disjoint,
so at most one matches" of R84, which the spec marks as its own inference ("derived: by inspection of the table"). -/
def Obligations.DecoderFollowsOpcodeTable : Prop :=
  (∀ (w : Word) (j k : Nat) (hj : j < opcodeRows.length) (hk : k < opcodeRows.length),
    opcodeRows[j].fits w = true → opcodeRows[k].fits w = true → j = k) ∧
  (∀ (isa : Isa) (w : Word) (rest : List Byte),
    decode isa (hiByte w :: loByte w :: rest) = .unknown w ↔
      ∀ r ∈ opcodeRows, r.fits w = true → isa.atLeast r.minIsa = false) ∧
  ∀ (isa : Isa) (w : Word) (rest : List Byte) (r : OpcodeRow), r ∈ opcodeRows → r.fits w = true →
    isa.atLeast r.minIsa = true → (w = 0xF000 → 2 ≤ rest.length) →
    ∃ i more, decode isa (hiByte w :: loByte w :: rest) = .instr i more ∧ i.minIsa = r.minIsa ∧ firstWord i = w

/-- R86: the Unknown words at `isa = XOChip` are exactly those of its table, family by family; `SuperChip` adds `00DN`, `5XY2`,
`5XY3`, `F000`, `FN01`, `F002`, `FX3A`; `Chip8` adds further `00CN`, `00FB..00FF`, `FX30`, `FX75`, `FX85`. -/
def Obligations.UnknownWordsAreThoseListed : Prop :=
  let listedXo : Word → Prop := fun w =>
    (fieldOp w = 0x0 ∧ ¬(0x00C0#16 ≤ w ∧ w ≤ 0x00CF#16) ∧ ¬(0x00D0#16 ≤ w ∧ w ≤ 0x00DF#16) ∧ w ≠ 0x00E0 ∧ w ≠ 0x00EE ∧
      ¬(0x00FB#16 ≤ w ∧ w ≤ 0x00FF#16)) ∨
    (fieldOp w = 0x5 ∧ fieldN w ∉ [0x0#4, 0x2#4, 0x3#4]) ∨
    (fieldOp w = 0x8 ∧ fieldN w ∈ [0x8#4, 0x9#4, 0xA#4, 0xB#4, 0xC#4, 0xD#4, 0xF#4]) ∨
    (fieldOp w = 0x9 ∧ fieldN w ≠ 0x0) ∨
    (fieldOp w = 0xE ∧ fieldNN w ∉ [0x9E#8, 0xA1#8]) ∨
    (fieldOp w = 0xF ∧ fieldNN w ∉ [0x00#8, 0x01#8, 0x02#8, 0x07#8, 0x0A#8, 0x15#8, 0x18#8, 0x1E#8, 0x29#8, 0x30#8,
      0x33#8, 0x3A#8, 0x55#8, 0x65#8, 0x75#8, 0x85#8]) ∨
    (fieldOp w = 0xF ∧ (fieldNN w = 0x00 ∨ fieldNN w = 0x02) ∧ fieldX w ≠ 0x0) ∨
    (fieldOp w = 0xF ∧ fieldNN w = 0x01 ∧ 0x4#4 ≤ fieldX w)
  let addedBelowXo : Word → Prop := fun w =>
    (0x00D0#16 ≤ w ∧ w ≤ 0x00DF#16) ∨ (fieldOp w = 0x5 ∧ (fieldN w = 0x2 ∨ fieldN w = 0x3)) ∨ w = 0xF000 ∨
    (fieldOp w = 0xF ∧ fieldX w ≤ 0x3#4 ∧ fieldNN w = 0x01) ∨ w = 0xF002 ∨ (fieldOp w = 0xF ∧ fieldNN w = 0x3A)
  let addedAtChip8 : Word → Prop := fun w =>
    (0x00C0#16 ≤ w ∧ w ≤ 0x00CF#16) ∨ (0x00FB#16 ≤ w ∧ w ≤ 0x00FF#16) ∨
    (fieldOp w = 0xF ∧ (fieldNN w = 0x30 ∨ fieldNN w = 0x75 ∨ fieldNN w = 0x85))
  ∀ (w : Word) (rest : List Byte),
    (decode .xoChip (hiByte w :: loByte w :: rest) = .unknown w ↔ listedXo w) ∧
    (decode .superChip (hiByte w :: loByte w :: rest) = .unknown w ↔ listedXo w ∨ addedBelowXo w) ∧
    (decode .chip8 (hiByte w :: loByte w :: rest) = .unknown w ↔ listedXo w ∨ addedBelowXo w ∨ addedAtChip8 w)

/-- 30_encoding.md, sections 1 and 2: at least one written-out word of each of the sixteen families (the high nibble of the word,
R81) decodes to the instruction it stands for. -/
def Obligations.WrittenOutWordsDecode : Prop :=
  decode .superChip [0x00, 0xC7] = .instr (.scd 7) [] ∧
  decode .chip8 [0x00, 0xEE] = .instr .ret [] ∧
  decode .chip8 [0x1A, 0xBC] = .instr (.jp 0xABC) [] ∧
  decode .chip8 [0x26, 0xD8] = .instr (.call 0x6D8) [] ∧
  decode .chip8 [0x3A, 0x5C] = .instr (.seImm 10 0x5C) [] ∧
  decode .chip8 [0x45, 0xB1] = .instr (.sneImm 5 0xB1) [] ∧
  decode .xoChip [0x51, 0xE2] = .instr (.saveRange 1 14) [] ∧
  decode .chip8 [0x6E, 0x93] = .instr (.ldImm 14 0x93) [] ∧
  decode .chip8 [0x74, 0xF2] = .instr (.addImm 4 0xF2) [] ∧
  decode .chip8 [0x8D, 0x27] = .instr (.subnReg 13 2) [] ∧
  decode .chip8 [0x9C, 0x60] = .instr (.sneReg 12 6) [] ∧
  decode .chip8 [0xA7, 0x1E] = .instr (.ldI 0x71E) [] ∧
  decode .chip8 [0xB2, 0xA0] = .instr (.jpV0 0x2A0) [] ∧
  decode .chip8 [0xC8, 0x3D] = .instr (.rnd 8 0x3D) [] ∧
  decode .chip8 [0xD1, 0x25] = .instr (.drw 1 2 5) [] ∧
  decode .chip8 [0xE7, 0xA1] = .instr (.sknp 7) [] ∧
  decode .xoChip [0xF3, 0x01] = .instr (.plane 3) [] ∧
  decode .xoChip [0xF0, 0x00, 0x12, 0x34] = .instr (.ldILong 0x1234) [] ∧
  decode .chip8 [0xFB, 0x65] = .instr (.loadRegs 11) []

/-- R80, R87: the decoder uses 4 bytes when the word is `F000` (which it accepts at `isa = XOChip` alone) and 2 otherwise, and
the operand of the 4-byte form is the next word, high byte first. -/
def Obligations.LengthIsToldByTheFirstWord : Prop :=
  (∀ (isa : Isa) (hi lo : Byte) (more rest : List Byte) (i : Instr), decode isa (hi :: lo :: more) = .instr i rest →
    (if joinBytes hi lo = 0xF000 then
      isa = .xoChip ∧ ∃ a b, more = a :: b :: rest ∧ i = .ldILong (joinBytes a b)
    else more = rest)) ∧
  (∀ (isa : Isa) (a b : Byte) (rest : List Byte), decode isa (0xF0 :: 0x00 :: a :: b :: rest) =
    if isa = .xoChip then .instr (.ldILong (joinBytes a b)) rest else .unknown 0xF000)

/-! ## The step cycle -/

/-- 40_step_cycle.md, R100: in state Running with no stall, when the bytes at the program counter decode to `i`, the step is
`exec i` of the same state and nothing else. -/
def Obligations.StepRunsTheDecodedInstruction : Prop :=
  ∀ (s : State) (i : Instr), s.dwStall = false → s.waitReg = none → s.pc.toNat + i.size ≤ s.memSize →
    decode s.config.quirks.isa (s.bytesAt s.pc.toNat i.size) = .instr i [] → step s = exec i s

/-- R101: a stalled step changes nothing and answers Ok, also in a state that is waiting, and no command but TICK and the two
that start over ends the stall. -/
def Obligations.StalledStepChangesNothing : Prop :=
  ∀ s : State, s.dwStall = true →
    step s = .next s ∧ s.tick.dwStall = false ∧
    ∀ c : Command, c ≠ .tick → (∀ k, c ≠ .construct k) → (∀ bs, c ≠ .loadRom bs) → (s.command c).1.dwStall = true

/-- R209: the waiting step. The snapshot is taken, the least key with the event ends the wait and is written, and nothing else
changes; without an event the wait goes on. -/
def Obligations.WaitingStepSamplesTheKeys : Prop :=
  ∀ (s : State) (r : Reg), s.dwStall = false → s.waitReg = some r →
    let event : Fin 16 → Prop := fun k =>
      if s.config.quirks.keyWaitRelease then s.keysPrev[k] = true ∧ s.keys[k] = false
      else s.keysPrev[k] = false ∧ s.keys[k] = true
    ∃ t, step s = .next t ∧ t = { s with v := t.v, keysPrev := s.keys, waitReg := t.waitReg } ∧
      ((∀ k, ¬event k) → t.v = s.v ∧ t.waitReg = some r) ∧
      ∀ k, event k → (∀ j, j < k → ¬event j) →
        t.waitReg = none ∧ t.reg r = BitVec.ofNat 8 k.val ∧ SameRegsBut [r] s t

/-- R100, R103: a step is the stalled step, the waiting step, or the fetch of the two bytes at `PC`, high byte first, and what
the decoder makes of them; a fetch that needs a byte beyond memory faults with `max(PC, MEM_SIZE)`. -/
def Obligations.StepTakesOneOfFourPaths : Prop :=
  ∀ s : State,
    (s.dwStall = true → step s = .next s) ∧
    (∀ r, s.dwStall = false → s.waitReg = some r → step s = .next (s.waitingStep r)) ∧
    (s.dwStall = false → s.waitReg = none → s.memSize ≤ s.pc.toNat + 1 →
      step s = .fault (.outOfBoundsAccess (max s.pc.toNat s.memSize))) ∧
    (s.dwStall = false → s.waitReg = none → s.pc.toNat + 1 < s.memSize →
      ∃ rest : List Byte, s.fetchBytes = s.byteAt s.pc.toNat :: s.byteAt (s.pc.toNat + 1) :: rest ∧
        step s =
          match decode s.config.quirks.isa s.fetchBytes with
          | .instr i _ => exec i s
          | .unknown w => s.unknownStep w
          | .tooShort => .fault (.outOfBoundsAccess (max (s.pc.toNat + 2) s.memSize)))

/-- R106: the unknown-opcode step under both policies, with the one write that a fault keeps. -/
def Obligations.UnknownOpcodeStep : Prop :=
  ∀ (s : State) (w : Word) (rest : List Byte), s.dwStall = false → s.waitReg = none → s.pc.toNat + 1 < s.memSize →
    joinBytes (s.byteAt s.pc.toNat) (s.byteAt (s.pc.toNat + 1)) = w →
    decode s.config.quirks.isa (hiByte w :: loByte w :: rest) = .unknown w →
    (s.config.unknownPolicy = .halt →
      step s = .fault (.unknownOpcode w) ∧
      s.command .step = ({ s with lastUnknown := some w }, .fault (.unknownOpcode w))) ∧
    (s.config.unknownPolicy = .skip → step s = .next { s with lastUnknown := some w, pc := s.pc + 2 })

/-- R107: a STEP that faults has changed nothing but `LAST_UNKNOWN`, and that only for an unknown opcode. -/
def Obligations.FaultChangesOnlyLastUnknown : Prop :=
  ∀ (s : State) (f : Fault), (s.command .step).2 = .fault f →
    (s.command .step).1 = { s with lastUnknown := (s.command .step).1.lastUnknown } ∧
    ((∀ w, f ≠ .unknownOpcode w) → (s.command .step).1 = s)

/-- R108: after a fault, whatever STEP, TICK, SET_KEY, DISPLAY and AUDIO commands follow, the next STEP gives the same fault. -/
def Obligations.FaultRepeatsUntilReload : Prop :=
  ∀ (s : State) (f : Fault) (cs : List Command),
    (∀ c ∈ cs, (∀ k, c ≠ .construct k) ∧ ∀ bs, c ≠ .loadRom bs) →
    step s = .fault f → step (s.runCommands cs) = .fault f

/-- R111, R244: STEP is never refused and never answers InvalidRomLength; an out-of-bounds address is at least `MEM_SIZE` and at
most 0x10000. -/
def Obligations.StepResultsAreOfTheList : Prop :=
  ∀ s : State, (∀ r, step s ≠ .refused r) ∧ (∀ n, step s ≠ .fault (.invalidRomLength n)) ∧
    ∀ a, step s = .fault (.outOfBoundsAccess a) → s.memSize ≤ a ∧ a ≤ 0x10000

/-- R246: the stack faults come from their own instructions on their own conditions, and an unknown-opcode fault reports the
word at the program counter under the policy Halt. -/
def Obligations.StepFaultCauses : Prop :=
  ∀ s : State,
    (step s = .fault .stackOverflow → s.sp.toNat = s.config.stackDepth ∧ (s.byteAt s.pc.toNat).extractLsb' 4 4 = 0x2#4) ∧
    (step s = .fault .stackUnderflow →
      s.sp = 0 ∧ s.byteAt s.pc.toNat = 0x00 ∧ s.byteAt (s.pc.toNat + 1) = 0xEE) ∧
    (∀ w, step s = .fault (.unknownOpcode w) →
      s.config.unknownPolicy = .halt ∧ w = joinBytes (s.byteAt s.pc.toNat) (s.byteAt (s.pc.toNat + 1)))

/-- R270, its derived consequence: from a state in which the run has ended every STEP answers Ok and changes nothing. -/
def Obligations.EndedRunStaysEnded : Prop := ∀ s : State, s.hasEnded = true → step s = .next s

/-- R109: the six skips end at `npc + Skip()` when taken and at `npc` otherwise, and `Skip()` is 4 over the bytes `F0 00` at
`isa = XOChip`, else 2; the peek never faults. -/
def Obligations.TakenSkipWidth : Prop :=
  ∀ (s : State) (i : Instr) (taken : Bool),
    (∃ x nn, i = .seImm x nn ∧ taken = decide (s.reg x = nn)) ∨
    (∃ x nn, i = .sneImm x nn ∧ taken = decide (s.reg x ≠ nn)) ∨
    (∃ x y, i = .seReg x y ∧ taken = decide (s.reg x = s.reg y)) ∨
    (∃ x y, i = .sneReg x y ∧ taken = decide (s.reg x ≠ s.reg y)) ∨
    (∃ x, i = .skp x ∧ taken = s.keys[lowNibble (s.reg x)]) ∨
    (∃ x, i = .sknp x ∧ taken = !s.keys[lowNibble (s.reg x)]) →
    let npc : Word := s.pc + 2
    let width : Word :=
      if s.config.quirks.isa = .xoChip ∧ npc.toNat + 1 < s.memSize ∧ s.byteAt npc.toNat = 0xF0 ∧
        s.byteAt (npc.toNat + 1) = 0x00 then 4 else 2
    exec i s = .next { s with pc := if taken = true then npc + width else npc }

/-! ## Control transfer -/

/-- R120, R243. -/
def Obligations.ReturnPopsTheStack : Prop :=
  DecodesTo 0x00EE .chip8 .ret ∧ ∀ s : State,
    (s.sp = 0 → exec .ret s = .fault .stackUnderflow) ∧
    (s.sp ≠ 0 → ∃ t, exec .ret s = .next t ∧ t = { s with pc := t.pc, sp := s.sp - 1 } ∧
      ∀ a, s.stack[s.sp.toNat - 1]? = some a → t.pc = a)

/-- R122, R242. -/
def Obligations.CallPushesTheNextAddress : Prop :=
  ∀ (nnn : BitVec 12), DecodesTo (wordNNN 0x2 nnn) .chip8 (.call nnn) ∧ ∀ s : State,
    (s.sp.toNat = s.config.stackDepth → exec (.call nnn) s = .fault .stackOverflow) ∧
    (s.sp.toNat ≠ s.config.stackDepth → ∃ t, exec (.call nnn) s = .next t ∧
      t = { s with stack := t.stack, sp := s.sp + 1, pc := t.pc } ∧ t.pc.toNat = nnn.toNat ∧
      t.stack.length = s.stack.length ∧ (∀ k, k ≠ s.sp.toNat → t.stack[k]? = s.stack[k]?) ∧
      (s.sp.toNat < s.stack.length → t.stack[s.sp.toNat]? = some (s.pc + 2)))

/-- 41_control_flow.md, R120 with R122: a return right after a call comes back behind the call with the stack as deep as
before, in every state that meets the invariant and has room. -/
def Obligations.CallThenReturnComesBack : Prop :=
  ∀ (s : State) (nnn : BitVec 12), s.Inv → s.sp.toNat < s.config.stackDepth →
    ∃ t u, exec (.call nnn) s = .next t ∧ exec .ret t = .next u ∧ u.pc = s.pc + 2 ∧ u.sp = s.sp ∧
      ∀ k, k < s.sp.toNat → u.stack[k]? = s.stack[k]?

/-- R121, R123, R126. -/
def Obligations.JumpsAndExit : Prop :=
  (∀ nnn : BitVec 12, DecodesTo (wordNNN 0x1 nnn) .chip8 (.jp nnn) ∧ ∀ s : State,
    ∃ t, exec (.jp nnn) s = .next t ∧ OnlyPc s t ∧ t.pc.toNat = nnn.toNat) ∧
  (∀ nnn : BitVec 12, DecodesTo (wordNNN 0xB nnn) .chip8 (.jpV0 nnn) ∧ ∀ s : State,
    ∃ t, exec (.jpV0 nnn) s = .next t ∧ OnlyPc s t ∧
      t.pc.toNat = nnn.toNat +
        (s.reg (if s.config.quirks.jumpUsesVx then (nnn.extractLsb' 8 4).toFin else 0)).toNat) ∧
  DecodesTo 0x00FD .superChip .exit ∧ ∀ s : State, exec .exit s = .next s

/-- R124, R125, R127, R128. The width of a taken skip is `State.skipWidth`, which TakenSkipWidth spells out. -/
def Obligations.RegisterSkips : Prop :=
  (∀ (x : Reg) (nn : Byte), DecodesTo (wordXNN 0x3 (bitsOf x) nn) .chip8 (.seImm x nn) ∧ ∀ s : State,
    exec (.seImm x nn) s = .next { s with pc := s.pc + 2 + (if s.reg x = nn then s.skipWidth else 0) }) ∧
  (∀ (x : Reg) (nn : Byte), DecodesTo (wordXNN 0x4 (bitsOf x) nn) .chip8 (.sneImm x nn) ∧ ∀ s : State,
    exec (.sneImm x nn) s = .next { s with pc := s.pc + 2 + (if s.reg x ≠ nn then s.skipWidth else 0) }) ∧
  (∀ x y : Reg, DecodesTo (wordXYN 0x5 (bitsOf x) (bitsOf y) 0x0) .chip8 (.seReg x y) ∧ ∀ s : State,
    exec (.seReg x y) s = .next { s with pc := s.pc + 2 + (if s.reg x = s.reg y then s.skipWidth else 0) }) ∧
  (∀ x y : Reg, DecodesTo (wordXYN 0x9 (bitsOf x) (bitsOf y) 0x0) .chip8 (.sneReg x y) ∧ ∀ s : State,
    exec (.sneReg x y) s = .next { s with pc := s.pc + 2 + (if s.reg x ≠ s.reg y then s.skipWidth else 0) })

/-- R206, R207. -/
def Obligations.KeySkips : Prop :=
  (∀ x : Reg, DecodesTo (wordXNN 0xE (bitsOf x) 0x9E) .chip8 (.skp x) ∧ ∀ (s : State) (k : Fin 16),
    k.val = (s.reg x).toNat % 16 →
    exec (.skp x) s = .next { s with pc := s.pc + 2 + (if s.keys[k] = true then s.skipWidth else 0) }) ∧
  (∀ x : Reg, DecodesTo (wordXNN 0xE (bitsOf x) 0xA1) .chip8 (.sknp x) ∧ ∀ (s : State) (k : Fin 16),
    k.val = (s.reg x).toNat % 16 →
    exec (.sknp x) s = .next { s with pc := s.pc + 2 + (if s.keys[k] = false then s.skipWidth else 0) })

/-! ## Arithmetic and logic -/

/-- R140, R141, R142: no flag is written. -/
def Obligations.LoadsAndAddImmediate : Prop :=
  (∀ (x : Reg) (nn : Byte), DecodesTo (wordXNN 0x6 (bitsOf x) nn) .chip8 (.ldImm x nn) ∧ ∀ s : State,
    ∃ t, exec (.ldImm x nn) s = .next t ∧ OnlyRegsPc s t ∧ SameRegsBut [x] s t ∧ t.reg x = nn ∧ t.pc = s.pc + 2) ∧
  (∀ (x : Reg) (nn : Byte), DecodesTo (wordXNN 0x7 (bitsOf x) nn) .chip8 (.addImm x nn) ∧ ∀ s : State,
    ∃ t, exec (.addImm x nn) s = .next t ∧ OnlyRegsPc s t ∧ SameRegsBut [x] s t ∧
      (t.reg x).toNat = ((s.reg x).toNat + nn.toNat) % 256 ∧ t.pc = s.pc + 2) ∧
  (∀ x y : Reg, DecodesTo (wordXYN 0x8 (bitsOf x) (bitsOf y) 0x0) .chip8 (.ldReg x y) ∧ ∀ s : State,
    ∃ t, exec (.ldReg x y) s = .next t ∧ OnlyRegsPc s t ∧ SameRegsBut [x] s t ∧ t.reg x = s.reg y ∧ t.pc = s.pc + 2)

/-- R143, R144, R145: the reset of `VF` comes last, also over a result in `VF`. -/
def Obligations.LogicOperations : Prop :=
  ∀ x y : Reg,
    DecodesTo (wordXYN 0x8 (bitsOf x) (bitsOf y) 0x1) .chip8 (.orReg x y) ∧
    DecodesTo (wordXYN 0x8 (bitsOf x) (bitsOf y) 0x2) .chip8 (.andReg x y) ∧
    DecodesTo (wordXYN 0x8 (bitsOf x) (bitsOf y) 0x3) .chip8 (.xorReg x y) ∧
    ∀ (s : State) (i : Instr) (b : Byte),
      (i = .orReg x y ∧ b = s.reg x ||| s.reg y) ∨ (i = .andReg x y ∧ b = s.reg x &&& s.reg y) ∨
        (i = .xorReg x y ∧ b = s.reg x ^^^ s.reg y) →
      ∃ t, exec i s = .next t ∧ OnlyRegsPc s t ∧ SameRegsBut [x, 15] s t ∧ t.pc = s.pc + 2 ∧
        (x ≠ 15 → t.reg x = b) ∧
        t.reg 15 = if s.config.quirks.vfResetOnLogic then 0 else if x = 15 then b else s.reg 15

/-- R146: the carry is written last. -/
def Obligations.AddWithCarryOut : Prop :=
  ∀ x y : Reg, DecodesTo (wordXYN 0x8 (bitsOf x) (bitsOf y) 0x4) .chip8 (.addReg x y) ∧ ∀ s : State,
    ∃ t, exec (.addReg x y) s = .next t ∧ OnlyRegsPc s t ∧ SameRegsBut [x, 15] s t ∧ t.pc = s.pc + 2 ∧
      (x ≠ 15 → (t.reg x).toNat = ((s.reg x).toNat + (s.reg y).toNat) % 256) ∧
      t.reg 15 = if (s.reg x).toNat + (s.reg y).toNat > 255 then 1 else 0

/-- R147, R149: `VF` is 1 exactly when no borrow occurs, and is written last. -/
def Obligations.SubtractWithNoBorrow : Prop :=
  ∀ x y : Reg,
    DecodesTo (wordXYN 0x8 (bitsOf x) (bitsOf y) 0x5) .chip8 (.subReg x y) ∧
    DecodesTo (wordXYN 0x8 (bitsOf x) (bitsOf y) 0x7) .chip8 (.subnReg x y) ∧
    ∀ (s : State) (i : Instr) (a b : Byte),
      (i = .subReg x y ∧ a = s.reg x ∧ b = s.reg y) ∨ (i = .subnReg x y ∧ a = s.reg y ∧ b = s.reg x) →
      ∃ t, exec i s = .next t ∧ OnlyRegsPc s t ∧ SameRegsBut [x, 15] s t ∧ t.pc = s.pc + 2 ∧
        (x ≠ 15 → ((t.reg x).toNat : Int) = ((a.toNat : Int) - b.toNat) % 256) ∧
        t.reg 15 = if a.toNat ≥ b.toNat then 1 else 0

/-- R148, R150: the source by the quirk, the shifted-out bit written last. -/
def Obligations.ShiftsByOne : Prop :=
  ∀ x y : Reg,
    DecodesTo (wordXYN 0x8 (bitsOf x) (bitsOf y) 0x6) .chip8 (.shr x y) ∧
    DecodesTo (wordXYN 0x8 (bitsOf x) (bitsOf y) 0xE) .chip8 (.shl x y) ∧
    ∀ (s : State),
      let a : Byte := if s.config.quirks.shiftUsesVy then s.reg y else s.reg x
      (∃ t, exec (.shr x y) s = .next t ∧ OnlyRegsPc s t ∧ SameRegsBut [x, 15] s t ∧ t.pc = s.pc + 2 ∧
        (x ≠ 15 → (t.reg x).toNat = a.toNat / 2) ∧ (t.reg 15).toNat = a.toNat % 2) ∧
      (∃ t, exec (.shl x y) s = .next t ∧ OnlyRegsPc s t ∧ SameRegsBut [x, 15] s t ∧ t.pc = s.pc + 2 ∧
        (x ≠ 15 → (t.reg x).toNat = 2 * a.toNat % 256) ∧ (t.reg 15).toNat = a.toNat / 128)

/-- R151: one call of the open `rng_next`, whatever it is; the byte under the mask. -/
def Obligations.RandomByteUnderMask : Prop :=
  ∀ (x : Reg) (nn : Byte), DecodesTo (wordXNN 0xC (bitsOf x) nn) .chip8 (.rnd x nn) ∧ ∀ s : State,
    ∃ t, exec (.rnd x nn) s = .next t ∧ t = { s with v := t.v, rng := (Config.rngNext s.rng).1, pc := s.pc + 2 } ∧
      SameRegsBut [x] s t ∧ t.reg x = (Config.rngNext s.rng).2 &&& nn

/-! ## Index register and memory -/

/-- R160, R161: the index wraps and `VF` is never written. -/
def Obligations.IndexLoadAndAdd : Prop :=
  (∀ nnn : BitVec 12, DecodesTo (wordNNN 0xA nnn) .chip8 (.ldI nnn) ∧ ∀ s : State,
    ∃ t, exec (.ldI nnn) s = .next t ∧ OnlyIndexPc s t ∧ t.i.toNat = nnn.toNat ∧ t.pc = s.pc + 2) ∧
  (∀ x : Reg, DecodesTo (wordXNN 0xF (bitsOf x) 0x1E) .chip8 (.addIVx x) ∧ ∀ s : State,
    ∃ t, exec (.addIVx x) s = .next t ∧ OnlyIndexPc s t ∧ t.i.toNat = (s.i.toNat + (s.reg x).toNat) % 65536 ∧
      t.pc = s.pc + 2)

/-- R163, R164: glyph pointers by the low nibble; the sums stay below 2^16 in every legal configuration. -/
def Obligations.FontPointers : Prop :=
  (∀ x : Reg, DecodesTo (wordXNN 0xF (bitsOf x) 0x29) .chip8 (.ldFVx x) ∧ ∀ s : State, s.config.legal = true →
    ∃ t, exec (.ldFVx x) s = .next t ∧ OnlyIndexPc s t ∧ t.pc = s.pc + 2 ∧
      t.i.toNat = s.config.fontSmallBase.toNat + 5 * ((s.reg x).toNat % 16)) ∧
  (∀ x : Reg, DecodesTo (wordXNN 0xF (bitsOf x) 0x30) .superChip (.ldHfVx x) ∧ ∀ s : State, s.config.legal = true →
    ∃ t, exec (.ldHfVx x) s = .next t ∧ OnlyIndexPc s t ∧ t.pc = s.pc + 2 ∧
      t.i.toNat = s.config.fontBigBase.toNat + 10 * ((s.reg x).toNat % 16))

/-- R167: three decimal digits, or the fault with nothing written. -/
def Obligations.DecimalDigitsStored : Prop :=
  ∀ x : Reg, DecodesTo (wordXNN 0xF (bitsOf x) 0x33) .chip8 (.ldBVx x) ∧ ∀ s : State,
    (s.memSize ≤ s.i.toNat + 2 → exec (.ldBVx x) s = .fault (.outOfBoundsAccess (max s.i.toNat s.memSize))) ∧
    (s.i.toNat + 2 < s.memSize → ∃ t, exec (.ldBVx x) s = .next t ∧ t = { s with mem := t.mem, pc := s.pc + 2 } ∧
      (t.byteAt s.i.toNat).toNat = (s.reg x).toNat / 100 ∧
      (t.byteAt (s.i.toNat + 1)).toNat = (s.reg x).toNat / 10 % 10 ∧
      (t.byteAt (s.i.toNat + 2)).toNat = (s.reg x).toNat % 10 ∧
      SameMemoryBut s.i.toNat 3 s t)

/-- R165. -/
def Obligations.StoreRegistersUpToX : Prop :=
  ∀ x : Reg, DecodesTo (wordXNN 0xF (bitsOf x) 0x55) .chip8 (.storeRegs x) ∧ ∀ s : State,
    (s.memSize ≤ s.i.toNat + x.val →
      exec (.storeRegs x) s = .fault (.outOfBoundsAccess (max s.i.toNat s.memSize))) ∧
    (s.i.toNat + x.val < s.memSize → ∃ t, exec (.storeRegs x) s = .next t ∧ OnlyMemIndexPc s t ∧ t.pc = s.pc + 2 ∧
      (∀ k : Reg, k ≤ x → t.byteAt (s.i.toNat + k.val) = s.reg k) ∧
      SameMemoryBut s.i.toNat (x.val + 1) s t ∧
      t.i.toNat = if s.config.quirks.loadStoreIncrementsIndex then (s.i.toNat + x.val + 1) % 65536 else s.i.toNat)

/-- R166. -/
def Obligations.LoadRegistersUpToX : Prop :=
  ∀ x : Reg, DecodesTo (wordXNN 0xF (bitsOf x) 0x65) .chip8 (.loadRegs x) ∧ ∀ s : State,
    (s.memSize ≤ s.i.toNat + x.val →
      exec (.loadRegs x) s = .fault (.outOfBoundsAccess (max s.i.toNat s.memSize))) ∧
    (s.i.toNat + x.val < s.memSize → ∃ t, exec (.loadRegs x) s = .next t ∧ OnlyRegsIndexPc s t ∧ t.pc = s.pc + 2 ∧
      (∀ k : Reg, k ≤ x → t.reg k = s.byteAt (s.i.toNat + k.val)) ∧
      (∀ k : Reg, x < k → t.reg k = s.reg k) ∧
      t.i.toNat = if s.config.quirks.loadStoreIncrementsIndex then (s.i.toNat + x.val + 1) % 65536 else s.i.toNat)

/-- R168, with the fetch: the step reads the operand word behind the opcode, high byte first, and moves by 4; an operand beyond
memory faults. The meaning alone does the same with the operand the decoder cut. -/
def Obligations.LongIndexLoad : Prop :=
  (∀ s : State, s.dwStall = false → s.waitReg = none → s.config.quirks.isa = .xoChip →
    s.pc.toNat + 1 < s.memSize → s.byteAt s.pc.toNat = 0xF0 → s.byteAt (s.pc.toNat + 1) = 0x00 →
    (s.pc.toNat + 3 < s.memSize → step s =
      .next { s with i := joinBytes (s.byteAt (s.pc.toNat + 2)) (s.byteAt (s.pc.toNat + 3)), pc := s.pc + 4 }) ∧
    (s.memSize ≤ s.pc.toNat + 3 → step s = .fault (.outOfBoundsAccess (max (s.pc.toNat + 2) s.memSize)))) ∧
  ∀ (s : State) (nnnn : Word),
    (s.pc.toNat + 3 < s.memSize → exec (.ldILong nnnn) s = .next { s with i := nnnn, pc := s.pc + 4 }) ∧
    (s.memSize ≤ s.pc.toNat + 3 →
      exec (.ldILong nnnn) s = .fault (.outOfBoundsAccess (max (s.pc.toNat + 2) s.memSize)))

/-- R169: `MEM[I + k]` gets the `k`-th register from `X` towards `Y`, in either direction; `I` is never changed. -/
def Obligations.SaveRegisterRange : Prop :=
  ∀ x y : Reg, DecodesTo (wordXYN 0x5 (bitsOf x) (bitsOf y) 0x2) .xoChip (.saveRange x y) ∧ ∀ s : State,
    let n := (x.val - y.val) + (y.val - x.val)
    (s.memSize ≤ s.i.toNat + n →
      exec (.saveRange x y) s = .fault (.outOfBoundsAccess (max s.i.toNat s.memSize))) ∧
    (s.i.toNat + n < s.memSize → ∃ t, exec (.saveRange x y) s = .next t ∧
      t = { s with mem := t.mem, pc := s.pc + 2 } ∧
      (∀ r : Reg, x ≤ r → r ≤ y → t.byteAt (s.i.toNat + (r.val - x.val)) = s.reg r) ∧
      (∀ r : Reg, y ≤ r → r ≤ x → t.byteAt (s.i.toNat + (x.val - r.val)) = s.reg r) ∧
      SameMemoryBut s.i.toNat (n + 1) s t)

/-- R170: the `k`-th register from `X` towards `Y` gets `MEM[I + k]`; `I` is never changed. -/
def Obligations.LoadRegisterRange : Prop :=
  ∀ x y : Reg, DecodesTo (wordXYN 0x5 (bitsOf x) (bitsOf y) 0x3) .xoChip (.loadRange x y) ∧ ∀ s : State,
    let n := (x.val - y.val) + (y.val - x.val)
    (s.memSize ≤ s.i.toNat + n →
      exec (.loadRange x y) s = .fault (.outOfBoundsAccess (max s.i.toNat s.memSize))) ∧
    (s.i.toNat + n < s.memSize → ∃ t, exec (.loadRange x y) s = .next t ∧ OnlyRegsPc s t ∧ t.pc = s.pc + 2 ∧
      (∀ r : Reg, x ≤ r → r ≤ y → t.reg r = s.byteAt (s.i.toNat + (r.val - x.val))) ∧
      (∀ r : Reg, y ≤ r → r ≤ x → t.reg r = s.byteAt (s.i.toNat + (x.val - r.val))) ∧
      ∀ r : Reg, ¬(x ≤ r ∧ r ≤ y) → ¬(y ≤ r ∧ r ≤ x) → t.reg r = s.reg r)

/-- R171, R172. -/
def Obligations.FlagRegisterTransfers : Prop :=
  (∀ x : Reg, DecodesTo (wordXNN 0xF (bitsOf x) 0x75) .superChip (.storeFlags x) ∧ ∀ s : State,
    ∃ t, exec (.storeFlags x) s = .next t ∧ t = { s with flags := t.flags, pc := s.pc + 2 } ∧
      ∀ k : Reg, t.flags[k] = if k ≤ x then s.reg k else s.flags[k]) ∧
  (∀ x : Reg, DecodesTo (wordXNN 0xF (bitsOf x) 0x85) .superChip (.loadFlags x) ∧ ∀ s : State,
    ∃ t, exec (.loadFlags x) s = .next t ∧ OnlyRegsPc s t ∧ t.pc = s.pc + 2 ∧
      ∀ k : Reg, t.reg k = if k ≤ x then s.flags[k] else s.reg k)

/-! ## Display -/

/-- R180: the whole 128 x 64 buffer of each selected plane, and nothing of the others. -/
def Obligations.ClearSelectedPlanes : Prop :=
  DecodesTo 0x00E0 .chip8 .cls ∧ ∀ s : State, ∃ t, exec .cls s = .next t ∧ OnlyPlanesPc s t ∧ t.pc = s.pc + 2 ∧
    ∀ p : Fin 2, (s.planeMask.getLsbD p.val = false → t.planes[p] = s.planes[p]) ∧
      (s.planeMask.getLsbD p.val = true → ∀ x y, Plane.pixel t.planes[p] x y = false)

/-- R181: every pixel of a selected plane is flipped exactly when a set sprite bit lands on it, `VF` is 1 exactly when some
pixel went from on to off, the latch is set under the quirk, and a sprite that reaches beyond memory faults. -/
def Obligations.DrawFlipsSpritePixels : Prop :=
  ∀ (x y : Reg) (n : Nibble), DecodesTo (wordXYN 0xD (bitsOf x) (bitsOf y) n) .chip8 (.drw x y n) ∧ ∀ s : State,
    (SpriteBytes s n ≠ 0 → s.memSize < s.i.toNat + SpriteBytes s n →
      exec (.drw x y n) s = .fault (.outOfBoundsAccess (max s.i.toNat s.memSize))) ∧
    (SpriteBytes s n = 0 ∨ s.i.toNat + SpriteBytes s n ≤ s.memSize → ∃ t, exec (.drw x y n) s = .next t ∧
      t = { s with v := t.v, planes := t.planes, dwStall := s.dwStall || s.config.quirks.displayWait, pc := s.pc + 2 } ∧
      SameRegsBut [15] s t ∧
      (∀ p : Fin 2, s.planeMask.getLsbD p.val = false → t.planes[p] = s.planes[p]) ∧
      (∀ p : Fin 2, s.planeMask.getLsbD p.val = true → ∀ px py, px < 128 → py < 64 →
        (SpriteHits s x y n p px py → Plane.pixel t.planes[p] px py = !Plane.pixel s.planes[p] px py) ∧
        (¬SpriteHits s x y n p px py → Plane.pixel t.planes[p] px py = Plane.pixel s.planes[p] px py)) ∧
      (t.reg 15 = 0 ∨ t.reg 15 = 1) ∧
      (t.reg 15 = 1 ↔ ∃ (p : Fin 2) (px py : Nat), Plane.pixel s.planes[p] px py = true ∧
        Plane.pixel t.planes[p] px py = false))

/-- R183, R184. -/
def Obligations.ResolutionSwitchClears : Prop :=
  DecodesTo 0x00FE .superChip .low ∧ DecodesTo 0x00FF .superChip .high ∧ ∀ (s : State) (i : Instr) (b : Bool),
    (i = .low ∧ b = false) ∨ (i = .high ∧ b = true) →
    ∃ t, exec i s = .next t ∧ t = { s with hires := b, planes := t.planes, pc := s.pc + 2 } ∧
      ∀ (p : Fin 2) (x y : Nat), Plane.pixel t.planes[p] x y = false

/-- R185, R186, R187, R188 over R190: `VF` and the latch are not written. -/
def Obligations.ScrollsMoveTheWindow : Prop :=
  (∀ n : Nibble, DecodesTo (wordXYN 0x0 0x0 0xC n) .superChip (.scd n) ∧ ∀ s : State,
    ∃ t, exec (.scd n) s = .next t ∧ OnlyPlanesPc s t ∧ t.pc = s.pc + 2 ∧ Scrolled 0 n.toNat s t) ∧
  (∀ n : Nibble, DecodesTo (wordXYN 0x0 0x0 0xD n) .xoChip (.scu n) ∧ ∀ s : State,
    ∃ t, exec (.scu n) s = .next t ∧ OnlyPlanesPc s t ∧ t.pc = s.pc + 2 ∧ Scrolled 0 (-(n.toNat : Int)) s t) ∧
  (DecodesTo 0x00FB .superChip .scr ∧ ∀ s : State,
    ∃ t, exec .scr s = .next t ∧ OnlyPlanesPc s t ∧ t.pc = s.pc + 2 ∧ Scrolled 4 0 s t) ∧
  (DecodesTo 0x00FC .superChip .scl ∧ ∀ s : State,
    ∃ t, exec .scl s = .next t ∧ OnlyPlanesPc s t ∧ t.pc = s.pc + 2 ∧ Scrolled (-4) 0 s t)

/-- R189. -/
def Obligations.PlaneMaskSelected : Prop :=
  (∀ n : BitVec 2, DecodesTo (wordXNN 0xF (0#2 ++ n) 0x01) .xoChip (.plane n) ∧ ∀ s : State,
    exec (.plane n) s = .next { s with planeMask := n, pc := s.pc + 2 }) ∧
  ∀ (x : Nibble) (isa : Isa) (rest : List Byte), 0x4#4 ≤ x →
    decode isa (hiByte (wordXNN 0xF x 0x01) :: loByte (wordXNN 0xF x 0x01) :: rest) = .unknown (wordXNN 0xF x 0x01)

/-! ## Timers, audio, keys -/

/-- R200, R201, R202: the pseudocode of the three transfers between `V[X]` and the timers. -/
def Obligations.TimerTransfers : Prop :=
  ∀ x : Reg,
    (DecodesTo (wordXNN 0xF (bitsOf x) 0x07) .chip8 (.ldVxDt x) ∧ ∀ s : State,
      ∃ t, exec (.ldVxDt x) s = .next t ∧ OnlyRegsPc s t ∧ SameRegsBut [x] s t ∧ t.reg x = s.dt ∧ t.pc = s.pc + 2) ∧
    (DecodesTo (wordXNN 0xF (bitsOf x) 0x15) .chip8 (.ldDtVx x) ∧ ∀ s : State,
      exec (.ldDtVx x) s = .next { s with dt := s.reg x, pc := s.pc + 2 }) ∧
    (DecodesTo (wordXNN 0xF (bitsOf x) 0x18) .chip8 (.ldStVx x) ∧ ∀ s : State,
      exec (.ldStVx x) s = .next { s with st := s.reg x, pc := s.pc + 2 })

/-- R204, R205. -/
def Obligations.AudioPatternAndPitch : Prop :=
  (DecodesTo 0xF002 .xoChip .audio ∧ ∀ s : State,
    (s.memSize ≤ s.i.toNat + 15 → exec .audio s = .fault (.outOfBoundsAccess (max s.i.toNat s.memSize))) ∧
    (s.i.toNat + 15 < s.memSize → ∃ t, exec .audio s = .next t ∧
      t = { s with pattern := t.pattern, pc := s.pc + 2 } ∧
      ∀ k : Fin 16, t.pattern[k] = s.byteAt (s.i.toNat + k.val))) ∧
  (∀ x : Reg, DecodesTo (wordXNN 0xF (bitsOf x) 0x3A) .xoChip (.pitch x) ∧ ∀ s : State,
    exec (.pitch x) s = .next { s with pitch := s.reg x, pc := s.pc + 2 })

/-- R208: the step only enters the wait and takes the snapshot. -/
def Obligations.KeyWaitIsEntered : Prop :=
  ∀ x : Reg, DecodesTo (wordXNN 0xF (bitsOf x) 0x0A) .chip8 (.ldVxK x) ∧ ∀ s : State,
    exec (.ldVxK x) s = .next { s with waitReg := some x, keysPrev := s.keys, pc := s.pc + 2 }

/-! ## Host commands, reset, load -/

/-- R221. -/
def Obligations.TickCountsDownToZero : Prop :=
  ∀ s : State, s.command .tick = (s.tick, .ok) ∧
    s.tick = { s with dt := s.tick.dt, st := s.tick.st, dwStall := false } ∧
    s.tick.dt.toNat = s.dt.toNat - 1 ∧ s.tick.st.toNat = s.st.toNat - 1

/-- R222, R223, R224: SET_KEY writes one key; the two readers change nothing, and a pixel's customary colour is
`PLANE[0] + 2 * PLANE[1]`. -/
def Obligations.KeyLatchAndReaders : Prop :=
  (∀ (s : State) (k : Fin 16) (b : Bool), ∃ t, s.command (.setKey k b) = (t, .ok) ∧ t = { s with keys := t.keys } ∧
    t.keys[k] = b ∧ ∀ j : Fin 16, j ≠ k → t.keys[j] = s.keys[j]) ∧
  (∀ s : State, s.command .display = (s, .display ⟨s.planes, s.hires⟩) ∧
    ∀ x y, s.display.colour x y =
      (if Plane.pixel s.planes[0] x y then 1 else 0) + 2 * (if Plane.pixel s.planes[1] x y then 1 else 0)) ∧
  ∀ s : State, s.command .audio = (s, .audio ⟨decide (s.st.toNat > 0), s.pattern, s.pitch⟩)

/-- 46_host_commands.md R226, its consequences: a TICK ends the stall; under weak fairness of TICK every stall ends; a key wait
that has no event pending lasts as long as no key is set and the host does not start over, so some history in which the host keeps
ticking and stepping never ends it. -/
def Obligations.StallsEndKeyWaitsNeedNot : Prop :=
  (∀ (h : History) (s : State), (∀ n, h n = .tick → (h.state s (n + 1)).dwStall = false) ∧
    (h.FairTick → ∀ n, ∃ m, n ≤ m ∧ (h.state s m).dwStall = false)) ∧
  ∀ (s : State) (r : Reg), s.waitReg = some r → s.keysPrev = s.keys →
    (∀ h : History,
      (∀ n, (∀ k p, h n ≠ .setKey k p) ∧ (∀ c, h n ≠ .construct c) ∧ ∀ bs, h n ≠ .loadRom bs) →
      ∀ n, (h.state s n).waitReg = some r) ∧
    ∃ h : History, h.FairTick ∧ h.FairStep ∧ ∀ n, (h.state s n).waitReg = some r

/-- 46_host_commands.md R226, its consequences: under weak fairness of TICK, `DT` runs down to 0 and stays there if no STEP runs
`FX15`; and a loop on `DT` (the form is log entry 4's) ends, with `DT` and `VX` at 0, if the host also keeps stepping and does not start
over. -/
def Obligations.DelayTimerLoopsEnd : Prop :=
  (∀ (h : History) (s : State), h.FairTick → (∀ n x, h n = .step → ¬(h.state s n).Runs (.ldDtVx x)) →
    ∃ n, ∀ m, n ≤ m → (h.state s m).dt = 0) ∧
  ∀ (h : History) (s : State) (x : Reg), h.FairTick → h.FairStep →
    (∀ n, (∀ c, h n ≠ .construct c) ∧ ∀ bs, h n ≠ .loadRom bs) → s.AtDtLoop x →
    ∃ n, (h.state s n).pc = s.pc + 6 ∧ (h.state s n).dt = 0 ∧ (h.state s n).reg x = 0

/-- R263: an image that does not fit is rejected and changes nothing; an accepted one gives the state of CONSTRUCT with the
same configuration (ResetValues spells it out) but for `KEYS`, `RNG` and memory, in which the image lies over the reset contents;
from two states that agree in configuration, `RNG` and `KEYS` it gives the same state. -/
def Obligations.LoadRomForgetsTheRun : Prop :=
  ∀ (s : State) (bs : List Byte),
    (bs.length > s.memSize - 0x200 → s.command (.loadRom bs) = (s, .fault (.invalidRomLength bs.length))) ∧
    (bs.length ≤ s.memSize - 0x200 → ∃ t, s.command (.loadRom bs) = (t, .ok) ∧
      t = { State.construct s.config with mem := t.mem, keys := s.keys, rng := s.rng } ∧
      (∀ a, t.byteAt a =
        if 0x200 ≤ a ∧ a < 0x200 + bs.length then bs.getD (a - 0x200) 0 else (State.construct s.config).byteAt a) ∧
      ∀ u : State, u.config = s.config → u.rng = s.rng → u.keys = s.keys → u.command (.loadRom bs) = (t, .ok))

/-- 70_reset_and_hazards.md, section 1, both columns of the table: the values after CONSTRUCT and after an accepted LOAD_ROM, memory included. The values the
source does not give are the spec's own choice D11, D14. R260 speaks of configurations within the ranges of R5; that the same
holds of the others is the model's choice (log entry 14). -/
def Obligations.ResetValues : Prop :=
  let common : State → Prop := fun s =>
    (∀ r, s.reg r = 0) ∧ s.i = 0 ∧ s.pc = 0x0200 ∧ s.sp = 0 ∧ s.stack.length = s.config.stackDepth ∧
    (∀ a ∈ s.stack, a = 0) ∧ s.dt = 0 ∧ s.st = 0 ∧ (∀ (p : Fin 2) (x y : Nat), Plane.pixel s.planes[p] x y = false) ∧
    s.hires = false ∧ s.planeMask = 0b01 ∧ (∀ k : Fin 16, s.pattern[k] = 0) ∧ s.pitch = 64 ∧
    (∀ k : Fin 16, s.keysPrev[k] = false) ∧ s.waitReg = none ∧ s.dwStall = false ∧ (∀ k : Fin 16, s.flags[k] = 0) ∧
    s.lastUnknown = none
  let fonts : Config → Nat → Byte := fun c a =>
    if c.fontBigBase.toNat ≤ a ∧ a < c.fontBigBase.toNat + 160 then c.fontBig[a - c.fontBigBase.toNat]?.getD 0
    else if c.fontSmallBase.toNat ≤ a ∧ a < c.fontSmallBase.toNat + 80 then c.fontSmall[a - c.fontSmallBase.toNat]?.getD 0
    else 0
  (∀ c : Config, common (State.construct c) ∧ (∀ k : Fin 16, (State.construct c).keys[k] = false) ∧
    (State.construct c).rng = Config.rngInit c.seed ∧ (State.construct c).config = c ∧
    ∀ a, (State.construct c).byteAt a = fonts c a) ∧
  ∀ (s t : State) (bs : List Byte), s.loadRom bs = .next t →
    common t ∧ t.keys = s.keys ∧ t.rng = s.rng ∧ t.config = s.config ∧
    ∀ a, t.byteAt a = if 0x200 ≤ a ∧ a < 0x200 + bs.length then bs.getD (a - 0x200) 0 else fonts s.config a

/-- R61: the address map after CONSTRUCT and LOAD_ROM, for the default font addresses and any font tables. -/
def Obligations.AddressMapAfterLoad : Prop :=
  ∀ c : Config, c.fontSmallBase = 0x050 → c.fontBigBase = 0x0A0 →
    let map : Nat → Byte := fun a =>
      if a < 0x050 then 0 else if a < 0x0A0 then c.fontSmall[a - 0x050]?.getD 0
      else if a < 0x140 then c.fontBig[a - 0x0A0]?.getD 0 else 0
    (∀ a, (State.construct c).byteAt a = map a) ∧
    ∀ (s t : State) (bs : List Byte), s.config = c → s.loadRom bs = .next t →
      (∀ k, k < bs.length → t.byteAt (0x200 + k) = bs.getD k 0) ∧
      ∀ a, ¬(0x200 ≤ a ∧ a < 0x200 + bs.length) → t.byteAt a = map a

/-! ## Invariants -/

/-- 10_state.md, section 4: the invariant holds after CONSTRUCT with any legal configuration, and at `State.reset`, whose
configuration is the model's choice (log entry 1). The canonical form of memory and the length of the stack list within
`State.Inv` are the model's own (log entries 13 and 7). -/
def Obligations.ConstructMeetsInvariant : Prop :=
  (∀ c : Config, c.legal = true → (State.construct c).Inv) ∧ State.reset.Inv

/-- 10_state.md, section 4: every STEP that answers a next state keeps the invariant (its parts that are the model's own: log
entries 13 and 7). -/
def Obligations.StepKeepsInvariant : Prop := ∀ s t : State, s.Inv → step s = .next t → t.Inv

/-- 10_state.md, section 4: whatever sequence of commands the host issues, from CONSTRUCT with a legal configuration on, the
invariant holds after it (its parts that are the model's own: log entries 13 and 7). -/
def Obligations.CommandsKeepInvariant : Prop :=
  ∀ (s : State) (cs : List Command), s.Inv → (∀ k, Command.construct k ∈ cs → k.legal = true) → (s.runCommands cs).Inv

/-- In canonical form a memory is what it reads as, so equal memories are equal data. The canonical form is the model's choice of
data (log entry 13): 20_memory.md section 1 gives the addresses and the bytes that the statement reads, and says nothing of any
such form. -/
def Obligations.CanonicalMemoryIsWhatItReads : Prop :=
  ∀ (c : Config) (m n : Memory), Memory.wf c m = true → Memory.wf c n = true →
    (∀ a, a < c.memSize.bytes → Memory.read c m a = Memory.read c n a) → m = n

/-! ## Frames -/

/-- 10_state.md R20, R21 and the pseudocode lines of files 41 to 45: no instruction writes a general register outside
`destRegs`. -/
def Obligations.FrameOfGeneralRegisters : Prop :=
  ∀ (i : Instr) (s t : State), exec i s = .next t → SameRegsBut (destRegs s.config.quirks i) s t

/-- 20_memory.md R65: an instruction stores `storeCount` bytes from the old `I` upward, all of them below `MEM_SIZE`, and every
other byte of memory reads as before. -/
def Obligations.FrameOfMemory : Prop :=
  ∀ (i : Instr) (s t : State), exec i s = .next t →
    SameMemoryBut s.i.toNat (storeCount i) s t ∧ (storeCount i ≠ 0 → s.i.toNat + storeCount i ≤ s.memSize)

/-- 10_state.md, sections 1 and 2: which instruction may write each special item; no instruction writes the key latch, the
configuration or the diagnostic register. -/
def Obligations.FrameOfSpecialState : Prop :=
  ∀ (i : Instr) (s t : State), exec i s = .next t →
    t.config = s.config ∧ t.keys = s.keys ∧ t.lastUnknown = s.lastUnknown ∧
    (writesIndex s.config.quirks i = false → t.i = s.i) ∧
    ((∀ nnn, i ≠ .call nnn) → i ≠ .ret → t.sp = s.sp) ∧
    ((∀ nnn, i ≠ .call nnn) → t.stack = s.stack) ∧
    ((∀ x, i ≠ .ldDtVx x) → t.dt = s.dt) ∧ ((∀ x, i ≠ .ldStVx x) → t.st = s.st) ∧
    (writesPlanes i = false → t.planes = s.planes) ∧
    (i ≠ .low → i ≠ .high → t.hires = s.hires) ∧ ((∀ n, i ≠ .plane n) → t.planeMask = s.planeMask) ∧
    ((∀ x y n, i ≠ .drw x y n) → t.dwStall = s.dwStall) ∧
    (i ≠ .audio → t.pattern = s.pattern) ∧ ((∀ x, i ≠ .pitch x) → t.pitch = s.pitch) ∧
    ((∀ x, i ≠ .ldVxK x) → t.waitReg = s.waitReg ∧ t.keysPrev = s.keysPrev) ∧
    ((∀ x nn, i ≠ .rnd x nn) → t.rng = s.rng) ∧ ((∀ x, i ≠ .storeFlags x) → t.flags = s.flags)
end

