-- ==== Sys2Proof/Laws/Memory.lean ====
section
/-! SUPPORT. The laws of memory: a read after a write, and the canonical form. -/

namespace Sys2Proof.Machine

/-! ## Lookup -/

theorem Memory.lookup_put (m : Memory) (a x : Nat) (b : Byte) :
    Memory.lookup (Memory.put m a b) x = if a = x then some b else Memory.lookup m x := by
  induction m with
  | nil => simp [Memory.put, Memory.lookup]
  | cons c m ih =>
    obtain ⟨k, d⟩ := c
    simp only [Memory.put]
    split
    · simp [Memory.lookup]
    · split
      · next h => subst h; simp only [Memory.lookup]; split <;> rfl
      · simp only [Memory.lookup, ih]; split
        · next h h1 h2 => subst h2; simp [h1]
        · rfl

/-- Below the first listed address nothing is listed. -/
theorem Memory.lookup_of_wfFrom_lt {c : Config} {m : Memory} {lo x : Nat} (h : Memory.wfFrom c lo m = true) (hx : x < lo) :
    Memory.lookup m x = none := by
  induction m generalizing lo with
  | nil => rfl
  | cons e m ih =>
    obtain ⟨k, d⟩ := e
    simp only [Memory.wfFrom, Bool.and_eq_true, decide_eq_true_eq] at h
    simp only [Memory.lookup]
    rw [if_neg (by omega)]
    exact ih h.2 (by omega)

theorem Memory.lookup_remove (m : Memory) (a x : Nat) :
    Memory.lookup (Memory.remove m a) x = if a = x then none else Memory.lookup m x := by
  induction m with
  | nil => simp [Memory.remove, Memory.lookup]
  | cons e m ih =>
    obtain ⟨k, d⟩ := e
    simp only [Memory.remove]
    split
    · next hk =>
      subst hk
      rw [ih]
      split
      · rfl
      · next hx => simp [Memory.lookup, hx]
    · next hk =>
      simp only [Memory.lookup, ih]
      split
      · next hx => subst hx; rw [if_neg (Ne.symm hk)]
      · rfl

/-- Every listed byte differs from the reset contents and lies in memory. -/
theorem Memory.lookup_some_of_wfFrom {c : Config} {m : Memory} {lo x : Nat} {b : Byte} (h : Memory.wfFrom c lo m = true)
    (hx : Memory.lookup m x = some b) : lo ≤ x ∧ x < c.memSize.bytes ∧ b ≠ initialByte c x := by
  induction m generalizing lo with
  | nil => simp [Memory.lookup] at hx
  | cons e m ih =>
    obtain ⟨k, d⟩ := e
    simp only [Memory.wfFrom, Bool.and_eq_true, decide_eq_true_eq, Bool.not_eq_true', beq_eq_false_iff_ne] at h
    simp only [Memory.lookup] at hx
    split at hx
    · next hk => subst hk; cases hx; exact ⟨h.1.1.1, h.1.1.2, h.1.2⟩
    · have := ih h.2 hx
      exact ⟨by omega, this.2⟩

/-! ## Read after write -/

theorem Memory.read_write (c : Config) (m : Memory) (a x : Nat) (b : Byte) :
    Memory.read c (Memory.write c m a b) x = if a = x then b else Memory.read c m x := by
  unfold Memory.read Memory.write
  split
  · next hb =>
    rw [Memory.lookup_remove]
    split
    · next hx => subst hx; simp [hb]
    · rfl
  · rw [Memory.lookup_put]
    split <;> rfl

/-! ## The canonical form is kept -/

theorem Memory.wfFrom_mono {c : Config} {m : Memory} {lo lo' : Nat} (h : Memory.wfFrom c lo m = true) (hl : lo' ≤ lo) :
    Memory.wfFrom c lo' m = true := by
  cases m with
  | nil => rfl
  | cons e m =>
    obtain ⟨k, d⟩ := e
    simp only [Memory.wfFrom, Bool.and_eq_true, decide_eq_true_eq] at h ⊢
    exact ⟨⟨⟨by omega, h.1.1.2⟩, h.1.2⟩, h.2⟩

theorem Memory.wfFrom_remove {c : Config} {m : Memory} {lo : Nat} (h : Memory.wfFrom c lo m = true) (a : Nat) :
    Memory.wfFrom c lo (Memory.remove m a) = true := by
  induction m generalizing lo with
  | nil => rfl
  | cons e m ih =>
    obtain ⟨k, d⟩ := e
    simp only [Memory.wfFrom, Bool.and_eq_true, decide_eq_true_eq] at h
    simp only [Memory.remove]
    split
    · exact Memory.wfFrom_mono (ih h.2) (by omega)
    · simp only [Memory.wfFrom, Bool.and_eq_true, decide_eq_true_eq]
      exact ⟨h.1, ih h.2⟩

theorem Memory.wfFrom_put {c : Config} {m : Memory} {lo a : Nat} {b : Byte} (h : Memory.wfFrom c lo m = true) (hlo : lo ≤ a)
    (ha : a < c.memSize.bytes) (hb : b ≠ initialByte c a) : Memory.wfFrom c lo (Memory.put m a b) = true := by
  induction m generalizing lo with
  | nil => simp [Memory.put, Memory.wfFrom, hlo, ha, hb]
  | cons e m ih =>
    obtain ⟨k, d⟩ := e
    simp only [Memory.wfFrom, Bool.and_eq_true, decide_eq_true_eq] at h
    simp only [Memory.put]
    split
    · next hk =>
      simp only [Memory.wfFrom, Bool.and_eq_true, decide_eq_true_eq]
      exact ⟨⟨⟨hlo, ha⟩, by simpa using hb⟩, ⟨⟨by omega, h.1.1.2⟩, h.1.2⟩, h.2⟩
    · split
      · next hk =>
        subst hk
        simp only [Memory.wfFrom, Bool.and_eq_true, decide_eq_true_eq]
        exact ⟨⟨⟨hlo, ha⟩, by simpa using hb⟩, h.2⟩
      · simp only [Memory.wfFrom, Bool.and_eq_true, decide_eq_true_eq]
        exact ⟨h.1, ih h.2 (by omega)⟩

theorem Memory.wf_write {c : Config} {m : Memory} {a : Nat} {b : Byte} (h : Memory.wf c m = true)
    (ha : a < c.memSize.bytes) : Memory.wf c (Memory.write c m a b) = true := by
  unfold Memory.write
  split
  · exact Memory.wfFrom_remove h a
  · next hb => exact Memory.wfFrom_put h (Nat.zero_le a) ha hb

theorem Memory.wf_writeBytes {c : Config} {m : Memory} {a : Nat} {bs : List Byte} (h : Memory.wf c m = true)
    (ha : a + bs.length ≤ c.memSize.bytes) : Memory.wf c (Memory.writeBytes c m a bs) = true := by
  induction bs generalizing m a with
  | nil => exact h
  | cons b bs ih =>
    simp only [List.length_cons] at ha
    exact ih (Memory.wf_write h (by omega)) (by omega)

theorem Memory.wf_nil (c : Config) : Memory.wf c [] = true := rfl

theorem Memory.wfFrom_ofBytes {c : Config} {lo a : Nat} {bs : List Byte} (hlo : lo ≤ a)
    (ha : a + bs.length ≤ c.memSize.bytes) : Memory.wfFrom c lo (Memory.ofBytes c a bs) = true := by
  induction bs generalizing lo a with
  | nil => rfl
  | cons b bs ih =>
    simp only [List.length_cons] at ha
    simp only [Memory.ofBytes]
    split
    · exact ih (by omega) (by omega)
    · next hb =>
      simp only [Memory.wfFrom, Bool.and_eq_true, decide_eq_true_eq]
      exact ⟨⟨⟨hlo, by omega⟩, by simpa using hb⟩, ih (Nat.le_refl _) (by omega)⟩

/-- Everything a store of several bytes does to later reads. -/
theorem Memory.read_writeBytes (c : Config) (m : Memory) (a : Nat) (bs : List Byte) (x : Nat) :
    Memory.read c (Memory.writeBytes c m a bs) x
      = if a ≤ x ∧ x < a + bs.length then bs.getD (x - a) 0 else Memory.read c m x := by
  induction bs generalizing m a with
  | nil => simp [Memory.writeBytes]
  | cons b bs ih =>
    simp only [List.length_cons, Memory.writeBytes]
    rw [ih, Memory.read_write]
    by_cases h1 : a = x
    · subst h1; simp
    · rw [if_neg h1]
      by_cases h2 : a + 1 ≤ x ∧ x < a + 1 + bs.length
      · rw [if_pos h2, if_pos (by omega)]
        obtain ⟨k, hk⟩ : ∃ k, x - a = k + 1 := ⟨x - a - 1, by omega⟩
        rw [hk, show x - (a + 1) = k by omega]
        simp
      · rw [if_neg h2, if_neg (by omega)]

theorem Memory.lookup_ofBytes_lt {c : Config} {a x : Nat} {bs : List Byte} (h : x < a) :
    Memory.lookup (Memory.ofBytes c a bs) x = none := by
  induction bs generalizing a with
  | nil => rfl
  | cons b bs ih =>
    simp only [Memory.ofBytes]
    split
    · exact ih (by omega)
    · simp only [Memory.lookup]
      rw [if_neg (by omega)]
      exact ih (by omega)

/-- Reading a memory laid out from a list of bytes. -/
theorem Memory.read_ofBytes (c : Config) (a : Nat) (bs : List Byte) (x : Nat) :
    Memory.read c (Memory.ofBytes c a bs) x
      = if a ≤ x ∧ x < a + bs.length then bs.getD (x - a) 0 else initialByte c x := by
  induction bs generalizing a with
  | nil => simp [Memory.ofBytes, Memory.read, Memory.lookup]
  | cons b bs ih =>
    have hcons : Memory.read c (Memory.ofBytes c a (b :: bs)) x
        = if a = x then b else Memory.read c (Memory.ofBytes c (a + 1) bs) x := by
      simp only [Memory.ofBytes]
      split
      · next hb =>
        split
        · next hx =>
          subst hx
          simp [Memory.read, Memory.lookup_ofBytes_lt (Nat.lt_succ_self a), hb]
        · rfl
      · simp only [Memory.read, Memory.lookup]
        split <;> rfl
    rw [hcons, ih]
    simp only [List.length_cons]
    by_cases h1 : a = x
    · subst h1; simp
    · rw [if_neg h1]
      by_cases h2 : a + 1 ≤ x ∧ x < a + 1 + bs.length
      · rw [if_pos h2, if_pos (by omega)]
        obtain ⟨k, hk⟩ : ∃ k, x - a = k + 1 := ⟨x - a - 1, by omega⟩
        rw [hk, show x - (a + 1) = k by omega]
        simp
      · rw [if_neg h2, if_neg (by omega)]

end Sys2Proof.Machine
end

