-- ==== Sys2Proof/Laws/State.lean ====
section
/-! SUPPORT. One lemma per field per named update of the state, so that no later proof unfolds an update. -/

namespace Sys2Proof.Machine


/-! ## setReg -/

@[simp] theorem State.setReg_config (s : State) (x : Reg) (b : Byte) : (s.setReg x b).config = s.config := rfl
@[simp] theorem State.setReg_v (s : State) (x : Reg) (b : Byte) : (s.setReg x b).v = s.v.set x b := rfl
@[simp] theorem State.setReg_i (s : State) (x : Reg) (b : Byte) : (s.setReg x b).i = s.i := rfl
@[simp] theorem State.setReg_pc (s : State) (x : Reg) (b : Byte) : (s.setReg x b).pc = s.pc := rfl
@[simp] theorem State.setReg_sp (s : State) (x : Reg) (b : Byte) : (s.setReg x b).sp = s.sp := rfl
@[simp] theorem State.setReg_stack (s : State) (x : Reg) (b : Byte) : (s.setReg x b).stack = s.stack := rfl
@[simp] theorem State.setReg_mem (s : State) (x : Reg) (b : Byte) : (s.setReg x b).mem = s.mem := rfl
@[simp] theorem State.setReg_dt (s : State) (x : Reg) (b : Byte) : (s.setReg x b).dt = s.dt := rfl
@[simp] theorem State.setReg_st (s : State) (x : Reg) (b : Byte) : (s.setReg x b).st = s.st := rfl
@[simp] theorem State.setReg_planes (s : State) (x : Reg) (b : Byte) : (s.setReg x b).planes = s.planes := rfl
@[simp] theorem State.setReg_hires (s : State) (x : Reg) (b : Byte) : (s.setReg x b).hires = s.hires := rfl
@[simp] theorem State.setReg_planeMask (s : State) (x : Reg) (b : Byte) : (s.setReg x b).planeMask = s.planeMask := rfl
@[simp] theorem State.setReg_pattern (s : State) (x : Reg) (b : Byte) : (s.setReg x b).pattern = s.pattern := rfl
@[simp] theorem State.setReg_pitch (s : State) (x : Reg) (b : Byte) : (s.setReg x b).pitch = s.pitch := rfl
@[simp] theorem State.setReg_keys (s : State) (x : Reg) (b : Byte) : (s.setReg x b).keys = s.keys := rfl
@[simp] theorem State.setReg_keysPrev (s : State) (x : Reg) (b : Byte) : (s.setReg x b).keysPrev = s.keysPrev := rfl
@[simp] theorem State.setReg_waitReg (s : State) (x : Reg) (b : Byte) : (s.setReg x b).waitReg = s.waitReg := rfl
@[simp] theorem State.setReg_rng (s : State) (x : Reg) (b : Byte) : (s.setReg x b).rng = s.rng := rfl
@[simp] theorem State.setReg_flags (s : State) (x : Reg) (b : Byte) : (s.setReg x b).flags = s.flags := rfl
@[simp] theorem State.setReg_dwStall (s : State) (x : Reg) (b : Byte) : (s.setReg x b).dwStall = s.dwStall := rfl
@[simp] theorem State.setReg_lastUnknown (s : State) (x : Reg) (b : Byte) : (s.setReg x b).lastUnknown = s.lastUnknown := rfl

/-! ## setRegFlag -/

@[simp] theorem State.setRegFlag_config (s : State) (x : Reg) (b f : Byte) : (s.setRegFlag x b f).config = s.config := rfl
@[simp] theorem State.setRegFlag_v (s : State) (x : Reg) (b f : Byte) : (s.setRegFlag x b f).v = (s.v.set x b).set 15 f := rfl
@[simp] theorem State.setRegFlag_i (s : State) (x : Reg) (b f : Byte) : (s.setRegFlag x b f).i = s.i := rfl
@[simp] theorem State.setRegFlag_pc (s : State) (x : Reg) (b f : Byte) : (s.setRegFlag x b f).pc = s.pc := rfl
@[simp] theorem State.setRegFlag_sp (s : State) (x : Reg) (b f : Byte) : (s.setRegFlag x b f).sp = s.sp := rfl
@[simp] theorem State.setRegFlag_stack (s : State) (x : Reg) (b f : Byte) : (s.setRegFlag x b f).stack = s.stack := rfl
@[simp] theorem State.setRegFlag_mem (s : State) (x : Reg) (b f : Byte) : (s.setRegFlag x b f).mem = s.mem := rfl
@[simp] theorem State.setRegFlag_dt (s : State) (x : Reg) (b f : Byte) : (s.setRegFlag x b f).dt = s.dt := rfl
@[simp] theorem State.setRegFlag_st (s : State) (x : Reg) (b f : Byte) : (s.setRegFlag x b f).st = s.st := rfl
@[simp] theorem State.setRegFlag_planes (s : State) (x : Reg) (b f : Byte) : (s.setRegFlag x b f).planes = s.planes := rfl
@[simp] theorem State.setRegFlag_hires (s : State) (x : Reg) (b f : Byte) : (s.setRegFlag x b f).hires = s.hires := rfl
@[simp] theorem State.setRegFlag_planeMask (s : State) (x : Reg) (b f : Byte) : (s.setRegFlag x b f).planeMask = s.planeMask := rfl
@[simp] theorem State.setRegFlag_pattern (s : State) (x : Reg) (b f : Byte) : (s.setRegFlag x b f).pattern = s.pattern := rfl
@[simp] theorem State.setRegFlag_pitch (s : State) (x : Reg) (b f : Byte) : (s.setRegFlag x b f).pitch = s.pitch := rfl
@[simp] theorem State.setRegFlag_keys (s : State) (x : Reg) (b f : Byte) : (s.setRegFlag x b f).keys = s.keys := rfl
@[simp] theorem State.setRegFlag_keysPrev (s : State) (x : Reg) (b f : Byte) : (s.setRegFlag x b f).keysPrev = s.keysPrev := rfl
@[simp] theorem State.setRegFlag_waitReg (s : State) (x : Reg) (b f : Byte) : (s.setRegFlag x b f).waitReg = s.waitReg := rfl
@[simp] theorem State.setRegFlag_rng (s : State) (x : Reg) (b f : Byte) : (s.setRegFlag x b f).rng = s.rng := rfl
@[simp] theorem State.setRegFlag_flags (s : State) (x : Reg) (b f : Byte) : (s.setRegFlag x b f).flags = s.flags := rfl
@[simp] theorem State.setRegFlag_dwStall (s : State) (x : Reg) (b f : Byte) : (s.setRegFlag x b f).dwStall = s.dwStall := rfl
@[simp] theorem State.setRegFlag_lastUnknown (s : State) (x : Reg) (b f : Byte) : (s.setRegFlag x b f).lastUnknown = s.lastUnknown := rfl

/-! ## setIndex -/

@[simp] theorem State.setIndex_config (s : State) (w : Word) : (s.setIndex w).config = s.config := rfl
@[simp] theorem State.setIndex_v (s : State) (w : Word) : (s.setIndex w).v = s.v := rfl
@[simp] theorem State.setIndex_i (s : State) (w : Word) : (s.setIndex w).i = w := rfl
@[simp] theorem State.setIndex_pc (s : State) (w : Word) : (s.setIndex w).pc = s.pc := rfl
@[simp] theorem State.setIndex_sp (s : State) (w : Word) : (s.setIndex w).sp = s.sp := rfl
@[simp] theorem State.setIndex_stack (s : State) (w : Word) : (s.setIndex w).stack = s.stack := rfl
@[simp] theorem State.setIndex_mem (s : State) (w : Word) : (s.setIndex w).mem = s.mem := rfl
@[simp] theorem State.setIndex_dt (s : State) (w : Word) : (s.setIndex w).dt = s.dt := rfl
@[simp] theorem State.setIndex_st (s : State) (w : Word) : (s.setIndex w).st = s.st := rfl
@[simp] theorem State.setIndex_planes (s : State) (w : Word) : (s.setIndex w).planes = s.planes := rfl
@[simp] theorem State.setIndex_hires (s : State) (w : Word) : (s.setIndex w).hires = s.hires := rfl
@[simp] theorem State.setIndex_planeMask (s : State) (w : Word) : (s.setIndex w).planeMask = s.planeMask := rfl
@[simp] theorem State.setIndex_pattern (s : State) (w : Word) : (s.setIndex w).pattern = s.pattern := rfl
@[simp] theorem State.setIndex_pitch (s : State) (w : Word) : (s.setIndex w).pitch = s.pitch := rfl
@[simp] theorem State.setIndex_keys (s : State) (w : Word) : (s.setIndex w).keys = s.keys := rfl
@[simp] theorem State.setIndex_keysPrev (s : State) (w : Word) : (s.setIndex w).keysPrev = s.keysPrev := rfl
@[simp] theorem State.setIndex_waitReg (s : State) (w : Word) : (s.setIndex w).waitReg = s.waitReg := rfl
@[simp] theorem State.setIndex_rng (s : State) (w : Word) : (s.setIndex w).rng = s.rng := rfl
@[simp] theorem State.setIndex_flags (s : State) (w : Word) : (s.setIndex w).flags = s.flags := rfl
@[simp] theorem State.setIndex_dwStall (s : State) (w : Word) : (s.setIndex w).dwStall = s.dwStall := rfl
@[simp] theorem State.setIndex_lastUnknown (s : State) (w : Word) : (s.setIndex w).lastUnknown = s.lastUnknown := rfl

/-! ## goto -/

@[simp] theorem State.goto_config (s : State) (w : Word) : (s.goto w).config = s.config := rfl
@[simp] theorem State.goto_v (s : State) (w : Word) : (s.goto w).v = s.v := rfl
@[simp] theorem State.goto_i (s : State) (w : Word) : (s.goto w).i = s.i := rfl
@[simp] theorem State.goto_pc (s : State) (w : Word) : (s.goto w).pc = w := rfl
@[simp] theorem State.goto_sp (s : State) (w : Word) : (s.goto w).sp = s.sp := rfl
@[simp] theorem State.goto_stack (s : State) (w : Word) : (s.goto w).stack = s.stack := rfl
@[simp] theorem State.goto_mem (s : State) (w : Word) : (s.goto w).mem = s.mem := rfl
@[simp] theorem State.goto_dt (s : State) (w : Word) : (s.goto w).dt = s.dt := rfl
@[simp] theorem State.goto_st (s : State) (w : Word) : (s.goto w).st = s.st := rfl
@[simp] theorem State.goto_planes (s : State) (w : Word) : (s.goto w).planes = s.planes := rfl
@[simp] theorem State.goto_hires (s : State) (w : Word) : (s.goto w).hires = s.hires := rfl
@[simp] theorem State.goto_planeMask (s : State) (w : Word) : (s.goto w).planeMask = s.planeMask := rfl
@[simp] theorem State.goto_pattern (s : State) (w : Word) : (s.goto w).pattern = s.pattern := rfl
@[simp] theorem State.goto_pitch (s : State) (w : Word) : (s.goto w).pitch = s.pitch := rfl
@[simp] theorem State.goto_keys (s : State) (w : Word) : (s.goto w).keys = s.keys := rfl
@[simp] theorem State.goto_keysPrev (s : State) (w : Word) : (s.goto w).keysPrev = s.keysPrev := rfl
@[simp] theorem State.goto_waitReg (s : State) (w : Word) : (s.goto w).waitReg = s.waitReg := rfl
@[simp] theorem State.goto_rng (s : State) (w : Word) : (s.goto w).rng = s.rng := rfl
@[simp] theorem State.goto_flags (s : State) (w : Word) : (s.goto w).flags = s.flags := rfl
@[simp] theorem State.goto_dwStall (s : State) (w : Word) : (s.goto w).dwStall = s.dwStall := rfl
@[simp] theorem State.goto_lastUnknown (s : State) (w : Word) : (s.goto w).lastUnknown = s.lastUnknown := rfl

/-! ## advance -/

@[simp] theorem State.advance_config (s : State) : (s.advance).config = s.config := rfl
@[simp] theorem State.advance_v (s : State) : (s.advance).v = s.v := rfl
@[simp] theorem State.advance_i (s : State) : (s.advance).i = s.i := rfl
@[simp] theorem State.advance_pc (s : State) : (s.advance).pc = s.npc := rfl
@[simp] theorem State.advance_sp (s : State) : (s.advance).sp = s.sp := rfl
@[simp] theorem State.advance_stack (s : State) : (s.advance).stack = s.stack := rfl
@[simp] theorem State.advance_mem (s : State) : (s.advance).mem = s.mem := rfl
@[simp] theorem State.advance_dt (s : State) : (s.advance).dt = s.dt := rfl
@[simp] theorem State.advance_st (s : State) : (s.advance).st = s.st := rfl
@[simp] theorem State.advance_planes (s : State) : (s.advance).planes = s.planes := rfl
@[simp] theorem State.advance_hires (s : State) : (s.advance).hires = s.hires := rfl
@[simp] theorem State.advance_planeMask (s : State) : (s.advance).planeMask = s.planeMask := rfl
@[simp] theorem State.advance_pattern (s : State) : (s.advance).pattern = s.pattern := rfl
@[simp] theorem State.advance_pitch (s : State) : (s.advance).pitch = s.pitch := rfl
@[simp] theorem State.advance_keys (s : State) : (s.advance).keys = s.keys := rfl
@[simp] theorem State.advance_keysPrev (s : State) : (s.advance).keysPrev = s.keysPrev := rfl
@[simp] theorem State.advance_waitReg (s : State) : (s.advance).waitReg = s.waitReg := rfl
@[simp] theorem State.advance_rng (s : State) : (s.advance).rng = s.rng := rfl
@[simp] theorem State.advance_flags (s : State) : (s.advance).flags = s.flags := rfl
@[simp] theorem State.advance_dwStall (s : State) : (s.advance).dwStall = s.dwStall := rfl
@[simp] theorem State.advance_lastUnknown (s : State) : (s.advance).lastUnknown = s.lastUnknown := rfl

/-! ## skipIf -/

@[simp] theorem State.skipIf_config (s : State) (c : Bool) : (s.skipIf c).config = s.config := rfl
@[simp] theorem State.skipIf_v (s : State) (c : Bool) : (s.skipIf c).v = s.v := rfl
@[simp] theorem State.skipIf_i (s : State) (c : Bool) : (s.skipIf c).i = s.i := rfl
@[simp] theorem State.skipIf_pc (s : State) (c : Bool) : (s.skipIf c).pc = if c then s.npc + s.skipWidth else s.npc := rfl
@[simp] theorem State.skipIf_sp (s : State) (c : Bool) : (s.skipIf c).sp = s.sp := rfl
@[simp] theorem State.skipIf_stack (s : State) (c : Bool) : (s.skipIf c).stack = s.stack := rfl
@[simp] theorem State.skipIf_mem (s : State) (c : Bool) : (s.skipIf c).mem = s.mem := rfl
@[simp] theorem State.skipIf_dt (s : State) (c : Bool) : (s.skipIf c).dt = s.dt := rfl
@[simp] theorem State.skipIf_st (s : State) (c : Bool) : (s.skipIf c).st = s.st := rfl
@[simp] theorem State.skipIf_planes (s : State) (c : Bool) : (s.skipIf c).planes = s.planes := rfl
@[simp] theorem State.skipIf_hires (s : State) (c : Bool) : (s.skipIf c).hires = s.hires := rfl
@[simp] theorem State.skipIf_planeMask (s : State) (c : Bool) : (s.skipIf c).planeMask = s.planeMask := rfl
@[simp] theorem State.skipIf_pattern (s : State) (c : Bool) : (s.skipIf c).pattern = s.pattern := rfl
@[simp] theorem State.skipIf_pitch (s : State) (c : Bool) : (s.skipIf c).pitch = s.pitch := rfl
@[simp] theorem State.skipIf_keys (s : State) (c : Bool) : (s.skipIf c).keys = s.keys := rfl
@[simp] theorem State.skipIf_keysPrev (s : State) (c : Bool) : (s.skipIf c).keysPrev = s.keysPrev := rfl
@[simp] theorem State.skipIf_waitReg (s : State) (c : Bool) : (s.skipIf c).waitReg = s.waitReg := rfl
@[simp] theorem State.skipIf_rng (s : State) (c : Bool) : (s.skipIf c).rng = s.rng := rfl
@[simp] theorem State.skipIf_flags (s : State) (c : Bool) : (s.skipIf c).flags = s.flags := rfl
@[simp] theorem State.skipIf_dwStall (s : State) (c : Bool) : (s.skipIf c).dwStall = s.dwStall := rfl
@[simp] theorem State.skipIf_lastUnknown (s : State) (c : Bool) : (s.skipIf c).lastUnknown = s.lastUnknown := rfl

/-! ## storeBytes -/

@[simp] theorem State.storeBytes_config (s : State) (a : Nat) (bs : List Byte) : (s.storeBytes a bs).config = s.config := rfl
@[simp] theorem State.storeBytes_v (s : State) (a : Nat) (bs : List Byte) : (s.storeBytes a bs).v = s.v := rfl
@[simp] theorem State.storeBytes_i (s : State) (a : Nat) (bs : List Byte) : (s.storeBytes a bs).i = s.i := rfl
@[simp] theorem State.storeBytes_pc (s : State) (a : Nat) (bs : List Byte) : (s.storeBytes a bs).pc = s.pc := rfl
@[simp] theorem State.storeBytes_sp (s : State) (a : Nat) (bs : List Byte) : (s.storeBytes a bs).sp = s.sp := rfl
@[simp] theorem State.storeBytes_stack (s : State) (a : Nat) (bs : List Byte) : (s.storeBytes a bs).stack = s.stack := rfl
@[simp] theorem State.storeBytes_mem (s : State) (a : Nat) (bs : List Byte) : (s.storeBytes a bs).mem = Memory.writeBytes s.config s.mem a bs := rfl
@[simp] theorem State.storeBytes_dt (s : State) (a : Nat) (bs : List Byte) : (s.storeBytes a bs).dt = s.dt := rfl
@[simp] theorem State.storeBytes_st (s : State) (a : Nat) (bs : List Byte) : (s.storeBytes a bs).st = s.st := rfl
@[simp] theorem State.storeBytes_planes (s : State) (a : Nat) (bs : List Byte) : (s.storeBytes a bs).planes = s.planes := rfl
@[simp] theorem State.storeBytes_hires (s : State) (a : Nat) (bs : List Byte) : (s.storeBytes a bs).hires = s.hires := rfl
@[simp] theorem State.storeBytes_planeMask (s : State) (a : Nat) (bs : List Byte) : (s.storeBytes a bs).planeMask = s.planeMask := rfl
@[simp] theorem State.storeBytes_pattern (s : State) (a : Nat) (bs : List Byte) : (s.storeBytes a bs).pattern = s.pattern := rfl
@[simp] theorem State.storeBytes_pitch (s : State) (a : Nat) (bs : List Byte) : (s.storeBytes a bs).pitch = s.pitch := rfl
@[simp] theorem State.storeBytes_keys (s : State) (a : Nat) (bs : List Byte) : (s.storeBytes a bs).keys = s.keys := rfl
@[simp] theorem State.storeBytes_keysPrev (s : State) (a : Nat) (bs : List Byte) : (s.storeBytes a bs).keysPrev = s.keysPrev := rfl
@[simp] theorem State.storeBytes_waitReg (s : State) (a : Nat) (bs : List Byte) : (s.storeBytes a bs).waitReg = s.waitReg := rfl
@[simp] theorem State.storeBytes_rng (s : State) (a : Nat) (bs : List Byte) : (s.storeBytes a bs).rng = s.rng := rfl
@[simp] theorem State.storeBytes_flags (s : State) (a : Nat) (bs : List Byte) : (s.storeBytes a bs).flags = s.flags := rfl
@[simp] theorem State.storeBytes_dwStall (s : State) (a : Nat) (bs : List Byte) : (s.storeBytes a bs).dwStall = s.dwStall := rfl
@[simp] theorem State.storeBytes_lastUnknown (s : State) (a : Nat) (bs : List Byte) : (s.storeBytes a bs).lastUnknown = s.lastUnknown := rfl

/-! ## tick -/

@[simp] theorem State.tick_config (s : State) : (s.tick).config = s.config := rfl
@[simp] theorem State.tick_v (s : State) : (s.tick).v = s.v := rfl
@[simp] theorem State.tick_i (s : State) : (s.tick).i = s.i := rfl
@[simp] theorem State.tick_pc (s : State) : (s.tick).pc = s.pc := rfl
@[simp] theorem State.tick_sp (s : State) : (s.tick).sp = s.sp := rfl
@[simp] theorem State.tick_stack (s : State) : (s.tick).stack = s.stack := rfl
@[simp] theorem State.tick_mem (s : State) : (s.tick).mem = s.mem := rfl
@[simp] theorem State.tick_dt (s : State) : (s.tick).dt = countDown s.dt := rfl
@[simp] theorem State.tick_st (s : State) : (s.tick).st = countDown s.st := rfl
@[simp] theorem State.tick_planes (s : State) : (s.tick).planes = s.planes := rfl
@[simp] theorem State.tick_hires (s : State) : (s.tick).hires = s.hires := rfl
@[simp] theorem State.tick_planeMask (s : State) : (s.tick).planeMask = s.planeMask := rfl
@[simp] theorem State.tick_pattern (s : State) : (s.tick).pattern = s.pattern := rfl
@[simp] theorem State.tick_pitch (s : State) : (s.tick).pitch = s.pitch := rfl
@[simp] theorem State.tick_keys (s : State) : (s.tick).keys = s.keys := rfl
@[simp] theorem State.tick_keysPrev (s : State) : (s.tick).keysPrev = s.keysPrev := rfl
@[simp] theorem State.tick_waitReg (s : State) : (s.tick).waitReg = s.waitReg := rfl
@[simp] theorem State.tick_rng (s : State) : (s.tick).rng = s.rng := rfl
@[simp] theorem State.tick_flags (s : State) : (s.tick).flags = s.flags := rfl
@[simp] theorem State.tick_dwStall (s : State) : (s.tick).dwStall = false := rfl
@[simp] theorem State.tick_lastUnknown (s : State) : (s.tick).lastUnknown = s.lastUnknown := rfl

/-! ## setKey -/

@[simp] theorem State.setKey_config (s : State) (k : Fin 16) (b : Bool) : (s.setKey k b).config = s.config := rfl
@[simp] theorem State.setKey_v (s : State) (k : Fin 16) (b : Bool) : (s.setKey k b).v = s.v := rfl
@[simp] theorem State.setKey_i (s : State) (k : Fin 16) (b : Bool) : (s.setKey k b).i = s.i := rfl
@[simp] theorem State.setKey_pc (s : State) (k : Fin 16) (b : Bool) : (s.setKey k b).pc = s.pc := rfl
@[simp] theorem State.setKey_sp (s : State) (k : Fin 16) (b : Bool) : (s.setKey k b).sp = s.sp := rfl
@[simp] theorem State.setKey_stack (s : State) (k : Fin 16) (b : Bool) : (s.setKey k b).stack = s.stack := rfl
@[simp] theorem State.setKey_mem (s : State) (k : Fin 16) (b : Bool) : (s.setKey k b).mem = s.mem := rfl
@[simp] theorem State.setKey_dt (s : State) (k : Fin 16) (b : Bool) : (s.setKey k b).dt = s.dt := rfl
@[simp] theorem State.setKey_st (s : State) (k : Fin 16) (b : Bool) : (s.setKey k b).st = s.st := rfl
@[simp] theorem State.setKey_planes (s : State) (k : Fin 16) (b : Bool) : (s.setKey k b).planes = s.planes := rfl
@[simp] theorem State.setKey_hires (s : State) (k : Fin 16) (b : Bool) : (s.setKey k b).hires = s.hires := rfl
@[simp] theorem State.setKey_planeMask (s : State) (k : Fin 16) (b : Bool) : (s.setKey k b).planeMask = s.planeMask := rfl
@[simp] theorem State.setKey_pattern (s : State) (k : Fin 16) (b : Bool) : (s.setKey k b).pattern = s.pattern := rfl
@[simp] theorem State.setKey_pitch (s : State) (k : Fin 16) (b : Bool) : (s.setKey k b).pitch = s.pitch := rfl
@[simp] theorem State.setKey_keys (s : State) (k : Fin 16) (b : Bool) : (s.setKey k b).keys = s.keys.set k b := rfl
@[simp] theorem State.setKey_keysPrev (s : State) (k : Fin 16) (b : Bool) : (s.setKey k b).keysPrev = s.keysPrev := rfl
@[simp] theorem State.setKey_waitReg (s : State) (k : Fin 16) (b : Bool) : (s.setKey k b).waitReg = s.waitReg := rfl
@[simp] theorem State.setKey_rng (s : State) (k : Fin 16) (b : Bool) : (s.setKey k b).rng = s.rng := rfl
@[simp] theorem State.setKey_flags (s : State) (k : Fin 16) (b : Bool) : (s.setKey k b).flags = s.flags := rfl
@[simp] theorem State.setKey_dwStall (s : State) (k : Fin 16) (b : Bool) : (s.setKey k b).dwStall = s.dwStall := rfl
@[simp] theorem State.setKey_lastUnknown (s : State) (k : Fin 16) (b : Bool) : (s.setKey k b).lastUnknown = s.lastUnknown := rfl

/-! ## setRegs: every field but the registers, by induction on the list -/

@[simp] theorem State.setRegs_config (s : State) (ps : List (Reg × Byte)) : (s.setRegs ps).config = s.config := by
  induction ps generalizing s with
  | nil => rfl
  | cons p ps ih => exact ih _
@[simp] theorem State.setRegs_i (s : State) (ps : List (Reg × Byte)) : (s.setRegs ps).i = s.i := by
  induction ps generalizing s with
  | nil => rfl
  | cons p ps ih => exact ih _
@[simp] theorem State.setRegs_pc (s : State) (ps : List (Reg × Byte)) : (s.setRegs ps).pc = s.pc := by
  induction ps generalizing s with
  | nil => rfl
  | cons p ps ih => exact ih _
@[simp] theorem State.setRegs_sp (s : State) (ps : List (Reg × Byte)) : (s.setRegs ps).sp = s.sp := by
  induction ps generalizing s with
  | nil => rfl
  | cons p ps ih => exact ih _
@[simp] theorem State.setRegs_stack (s : State) (ps : List (Reg × Byte)) : (s.setRegs ps).stack = s.stack := by
  induction ps generalizing s with
  | nil => rfl
  | cons p ps ih => exact ih _
@[simp] theorem State.setRegs_mem (s : State) (ps : List (Reg × Byte)) : (s.setRegs ps).mem = s.mem := by
  induction ps generalizing s with
  | nil => rfl
  | cons p ps ih => exact ih _
@[simp] theorem State.setRegs_dt (s : State) (ps : List (Reg × Byte)) : (s.setRegs ps).dt = s.dt := by
  induction ps generalizing s with
  | nil => rfl
  | cons p ps ih => exact ih _
@[simp] theorem State.setRegs_st (s : State) (ps : List (Reg × Byte)) : (s.setRegs ps).st = s.st := by
  induction ps generalizing s with
  | nil => rfl
  | cons p ps ih => exact ih _
@[simp] theorem State.setRegs_planes (s : State) (ps : List (Reg × Byte)) : (s.setRegs ps).planes = s.planes := by
  induction ps generalizing s with
  | nil => rfl
  | cons p ps ih => exact ih _
@[simp] theorem State.setRegs_hires (s : State) (ps : List (Reg × Byte)) : (s.setRegs ps).hires = s.hires := by
  induction ps generalizing s with
  | nil => rfl
  | cons p ps ih => exact ih _
@[simp] theorem State.setRegs_planeMask (s : State) (ps : List (Reg × Byte)) : (s.setRegs ps).planeMask = s.planeMask := by
  induction ps generalizing s with
  | nil => rfl
  | cons p ps ih => exact ih _
@[simp] theorem State.setRegs_pattern (s : State) (ps : List (Reg × Byte)) : (s.setRegs ps).pattern = s.pattern := by
  induction ps generalizing s with
  | nil => rfl
  | cons p ps ih => exact ih _
@[simp] theorem State.setRegs_pitch (s : State) (ps : List (Reg × Byte)) : (s.setRegs ps).pitch = s.pitch := by
  induction ps generalizing s with
  | nil => rfl
  | cons p ps ih => exact ih _
@[simp] theorem State.setRegs_keys (s : State) (ps : List (Reg × Byte)) : (s.setRegs ps).keys = s.keys := by
  induction ps generalizing s with
  | nil => rfl
  | cons p ps ih => exact ih _
@[simp] theorem State.setRegs_keysPrev (s : State) (ps : List (Reg × Byte)) : (s.setRegs ps).keysPrev = s.keysPrev := by
  induction ps generalizing s with
  | nil => rfl
  | cons p ps ih => exact ih _
@[simp] theorem State.setRegs_waitReg (s : State) (ps : List (Reg × Byte)) : (s.setRegs ps).waitReg = s.waitReg := by
  induction ps generalizing s with
  | nil => rfl
  | cons p ps ih => exact ih _
@[simp] theorem State.setRegs_rng (s : State) (ps : List (Reg × Byte)) : (s.setRegs ps).rng = s.rng := by
  induction ps generalizing s with
  | nil => rfl
  | cons p ps ih => exact ih _
@[simp] theorem State.setRegs_flags (s : State) (ps : List (Reg × Byte)) : (s.setRegs ps).flags = s.flags := by
  induction ps generalizing s with
  | nil => rfl
  | cons p ps ih => exact ih _
@[simp] theorem State.setRegs_dwStall (s : State) (ps : List (Reg × Byte)) : (s.setRegs ps).dwStall = s.dwStall := by
  induction ps generalizing s with
  | nil => rfl
  | cons p ps ih => exact ih _
@[simp] theorem State.setRegs_lastUnknown (s : State) (ps : List (Reg × Byte)) : (s.setRegs ps).lastUnknown = s.lastUnknown := by
  induction ps generalizing s with
  | nil => rfl
  | cons p ps ih => exact ih _

/-! ## loadSpan and setLogic: every field but the registers -/

@[simp] theorem State.loadSpan_config (s : State) (x y : Reg) (bs : List Byte) : (s.loadSpan x y bs).config = s.config :=
  State.setRegs_config s _
@[simp] theorem State.setLogic_config (s : State) (x : Reg) (b : Byte) : (s.setLogic x b).config = s.config := by
  unfold State.setLogic; split <;> rfl
@[simp] theorem State.loadSpan_i (s : State) (x y : Reg) (bs : List Byte) : (s.loadSpan x y bs).i = s.i :=
  State.setRegs_i s _
@[simp] theorem State.setLogic_i (s : State) (x : Reg) (b : Byte) : (s.setLogic x b).i = s.i := by
  unfold State.setLogic; split <;> rfl
@[simp] theorem State.loadSpan_pc (s : State) (x y : Reg) (bs : List Byte) : (s.loadSpan x y bs).pc = s.pc :=
  State.setRegs_pc s _
@[simp] theorem State.setLogic_pc (s : State) (x : Reg) (b : Byte) : (s.setLogic x b).pc = s.pc := by
  unfold State.setLogic; split <;> rfl
@[simp] theorem State.loadSpan_sp (s : State) (x y : Reg) (bs : List Byte) : (s.loadSpan x y bs).sp = s.sp :=
  State.setRegs_sp s _
@[simp] theorem State.setLogic_sp (s : State) (x : Reg) (b : Byte) : (s.setLogic x b).sp = s.sp := by
  unfold State.setLogic; split <;> rfl
@[simp] theorem State.loadSpan_stack (s : State) (x y : Reg) (bs : List Byte) : (s.loadSpan x y bs).stack = s.stack :=
  State.setRegs_stack s _
@[simp] theorem State.setLogic_stack (s : State) (x : Reg) (b : Byte) : (s.setLogic x b).stack = s.stack := by
  unfold State.setLogic; split <;> rfl
@[simp] theorem State.loadSpan_mem (s : State) (x y : Reg) (bs : List Byte) : (s.loadSpan x y bs).mem = s.mem :=
  State.setRegs_mem s _
@[simp] theorem State.setLogic_mem (s : State) (x : Reg) (b : Byte) : (s.setLogic x b).mem = s.mem := by
  unfold State.setLogic; split <;> rfl
@[simp] theorem State.loadSpan_dt (s : State) (x y : Reg) (bs : List Byte) : (s.loadSpan x y bs).dt = s.dt :=
  State.setRegs_dt s _
@[simp] theorem State.setLogic_dt (s : State) (x : Reg) (b : Byte) : (s.setLogic x b).dt = s.dt := by
  unfold State.setLogic; split <;> rfl
@[simp] theorem State.loadSpan_st (s : State) (x y : Reg) (bs : List Byte) : (s.loadSpan x y bs).st = s.st :=
  State.setRegs_st s _
@[simp] theorem State.setLogic_st (s : State) (x : Reg) (b : Byte) : (s.setLogic x b).st = s.st := by
  unfold State.setLogic; split <;> rfl
@[simp] theorem State.loadSpan_planes (s : State) (x y : Reg) (bs : List Byte) : (s.loadSpan x y bs).planes = s.planes :=
  State.setRegs_planes s _
@[simp] theorem State.setLogic_planes (s : State) (x : Reg) (b : Byte) : (s.setLogic x b).planes = s.planes := by
  unfold State.setLogic; split <;> rfl
@[simp] theorem State.loadSpan_hires (s : State) (x y : Reg) (bs : List Byte) : (s.loadSpan x y bs).hires = s.hires :=
  State.setRegs_hires s _
@[simp] theorem State.setLogic_hires (s : State) (x : Reg) (b : Byte) : (s.setLogic x b).hires = s.hires := by
  unfold State.setLogic; split <;> rfl
@[simp] theorem State.loadSpan_planeMask (s : State) (x y : Reg) (bs : List Byte) : (s.loadSpan x y bs).planeMask = s.planeMask :=
  State.setRegs_planeMask s _
@[simp] theorem State.setLogic_planeMask (s : State) (x : Reg) (b : Byte) : (s.setLogic x b).planeMask = s.planeMask := by
  unfold State.setLogic; split <;> rfl
@[simp] theorem State.loadSpan_pattern (s : State) (x y : Reg) (bs : List Byte) : (s.loadSpan x y bs).pattern = s.pattern :=
  State.setRegs_pattern s _
@[simp] theorem State.setLogic_pattern (s : State) (x : Reg) (b : Byte) : (s.setLogic x b).pattern = s.pattern := by
  unfold State.setLogic; split <;> rfl
@[simp] theorem State.loadSpan_pitch (s : State) (x y : Reg) (bs : List Byte) : (s.loadSpan x y bs).pitch = s.pitch :=
  State.setRegs_pitch s _
@[simp] theorem State.setLogic_pitch (s : State) (x : Reg) (b : Byte) : (s.setLogic x b).pitch = s.pitch := by
  unfold State.setLogic; split <;> rfl
@[simp] theorem State.loadSpan_keys (s : State) (x y : Reg) (bs : List Byte) : (s.loadSpan x y bs).keys = s.keys :=
  State.setRegs_keys s _
@[simp] theorem State.setLogic_keys (s : State) (x : Reg) (b : Byte) : (s.setLogic x b).keys = s.keys := by
  unfold State.setLogic; split <;> rfl
@[simp] theorem State.loadSpan_keysPrev (s : State) (x y : Reg) (bs : List Byte) : (s.loadSpan x y bs).keysPrev = s.keysPrev :=
  State.setRegs_keysPrev s _
@[simp] theorem State.setLogic_keysPrev (s : State) (x : Reg) (b : Byte) : (s.setLogic x b).keysPrev = s.keysPrev := by
  unfold State.setLogic; split <;> rfl
@[simp] theorem State.loadSpan_waitReg (s : State) (x y : Reg) (bs : List Byte) : (s.loadSpan x y bs).waitReg = s.waitReg :=
  State.setRegs_waitReg s _
@[simp] theorem State.setLogic_waitReg (s : State) (x : Reg) (b : Byte) : (s.setLogic x b).waitReg = s.waitReg := by
  unfold State.setLogic; split <;> rfl
@[simp] theorem State.loadSpan_rng (s : State) (x y : Reg) (bs : List Byte) : (s.loadSpan x y bs).rng = s.rng :=
  State.setRegs_rng s _
@[simp] theorem State.setLogic_rng (s : State) (x : Reg) (b : Byte) : (s.setLogic x b).rng = s.rng := by
  unfold State.setLogic; split <;> rfl
@[simp] theorem State.loadSpan_flags (s : State) (x y : Reg) (bs : List Byte) : (s.loadSpan x y bs).flags = s.flags :=
  State.setRegs_flags s _
@[simp] theorem State.setLogic_flags (s : State) (x : Reg) (b : Byte) : (s.setLogic x b).flags = s.flags := by
  unfold State.setLogic; split <;> rfl
@[simp] theorem State.loadSpan_dwStall (s : State) (x y : Reg) (bs : List Byte) : (s.loadSpan x y bs).dwStall = s.dwStall :=
  State.setRegs_dwStall s _
@[simp] theorem State.setLogic_dwStall (s : State) (x : Reg) (b : Byte) : (s.setLogic x b).dwStall = s.dwStall := by
  unfold State.setLogic; split <;> rfl
@[simp] theorem State.loadSpan_lastUnknown (s : State) (x y : Reg) (bs : List Byte) : (s.loadSpan x y bs).lastUnknown = s.lastUnknown :=
  State.setRegs_lastUnknown s _
@[simp] theorem State.setLogic_lastUnknown (s : State) (x : Reg) (b : Byte) : (s.setLogic x b).lastUnknown = s.lastUnknown := by
  unfold State.setLogic; split <;> rfl

/-! ## afterFault: every field but LAST_UNKNOWN -/

@[simp] theorem State.afterFault_config (s : State) (r : Fault) : (s.afterFault r).config = s.config := by
  cases r <;> rfl
@[simp] theorem State.afterFault_v (s : State) (r : Fault) : (s.afterFault r).v = s.v := by
  cases r <;> rfl
@[simp] theorem State.afterFault_i (s : State) (r : Fault) : (s.afterFault r).i = s.i := by
  cases r <;> rfl
@[simp] theorem State.afterFault_pc (s : State) (r : Fault) : (s.afterFault r).pc = s.pc := by
  cases r <;> rfl
@[simp] theorem State.afterFault_sp (s : State) (r : Fault) : (s.afterFault r).sp = s.sp := by
  cases r <;> rfl
@[simp] theorem State.afterFault_stack (s : State) (r : Fault) : (s.afterFault r).stack = s.stack := by
  cases r <;> rfl
@[simp] theorem State.afterFault_mem (s : State) (r : Fault) : (s.afterFault r).mem = s.mem := by
  cases r <;> rfl
@[simp] theorem State.afterFault_dt (s : State) (r : Fault) : (s.afterFault r).dt = s.dt := by
  cases r <;> rfl
@[simp] theorem State.afterFault_st (s : State) (r : Fault) : (s.afterFault r).st = s.st := by
  cases r <;> rfl
@[simp] theorem State.afterFault_planes (s : State) (r : Fault) : (s.afterFault r).planes = s.planes := by
  cases r <;> rfl
@[simp] theorem State.afterFault_hires (s : State) (r : Fault) : (s.afterFault r).hires = s.hires := by
  cases r <;> rfl
@[simp] theorem State.afterFault_planeMask (s : State) (r : Fault) : (s.afterFault r).planeMask = s.planeMask := by
  cases r <;> rfl
@[simp] theorem State.afterFault_pattern (s : State) (r : Fault) : (s.afterFault r).pattern = s.pattern := by
  cases r <;> rfl
@[simp] theorem State.afterFault_pitch (s : State) (r : Fault) : (s.afterFault r).pitch = s.pitch := by
  cases r <;> rfl
@[simp] theorem State.afterFault_keys (s : State) (r : Fault) : (s.afterFault r).keys = s.keys := by
  cases r <;> rfl
@[simp] theorem State.afterFault_keysPrev (s : State) (r : Fault) : (s.afterFault r).keysPrev = s.keysPrev := by
  cases r <;> rfl
@[simp] theorem State.afterFault_waitReg (s : State) (r : Fault) : (s.afterFault r).waitReg = s.waitReg := by
  cases r <;> rfl
@[simp] theorem State.afterFault_rng (s : State) (r : Fault) : (s.afterFault r).rng = s.rng := by
  cases r <;> rfl
@[simp] theorem State.afterFault_flags (s : State) (r : Fault) : (s.afterFault r).flags = s.flags := by
  cases r <;> rfl
@[simp] theorem State.afterFault_dwStall (s : State) (r : Fault) : (s.afterFault r).dwStall = s.dwStall := by
  cases r <;> rfl

end Sys2Proof.Machine
end

