-- ==== Sys2Proof/Laws/Ops.lean ====
section
/-! SUPPORT. What each shared operation of Machine/Ops.lean, Operands.lean and Flags.lean does, said once. -/

namespace Sys2Proof.Machine

/-! ## Registers -/

theorem State.reg_setReg (s : State) (x r : Reg) (b : Byte) : (s.setReg x b).reg r = if x = r then b else s.reg r := by
  simp only [State.reg, State.setReg_v, Fin.getElem_fin, Vector.getElem_set, Fin.ext_iff]

theorem State.reg_setRegFlag (s : State) (x r : Reg) (b f : Byte) :
    (s.setRegFlag x b f).reg r = if r = 15 then f else if x = r then b else s.reg r := by
  simp only [State.setRegFlag, State.reg_setReg, eq_comm (a := r) (b := (15 : Reg))]

theorem State.reg_setLogic (s : State) (x r : Reg) (b : Byte) :
    (s.setLogic x b).reg r
      = if s.config.quirks.vfResetOnLogic = true ∧ r = 15 then 0 else if x = r then b else s.reg r := by
  unfold State.setLogic
  split
  · next h => simp only [State.reg_setRegFlag, h, true_and]
  · next h => simp [State.reg_setReg, h]

@[simp] theorem State.reg_goto (s : State) (w : Word) (r : Reg) : (s.goto w).reg r = s.reg r := rfl
@[simp] theorem State.reg_advance (s : State) (r : Reg) : s.advance.reg r = s.reg r := rfl
@[simp] theorem State.reg_skipIf (s : State) (c : Bool) (r : Reg) : (s.skipIf c).reg r = s.reg r := rfl
@[simp] theorem State.reg_setIndex (s : State) (w : Word) (r : Reg) : (s.setIndex w).reg r = s.reg r := rfl
@[simp] theorem State.reg_storeBytes (s : State) (a : Nat) (bs : List Byte) (r : Reg) :
    (s.storeBytes a bs).reg r = s.reg r := rfl

/-- A list of register writes leaves the registers it does not name. -/
theorem State.reg_setRegs_of_notMem (s : State) (ps : List (Reg × Byte)) (r : Reg) (h : ∀ b, (r, b) ∉ ps) :
    (s.setRegs ps).reg r = s.reg r := by
  induction ps generalizing s with
  | nil => rfl
  | cons p ps ih =>
    obtain ⟨x, b⟩ := p
    simp only [State.setRegs]
    rw [ih _ (fun d hd => h d (List.mem_cons_of_mem _ hd)), State.reg_setReg, if_neg]
    intro hx
    exact h b (by rw [hx]; exact List.mem_cons_self)

/-- A list of writes to different registers leaves in each what the list gives it. -/
theorem State.reg_setRegs_of_mem (s : State) (ps : List (Reg × Byte)) (hn : (ps.map Prod.fst).Nodup) (r : Reg) (b : Byte)
    (h : (r, b) ∈ ps) : (s.setRegs ps).reg r = b := by
  induction ps generalizing s with
  | nil => cases h
  | cons p ps ih =>
    obtain ⟨x, d⟩ := p
    simp only [List.map_cons, List.nodup_cons] at hn
    simp only [State.setRegs]
    rcases List.mem_cons.mp h with h | h
    · cases h
      rw [State.reg_setRegs_of_notMem, State.reg_setReg, if_pos rfl]
      intro e he
      exact hn.1 (List.mem_map.mpr ⟨(r, e), he, rfl⟩)
    · exact ih _ hn.2 h

/-! ## Register runs -/

@[simp] theorem length_spanRegs (x y : Reg) : (spanRegs x y).length = spanCount x y := by simp [spanRegs]

@[simp] theorem State.length_spanBytes (s : State) (x y : Reg) : (s.spanBytes x y).length = spanCount x y := by
  simp [State.spanBytes]

@[simp] theorem spanCount_zero (x : Reg) : spanCount 0 x = x.val + 1 := by simp [spanCount]

@[simp] theorem State.length_bytesAt (s : State) (a n : Nat) : (s.bytesAt a n).length = n := by simp [State.bytesAt]

/-- The run from `x` to `y` names no register twice. -/
theorem nodup_spanRegs (x y : Reg) : (spanRegs x y).Nodup := by
  unfold spanRegs
  refine List.Nodup.map_on ?_ List.nodup_range
  intro a ha b hb h
  simp only [List.mem_range, spanCount] at ha hb
  unfold spanReg at h
  have hx := x.isLt
  have hy := y.isLt
  split at h <;> rename_i hxy <;> rw [Fin.le_def] at hxy <;> simp only [Fin.ofNat, Fin.mk.injEq] at h <;> omega

/-- The register of index `k` gets byte `k`. -/
theorem State.reg_loadSpan_spanReg (s : State) (x y : Reg) (bs : List Byte) (k : Nat) (hk : k < spanCount x y)
    (hl : bs.length = spanCount x y) : (s.loadSpan x y bs).reg (spanReg x y k) = bs.getD k 0 := by
  unfold State.loadSpan
  apply State.reg_setRegs_of_mem
  · rw [List.map_fst_zip (by simp [hl])]
    exact nodup_spanRegs x y
  · rw [List.mem_iff_getElem]
    refine ⟨k, by simp [hl, hk], ?_⟩
    simp only [List.getElem_zip, spanRegs, List.getElem_map, List.getElem_range, Prod.mk.injEq, true_and]
    rw [List.getD_eq_getElem?_getD, List.getElem?_eq_getElem (by omega), Option.getD_some]

/-- A register outside the run is unchanged. -/
theorem State.reg_loadSpan_of_notMem (s : State) (x y : Reg) (bs : List Byte) (r : Reg) (h : r ∉ spanRegs x y) :
    (s.loadSpan x y bs).reg r = s.reg r := by
  unfold State.loadSpan
  apply State.reg_setRegs_of_notMem
  intro b hb
  exact h (List.of_mem_zip hb).1

/-! ## Memory of a state -/

/-- What a store of several bytes does to later reads of the state. -/
theorem State.byteAt_storeBytes (s : State) (a : Nat) (bs : List Byte) (x : Nat) :
    (s.storeBytes a bs).byteAt x = if a ≤ x ∧ x < a + bs.length then bs.getD (x - a) 0 else s.byteAt x :=
  Memory.read_writeBytes s.config s.mem a bs x

@[simp] theorem State.byteAt_setReg (s : State) (x : Reg) (b : Byte) (a : Nat) : (s.setReg x b).byteAt a = s.byteAt a := rfl
@[simp] theorem State.byteAt_setIndex (s : State) (w : Word) (a : Nat) : (s.setIndex w).byteAt a = s.byteAt a := rfl
@[simp] theorem State.byteAt_goto (s : State) (w : Word) (a : Nat) : (s.goto w).byteAt a = s.byteAt a := rfl
@[simp] theorem State.byteAt_advance (s : State) (a : Nat) : s.advance.byteAt a = s.byteAt a := rfl

/-- Two states with the same configuration and the same cells read the same bytes. -/
theorem State.byteAt_congr {s t : State} (hc : t.config = s.config) (hm : t.mem = s.mem) (a : Nat) :
    t.byteAt a = s.byteAt a := by
  unfold State.byteAt; rw [hc, hm]

/-- A store within memory keeps the canonical form. -/
theorem State.wf_storeBytes {s : State} {a : Nat} {bs : List Byte} (h : Memory.wf s.config s.mem = true)
    (ha : a + bs.length ≤ s.memSize) : Memory.wf s.config (s.storeBytes a bs).mem = true := Memory.wf_writeBytes h ha

/-- Memory right after reset is in canonical form. -/
theorem State.wf_reset : Memory.wf State.reset.config State.reset.mem = true := rfl

/-! ## Bounds -/

theorem State.inBounds_iff (s : State) (base n : Nat) : s.inBounds base n = true ↔ n = 0 ∨ base + n ≤ s.memSize := by
  simp [State.inBounds]

/-- A guarded operation goes on exactly when every byte is in memory. -/
theorem State.guardAccess_of_inBounds (s : State) {base n : Nat} (k : Result) (h : n = 0 ∨ base + n ≤ s.memSize) :
    s.guardAccess base n k = k := by
  unfold State.guardAccess; rw [if_pos ((s.inBounds_iff base n).mpr h)]

/-- A guarded operation faults exactly when some byte is beyond memory. -/
theorem State.guardAccess_of_outside (s : State) {base n : Nat} (k : Result) (hn : n ≠ 0) (h : s.memSize < base + n) :
    s.guardAccess base n k = .fault (.outOfBoundsAccess (max base s.memSize)) := by
  unfold State.guardAccess
  rw [if_neg]
  · rfl
  · rw [s.inBounds_iff]; omega

/-- Everything a guarded operation can answer. -/
theorem State.guardAccess_cases (s : State) (base n : Nat) (k : Result) :
    (s.inBounds base n = true ∧ s.guardAccess base n k = k) ∨
      (s.inBounds base n = false ∧ s.guardAccess base n k = .fault (.outOfBoundsAccess (max base s.memSize))) := by
  unfold State.guardAccess
  cases s.inBounds base n
  · exact Or.inr ⟨rfl, rfl⟩
  · exact Or.inl ⟨rfl, rfl⟩

/-- A guarded operation answers a next state only within bounds. -/
theorem State.guardAccess_eq_next {s t : State} {base n : Nat} {k : Result} (h : s.guardAccess base n k = .next t) :
    s.inBounds base n = true ∧ k = .next t := by
  rcases s.guardAccess_cases base n k with ⟨h1, h2⟩ | ⟨_, h2⟩
  · exact ⟨h1, h2 ▸ h⟩
  · rw [h2] at h; cases h

/-! ## Faults -/

@[simp] theorem State.afterFault_unknownOpcode (s : State) (w : Word) :
    s.afterFault (.unknownOpcode w) = { s with lastUnknown := some w } := rfl

end Sys2Proof.Machine
end

