-- ==== Sys2Proof/Laws/Step.lean ====
section
/-! SUPPORT. Everything one STEP can do, said once (spec/40_step_cycle.md R100), and what the decoder lets through. -/

namespace Sys2Proof.Machine

/-! ## The decoder and the fetch -/

/-- An instruction that the decoder accepts exists at the level. -/
theorem wf_of_decode {isa : Isa} {bs : List Byte} {i : Instr} {rest : List Byte} (h : decode isa bs = .instr i rest) :
    i.wf isa = true := by
  unfold decode at h
  split at h
  · split at h
    · cases h
    · split at h
      · next hw =>
        split at h
        · cases h; exact hw
        · cases h
      · cases h
  · cases h

/-- With two bytes in memory the fetch sees them first. -/
theorem State.fetchBytes_eq {s : State} (h : s.pc.toNat + 1 < s.memSize) :
    ∃ rest, s.fetchBytes = s.byteAt s.pc.toNat :: s.byteAt (s.pc.toNat + 1) :: rest := by
  unfold State.fetchBytes State.bytesAt
  obtain ⟨n, hn⟩ : ∃ n, min 4 (s.memSize - s.pc.toNat) = n + 2 := ⟨min 4 (s.memSize - s.pc.toNat) - 2, by omega⟩
  rw [hn, List.range_succ_eq_map, List.range_succ_eq_map]
  exact ⟨_, rfl⟩

/-- Everything the fetch can answer: an instruction of the level, the unknown word, or the access that left memory. -/
theorem State.fetch_cases (s : State) :
    (∃ i, s.fetch = .instr i ∧ i.wf s.config.quirks.isa = true ∧ s.pc.toNat + 1 < s.memSize ∧
        ∃ rest, decode s.config.quirks.isa s.fetchBytes = .instr i rest) ∨
      (∃ w, s.fetch = .unknown w ∧ s.pc.toNat + 1 < s.memSize ∧
        decode s.config.quirks.isa s.fetchBytes = .unknown w) ∨
      (s.fetch = .outside (s.pc.toNat + 2) ∧ s.pc.toNat + 1 < s.memSize ∧
        decode s.config.quirks.isa s.fetchBytes = .tooShort) ∨
      (s.fetch = .outside s.pc.toNat ∧ s.memSize ≤ s.pc.toNat + 1) := by
  unfold State.fetch
  by_cases hb : s.inBounds s.pc.toNat 2 = true
  · have hlt : s.pc.toNat + 1 < s.memSize := by
      rcases (s.inBounds_iff _ _).mp hb with h | h <;> omega
    rw [if_pos hb]
    rcases hd : decode s.config.quirks.isa s.fetchBytes with ⟨i, rest⟩ | w | _
    · exact Or.inl ⟨i, rfl, wf_of_decode hd, hlt, rest, rfl⟩
    · exact Or.inr (Or.inl ⟨w, rfl, hlt, rfl⟩)
    · exact Or.inr (Or.inr (Or.inl ⟨rfl, hlt, rfl⟩))
  · have hle : s.memSize ≤ s.pc.toNat + 1 := by
      rw [s.inBounds_iff] at hb; omega
    rw [if_neg hb]
    exact Or.inr (Or.inr (Or.inr ⟨rfl, hle⟩))

/-! ## The step -/

theorem step_of_stalled {s : State} (h : s.dwStall = true) : step s = .next s := by
  unfold step; rw [if_pos h]

theorem step_of_waiting {s : State} {r : Reg} (h : s.dwStall = false) (hw : s.waitReg = some r) :
    step s = .next (s.waitingStep r) := by
  unfold step; rw [if_neg (by simp [h]), hw]

/-- A running step with no stall is decided by what the fetch answers. -/
theorem step_of_running {s : State} (h : s.dwStall = false) (hw : s.waitReg = none) :
    step s =
      match s.fetch with
      | .instr i => exec i s
      | .unknown w => s.unknownStep w
      | .outside base => raise (.outOfBoundsAccess (max base s.memSize)) := by
  unfold step; rw [if_neg (by simp [h])]; simp only [hw] <;> rfl

/-- Everything a step can be: stalled, waiting, one instruction of the level, an unknown opcode, or a fetch that faults. -/
theorem step_cases (s : State) :
    (s.dwStall = true ∧ step s = .next s) ∨
      (∃ r, s.dwStall = false ∧ s.waitReg = some r ∧ step s = .next (s.waitingStep r)) ∨
      (∃ i, s.dwStall = false ∧ s.waitReg = none ∧ s.fetch = .instr i ∧ i.wf s.config.quirks.isa = true ∧
        step s = exec i s) ∨
      (∃ w, s.dwStall = false ∧ s.waitReg = none ∧ s.fetch = .unknown w ∧ step s = s.unknownStep w) ∨
      (∃ base, s.dwStall = false ∧ s.waitReg = none ∧ s.fetch = .outside base ∧
        step s = .fault (.outOfBoundsAccess (max base s.memSize))) := by
  rcases hd : s.dwStall
  · rcases hw : s.waitReg with _ | r
    · have hs := step_of_running hd hw
      rcases s.fetch_cases with ⟨i, hf, hwf, _⟩ | ⟨w, hf, _⟩ | ⟨hf, _⟩ | ⟨hf, _⟩ <;> rw [hf] at hs
      · exact Or.inr (Or.inr (Or.inl ⟨i, rfl, rfl, hf, hwf, hs⟩))
      · exact Or.inr (Or.inr (Or.inr (Or.inl ⟨w, rfl, rfl, hf, hs⟩)))
      · exact Or.inr (Or.inr (Or.inr (Or.inr ⟨_, rfl, rfl, hf, hs⟩)))
      · exact Or.inr (Or.inr (Or.inr (Or.inr ⟨_, rfl, rfl, hf, hs⟩)))
    · exact Or.inr (Or.inl ⟨r, rfl, rfl, step_of_waiting hd hw⟩)
  · exact Or.inl ⟨rfl, step_of_stalled hd⟩

/-- An unknown-opcode step either faults and nothing else, or moves on by two and records the word. -/
theorem State.unknownStep_cases (s : State) (w : Word) :
    (s.config.unknownPolicy = .halt ∧ s.unknownStep w = .fault (.unknownOpcode w)) ∨
      (s.config.unknownPolicy = .skip ∧ s.unknownStep w = .next { s.advance with lastUnknown := some w }) := by
  unfold State.unknownStep
  cases s.config.unknownPolicy
  · exact Or.inl ⟨rfl, rfl⟩
  · exact Or.inr ⟨rfl, rfl⟩

/-- The waiting step writes the snapshot, at most one register and at most the wait target. -/
theorem State.waitingStep_eq (s : State) (r : Reg) :
    s.waitingStep r =
      { s with v := (s.waitingStep r).v, keysPrev := s.keys, waitReg := (s.waitingStep r).waitReg } := by
  unfold State.waitingStep
  cases s.keyHit <;> rfl

/-- Laying bytes keeps the canonical form, since none is laid beyond memory. -/
theorem State.wf_placeBytes {s : State} {a : Nat} {bs : List Byte} (h : Memory.wf s.config s.mem = true) :
    Memory.wf s.config (s.placeBytes a bs).mem = true := by
  by_cases ha : a ≤ s.memSize
  · refine State.wf_storeBytes h ?_
    rw [List.length_take]
    omega
  · have : s.memSize - a = 0 := by omega
    unfold State.placeBytes
    rw [this, List.take_zero]
    exact h

/-! ## Commands -/

/-- Everything LOAD_ROM can answer. -/
theorem State.loadRom_cases (s : State) (bytes : List Byte) :
    (s.memSize - origin < bytes.length ∧ s.loadRom bytes = .fault (.invalidRomLength bytes.length)) ∨
      (bytes.length ≤ s.memSize - origin ∧ s.loadRom bytes =
        .next { State.construct s.config with
          mem := Memory.ofBytes s.config origin bytes, keys := s.keys, rng := s.rng }) := by
  unfold State.loadRom
  by_cases h : bytes.length > s.memSize - origin
  · exact Or.inl ⟨h, if_pos h⟩
  · exact Or.inr ⟨by omega, if_neg h⟩

/-- A sequence of commands is run one at a time. -/
theorem State.runCommands_cons (s : State) (c : Command) (cs : List Command) :
    s.runCommands (c :: cs) = ((s.command c).1).runCommands cs := rfl

/-- What is kept by every command of a list is kept by the list. -/
theorem State.runCommands_induction {P : State → Prop} (s : State) (cs : List Command) (h0 : P s)
    (hstep : ∀ t c, c ∈ cs → P t → P (t.command c).1) : P (s.runCommands cs) := by
  induction cs generalizing s with
  | nil => exact h0
  | cons c cs ih =>
    rw [State.runCommands_cons]
    exact ih _ (hstep s c List.mem_cons_self h0) (fun t d hd => hstep t d (List.mem_cons_of_mem _ hd))

end Sys2Proof.Machine
end

