-- ==== Sys2Proof/Laws/History.lean ====
section
/-! SUPPORT. What a history of commands does, said once (spec/46_host_commands.md R220, R226). -/

namespace Sys2Proof.Machine

@[simp] theorem History.state_zero (h : History) (s : State) : h.state s 0 = s := rfl

@[simp] theorem History.state_succ (h : History) (s : State) (n : Nat) :
    h.state s (n + 1) = ((h.state s n).command (h n)).1 := rfl

/-- A history from its second command on. -/
theorem History.state_succ' (h : History) (s : State) (n : Nat) :
    h.state s (n + 1) = History.state (fun k => h (k + 1)) (s.command (h 0)).1 n := by
  induction n with
  | zero => rfl
  | succ n ih => rw [History.state_succ, ih]; rfl

/-- The start of a history is the fold of R220 over the list of its first commands. -/
theorem History.state_eq_runCommands (h : History) (s : State) (n : Nat) :
    h.state s n = s.runCommands ((List.range n).map h) := by
  induction n with
  | zero => rfl
  | succ n ih =>
    rw [History.state_succ, ih, List.range_succ, List.map_append]
    simp [State.runCommands, List.foldl_append]

/-- What holds at a point of a history and is kept by every command from there on holds ever after. -/
theorem History.state_induction {P : State → Prop} (h : History) (s : State) (n : Nat) (h0 : P (h.state s n))
    (hstep : ∀ k, n ≤ k → P (h.state s k) → P (h.state s (k + 1))) : ∀ m, n ≤ m → P (h.state s m) := by
  intro m hm
  induction m, hm using Nat.le_induction with
  | base => exact h0
  | succ k hk ih => exact hstep k hk ih

/-- What is fetched depends on the configuration, memory and `PC` alone (R84, R100). -/
theorem State.fetch_congr {s t : State} (hc : t.config = s.config) (hm : t.mem = s.mem) (hp : t.pc = s.pc) :
    t.fetch = s.fetch := by
  have hb : t.byteAt = s.byteAt := funext (State.byteAt_congr hc hm)
  unfold State.fetch State.inBounds State.fetchBytes State.bytesAt State.memSize
  rw [hb, hc, hp]

/-- A waiting step with no event pending takes the snapshot and nothing else (R209). -/
theorem State.waitingStep_of_no_event {s : State} (r : Reg) (hk : s.keysPrev = s.keys) : s.waitingStep r = s := by
  have hit : s.keyHit = none := by
    refine List.find?_eq_none.mpr fun k _ => ?_
    unfold State.keyEvent
    rw [hk]
    split <;> cases s.keys[k] <;> simp
  unfold State.waitingStep
  rw [hit]
  exact congrArg (fun k => { s with keysPrev := k }) hk.symm

end Sys2Proof.Machine
end

