-- ==== Sys2Proof/Laws/Operands.lean ====
section
/-! SUPPORT. What the operand forms of Machine/Operands.lean give, said once. -/

namespace Sys2Proof.Machine

@[simp] theorem toNat_zext16 (nnn : BitVec 12) : (zext16 nnn).toNat = nnn.toNat := by
  unfold zext16; simp; omega

@[simp] theorem val_lowNibble (b : Byte) : (lowNibble b).val = b.toNat % 16 := by simp [lowNibble]

/-- A skip writes the program counter alone: two on, or two and the skip width on. -/
theorem State.skipIf_eq (s : State) (taken : Bool) :
    s.skipIf taken = { s with pc := s.pc + 2 + (if taken = true then s.skipWidth else 0) } := by
  unfold State.skipIf State.goto State.npc
  cases taken <;> simp

theorem State.toNat_indexAfter (s : State) (x : Reg) :
    (s.indexAfter x).toNat =
      if s.config.quirks.loadStoreIncrementsIndex then (s.i.toNat + x.val + 1) % 65536 else s.i.toNat := by
  unfold State.indexAfter
  split
  · rw [BitVec.toNat_add]; simp; omega
  · rfl

/-- The bytes read from `a` upward. -/
theorem State.getD_bytesAt (s : State) (a n k : Nat) (h : k < n) : (s.bytesAt a n).getD k 0 = s.byteAt (a + k) := by
  simp [State.bytesAt, h]

/-- The register of index `k` gives byte `k` of the run. -/
theorem State.getD_spanBytes (s : State) (x y : Reg) (k : Nat) (h : k < spanCount x y) :
    (s.spanBytes x y).getD k 0 = s.reg (spanReg x y k) := by
  simp [State.spanBytes, spanRegs, h]

theorem spanReg_zero_val (x k : Reg) : spanReg 0 x k.val = k := by
  unfold spanReg
  rw [if_pos (Fin.zero_le x)]
  ext; simp

/-- The registers of a run are those between its ends. -/
theorem mem_spanRegs (x y r : Reg) : r ∈ spanRegs x y ↔ (x ≤ r ∧ r ≤ y) ∨ (y ≤ r ∧ r ≤ x) := by
  have hx := x.isLt
  have hy := y.isLt
  have hr := r.isLt
  simp only [spanRegs, List.mem_map, List.mem_range, spanCount, Fin.le_def]
  constructor
  · rintro ⟨k, hk, rfl⟩
    unfold spanReg
    split <;> rename_i h <;> rw [Fin.le_def] at h <;> simp only [Fin.ofNat] <;> omega
  · intro h
    by_cases hxy : x ≤ y
    · rw [Fin.le_def] at hxy
      refine ⟨r.val - x.val, by omega, ?_⟩
      unfold spanReg
      rw [if_pos (Fin.le_def.mpr hxy)]
      ext; simp only [Fin.ofNat]; omega
    · rw [Fin.le_def] at hxy
      refine ⟨x.val - r.val, by omega, ?_⟩
      unfold spanReg
      rw [if_neg (by rw [Fin.le_def]; exact hxy)]
      ext; simp only [Fin.ofNat]; omega

/-- The register at distance `r - x` upward in a run is `r`. -/
theorem spanReg_up (x y r : Reg) (h1 : x ≤ r) (h2 : r ≤ y) : spanReg x y (r.val - x.val) = r := by
  have hr := r.isLt
  rw [Fin.le_def] at h1 h2
  unfold spanReg
  rw [if_pos (by rw [Fin.le_def]; omega)]
  ext; simp only [Fin.ofNat]; omega

/-- The register at distance `x - r` downward in a run is `r`. -/
theorem spanReg_down (x y r : Reg) (h1 : y ≤ r) (h2 : r ≤ x) : spanReg x y (x.val - r.val) = r := by
  have hx := x.isLt
  rw [Fin.le_def] at h1 h2
  unfold spanReg
  split
  · rename_i h; rw [Fin.le_def] at h; ext; simp only [Fin.ofNat]; omega
  · ext; simp only [Fin.ofNat]; omega

/-- A list of register writes changes the general registers alone. -/
theorem State.setRegs_eq (s : State) (ps : List (Reg × Byte)) : s.setRegs ps = { s with v := (s.setRegs ps).v } := by
  induction ps generalizing s with
  | nil => rfl
  | cons p ps ih =>
    obtain ⟨x, b⟩ := p
    simp only [State.setRegs]
    rw [ih]
    rfl

/-- Loading a run of registers changes the general registers alone. -/
theorem State.loadSpan_eq (s : State) (x y : Reg) (bs : List Byte) :
    s.loadSpan x y bs = { s with v := (s.loadSpan x y bs).v } := s.setRegs_eq _

/-- Writing a logic result changes the general registers alone. -/
theorem State.setLogic_eq (s : State) (x : Reg) (b : Byte) : s.setLogic x b = { s with v := (s.setLogic x b).v } := by
  unfold State.setLogic; split <;> rfl

/-! ## Sprites -/

theorem State.spriteRows_le (s : State) (n : Nibble) : s.spriteRows n ≤ 16 := by
  have := n.isLt
  unfold State.spriteRows; split <;> omega

theorem State.spriteRowBytes_le (s : State) (n : Nibble) : s.spriteRowBytes n ≤ 2 := by
  unfold State.spriteRowBytes; split <;> omega

/-- The place of a selected plane: second only for plane 1 when plane 0 is selected too. -/
theorem State.planeRank_eq (s : State) (p : Fin 2) (h : s.isSelected p = true) :
    s.planeRank p = if p = 1 ∧ s.planeMask.getLsbD 0 = true then 1 else 0 := by
  unfold State.planeRank State.selected
  unfold State.isSelected at *
  revert h
  generalize s.planeMask = m
  revert m p
  decide

/-- How many planes are selected. -/
theorem State.length_selected (s : State) :
    s.selected.length = (if s.planeMask.getLsbD 0 then 1 else 0) + (if s.planeMask.getLsbD 1 then 1 else 0) := by
  unfold State.selected State.isSelected
  generalize s.planeMask = m
  revert m
  decide

end Sys2Proof.Machine
end

