-- ==== Sys2Proof/Laws/PerInstr.lean ====
section
/-! SUPPORT. Per-instruction facts about the encoding: its length (spec/30_encoding.md R80, R87) and its row of the opcode
table (R85). -/

namespace Sys2Proof.Laws.Encoding

/-- The bytes of the instruction are as many as its size, and its first word fits a row of the opcode table that has the
instruction's own minimum level. -/
def Statement (i : Instr) : Prop :=
  (encode i).length = i.size ∧ ∃ r ∈ opcodeRows, r.fits (firstWord i) = true ∧ r.minIsa = i.minIsa

/-! ## The masks of the table on an assembled word -/

theorem mask_op_wordXYN (op x y n : Nibble) : wordXYN op x y n &&& 0xF000#16 = wordXYN op 0 0 0 := by
  apply BitVec.eq_of_getLsbD_eq
  intro k hk
  simp only [wordXYN, BitVec.getLsbD_and, BitVec.getLsbD_append]
  interval_cases k <;> simp

theorem mask_opN_wordXYN (op x y n : Nibble) : wordXYN op x y n &&& 0xF00F#16 = wordXYN op 0 0 n := by
  apply BitVec.eq_of_getLsbD_eq
  intro k hk
  simp only [wordXYN, BitVec.getLsbD_and, BitVec.getLsbD_append]
  interval_cases k <;> simp

theorem mask_opXY_wordXYN (op x y n : Nibble) : wordXYN op x y n &&& 0xFFF0#16 = wordXYN op x y 0 := by
  apply BitVec.eq_of_getLsbD_eq
  intro k hk
  simp only [wordXYN, BitVec.getLsbD_and, BitVec.getLsbD_append]
  interval_cases k <;> simp

theorem mask_op_wordXNN (op x : Nibble) (nn : Byte) : wordXNN op x nn &&& 0xF000#16 = wordXNN op 0 0 := by
  apply BitVec.eq_of_getLsbD_eq
  intro k hk
  simp only [wordXNN, BitVec.getLsbD_and, BitVec.getLsbD_append]
  interval_cases k <;> simp

theorem mask_opNN_wordXNN (op x : Nibble) (nn : Byte) : wordXNN op x nn &&& 0xF0FF#16 = wordXNN op 0 nn := by
  apply BitVec.eq_of_getLsbD_eq
  intro k hk
  simp only [wordXNN, BitVec.getLsbD_and, BitVec.getLsbD_append]
  interval_cases k <;> simp

theorem mask_op_wordNNN (op : Nibble) (nnn : BitVec 12) : wordNNN op nnn &&& 0xF000#16 = wordNNN op 0 := by
  apply BitVec.eq_of_getLsbD_eq
  intro k hk
  simp only [wordNNN, BitVec.getLsbD_and, BitVec.getLsbD_append]
  interval_cases k <;> simp

theorem mask_plane_wordXNN (n : BitVec 2) (nn : Byte) : wordXNN 0xF (0#2 ++ n) nn &&& 0xFCFF#16 = wordXNN 0xF 0 nn := by
  apply BitVec.eq_of_getLsbD_eq
  intro k hk
  simp only [wordXNN, BitVec.getLsbD_and, BitVec.getLsbD_append]
  interval_cases k <;> simp

/-- A one-word instruction whose word fits row `k` of the table. -/
theorem statement_of_row {i : Instr} (k : Nat) (hk : k < opcodeRows.length) (hs : (encode i).length = i.size)
    (hf : firstWord i &&& opcodeRows[k].mask = opcodeRows[k].pattern) (hm : opcodeRows[k].minIsa = i.minIsa) :
    Statement i :=
  ⟨hs, opcodeRows[k], List.getElem_mem hk, by simp [OpcodeRow.fits, hf], hm⟩

/-! ## One lemma per constructor -/

theorem scd (n : Nibble) : Statement (.scd n) := statement_of_row 0 (by decide) rfl ((mask_opXY_wordXYN _ _ _ _).trans rfl) rfl
theorem scu (n : Nibble) : Statement (.scu n) := statement_of_row 1 (by decide) rfl ((mask_opXY_wordXYN _ _ _ _).trans rfl) rfl
theorem cls : Statement .cls := statement_of_row 2 (by decide) rfl rfl rfl
theorem ret : Statement .ret := statement_of_row 3 (by decide) rfl rfl rfl
theorem scr : Statement .scr := statement_of_row 4 (by decide) rfl rfl rfl
theorem scl : Statement .scl := statement_of_row 5 (by decide) rfl rfl rfl
theorem exit : Statement .exit := statement_of_row 6 (by decide) rfl rfl rfl
theorem low : Statement .low := statement_of_row 7 (by decide) rfl rfl rfl
theorem high : Statement .high := statement_of_row 8 (by decide) rfl rfl rfl
theorem jp (nnn : BitVec 12) : Statement (.jp nnn) := statement_of_row 9 (by decide) rfl ((mask_op_wordNNN _ _).trans rfl) rfl
theorem call (nnn : BitVec 12) : Statement (.call nnn) := statement_of_row 10 (by decide) rfl ((mask_op_wordNNN _ _).trans rfl) rfl
theorem seImm (x : Reg) (nn : Byte) : Statement (.seImm x nn) := statement_of_row 11 (by decide) rfl ((mask_op_wordXNN _ _ _).trans rfl) rfl
theorem sneImm (x : Reg) (nn : Byte) : Statement (.sneImm x nn) := statement_of_row 12 (by decide) rfl ((mask_op_wordXNN _ _ _).trans rfl) rfl
theorem seReg (x : Reg) (y : Reg) : Statement (.seReg x y) := statement_of_row 13 (by decide) rfl ((mask_opN_wordXYN _ _ _ _).trans rfl) rfl
theorem saveRange (x : Reg) (y : Reg) : Statement (.saveRange x y) := statement_of_row 14 (by decide) rfl ((mask_opN_wordXYN _ _ _ _).trans rfl) rfl
theorem loadRange (x : Reg) (y : Reg) : Statement (.loadRange x y) := statement_of_row 15 (by decide) rfl ((mask_opN_wordXYN _ _ _ _).trans rfl) rfl
theorem ldImm (x : Reg) (nn : Byte) : Statement (.ldImm x nn) := statement_of_row 16 (by decide) rfl ((mask_op_wordXNN _ _ _).trans rfl) rfl
theorem addImm (x : Reg) (nn : Byte) : Statement (.addImm x nn) := statement_of_row 17 (by decide) rfl ((mask_op_wordXNN _ _ _).trans rfl) rfl
theorem ldReg (x : Reg) (y : Reg) : Statement (.ldReg x y) := statement_of_row 18 (by decide) rfl ((mask_opN_wordXYN _ _ _ _).trans rfl) rfl
theorem orReg (x : Reg) (y : Reg) : Statement (.orReg x y) := statement_of_row 19 (by decide) rfl ((mask_opN_wordXYN _ _ _ _).trans rfl) rfl
theorem andReg (x : Reg) (y : Reg) : Statement (.andReg x y) := statement_of_row 20 (by decide) rfl ((mask_opN_wordXYN _ _ _ _).trans rfl) rfl
theorem xorReg (x : Reg) (y : Reg) : Statement (.xorReg x y) := statement_of_row 21 (by decide) rfl ((mask_opN_wordXYN _ _ _ _).trans rfl) rfl
theorem addReg (x : Reg) (y : Reg) : Statement (.addReg x y) := statement_of_row 22 (by decide) rfl ((mask_opN_wordXYN _ _ _ _).trans rfl) rfl
theorem subReg (x : Reg) (y : Reg) : Statement (.subReg x y) := statement_of_row 23 (by decide) rfl ((mask_opN_wordXYN _ _ _ _).trans rfl) rfl
theorem shr (x : Reg) (y : Reg) : Statement (.shr x y) := statement_of_row 24 (by decide) rfl ((mask_opN_wordXYN _ _ _ _).trans rfl) rfl
theorem subnReg (x : Reg) (y : Reg) : Statement (.subnReg x y) := statement_of_row 25 (by decide) rfl ((mask_opN_wordXYN _ _ _ _).trans rfl) rfl
theorem shl (x : Reg) (y : Reg) : Statement (.shl x y) := statement_of_row 26 (by decide) rfl ((mask_opN_wordXYN _ _ _ _).trans rfl) rfl
theorem sneReg (x : Reg) (y : Reg) : Statement (.sneReg x y) := statement_of_row 27 (by decide) rfl ((mask_opN_wordXYN _ _ _ _).trans rfl) rfl
theorem ldI (nnn : BitVec 12) : Statement (.ldI nnn) := statement_of_row 28 (by decide) rfl ((mask_op_wordNNN _ _).trans rfl) rfl
theorem jpV0 (nnn : BitVec 12) : Statement (.jpV0 nnn) := statement_of_row 29 (by decide) rfl ((mask_op_wordNNN _ _).trans rfl) rfl
theorem rnd (x : Reg) (nn : Byte) : Statement (.rnd x nn) := statement_of_row 30 (by decide) rfl ((mask_op_wordXNN _ _ _).trans rfl) rfl
theorem drw (x : Reg) (y : Reg) (n : Nibble) : Statement (.drw x y n) := statement_of_row 31 (by decide) rfl ((mask_op_wordXYN _ _ _ _).trans rfl) rfl
theorem skp (x : Reg) : Statement (.skp x) := statement_of_row 32 (by decide) rfl ((mask_opNN_wordXNN _ _ _).trans rfl) rfl
theorem sknp (x : Reg) : Statement (.sknp x) := statement_of_row 33 (by decide) rfl ((mask_opNN_wordXNN _ _ _).trans rfl) rfl
theorem ldILong (nnnn : Word) : Statement (.ldILong nnnn) := statement_of_row 34 (by decide) rfl
    (show 0xF000#16 &&& 0xFFFF#16 = 0xF000#16 by decide) rfl
theorem plane (n : BitVec 2) : Statement (.plane n) := statement_of_row 35 (by decide) rfl ((mask_plane_wordXNN _ _).trans rfl) rfl
theorem audio : Statement .audio := statement_of_row 36 (by decide) rfl rfl rfl
theorem ldVxDt (x : Reg) : Statement (.ldVxDt x) := statement_of_row 37 (by decide) rfl ((mask_opNN_wordXNN _ _ _).trans rfl) rfl
theorem ldVxK (x : Reg) : Statement (.ldVxK x) := statement_of_row 38 (by decide) rfl ((mask_opNN_wordXNN _ _ _).trans rfl) rfl
theorem ldDtVx (x : Reg) : Statement (.ldDtVx x) := statement_of_row 39 (by decide) rfl ((mask_opNN_wordXNN _ _ _).trans rfl) rfl
theorem ldStVx (x : Reg) : Statement (.ldStVx x) := statement_of_row 40 (by decide) rfl ((mask_opNN_wordXNN _ _ _).trans rfl) rfl
theorem addIVx (x : Reg) : Statement (.addIVx x) := statement_of_row 41 (by decide) rfl ((mask_opNN_wordXNN _ _ _).trans rfl) rfl
theorem ldFVx (x : Reg) : Statement (.ldFVx x) := statement_of_row 42 (by decide) rfl ((mask_opNN_wordXNN _ _ _).trans rfl) rfl
theorem ldHfVx (x : Reg) : Statement (.ldHfVx x) := statement_of_row 43 (by decide) rfl ((mask_opNN_wordXNN _ _ _).trans rfl) rfl
theorem ldBVx (x : Reg) : Statement (.ldBVx x) := statement_of_row 44 (by decide) rfl ((mask_opNN_wordXNN _ _ _).trans rfl) rfl
theorem pitch (x : Reg) : Statement (.pitch x) := statement_of_row 45 (by decide) rfl ((mask_opNN_wordXNN _ _ _).trans rfl) rfl
theorem storeRegs (x : Reg) : Statement (.storeRegs x) := statement_of_row 46 (by decide) rfl ((mask_opNN_wordXNN _ _ _).trans rfl) rfl
theorem loadRegs (x : Reg) : Statement (.loadRegs x) := statement_of_row 47 (by decide) rfl ((mask_opNN_wordXNN _ _ _).trans rfl) rfl
theorem storeFlags (x : Reg) : Statement (.storeFlags x) := statement_of_row 48 (by decide) rfl ((mask_opNN_wordXNN _ _ _).trans rfl) rfl
theorem loadFlags (x : Reg) : Statement (.loadFlags x) := statement_of_row 49 (by decide) rfl ((mask_opNN_wordXNN _ _ _).trans rfl) rfl

end Sys2Proof.Laws.Encoding
end

