-- ==== Sys2Proof/Laws/Planes.lean ====
section
/-! SUPPORT. What the operations on the bitplanes do to each pixel. -/

namespace Sys2Proof.Machine

@[simp] theorem Plane.pixel_blank (x y : Nat) : Plane.pixel Plane.blank x y = false := by
  unfold Plane.pixel Plane.blank
  by_cases h : y < 64 <;> simp [h]

theorem Plane.pixel_of_row_ge (p : Plane) {x y : Nat} (h : 64 ≤ y) : Plane.pixel p x y = false := by
  unfold Plane.pixel
  rw [Vector.getElem?_eq_none (by omega)]; simp

theorem Plane.pixel_of_col_ge (p : Plane) {x y : Nat} (h : 128 ≤ x) : Plane.pixel p x y = false := by
  unfold Plane.pixel
  exact BitVec.getLsbD_of_ge _ _ h

/-- Two planes with the same pixels are the same plane. -/
theorem Plane.ext_pixel {p q : Plane} (h : ∀ x y, x < 128 → y < 64 → Plane.pixel p x y = Plane.pixel q x y) : p = q := by
  apply Vector.ext
  intro y hy
  apply BitVec.eq_of_getLsbD_eq
  intro x hx
  simpa [Plane.pixel, hy] using h x y hx hy

/-- Flipping a pixel inside the buffer changes that pixel and no other. -/
theorem Plane.pixel_flip (p : Plane) {x y : Nat} (hx : x < 128) (hy : y < 64) (x' y' : Nat) :
    Plane.pixel (Plane.flip p x y) x' y' = (Plane.pixel p x' y' ^^ decide (x = x' ∧ y = y')) := by
  by_cases hy' : y' < 64
  · by_cases hx' : x' < 128
    · unfold Plane.flip Plane.pixel
      rw [Vector.getElem?_setIfInBounds]
      by_cases h : y = y'
      · subst h
        simp only [hy, if_true, Option.getD_some, BitVec.getLsbD_xor, BitVec.getLsbD_shiftLeft, BitVec.getLsbD_one,
          and_true, hx', decide_true, Bool.true_and]
        congr 1
        by_cases h2 : x = x'
        · subst h2; simp
        · by_cases h3 : x' < x
          · simp [h2, h3]
          · have : x' - x ≠ 0 := by omega
            simp [h2, this]
      · simp [h]
    · rw [Plane.pixel_of_col_ge _ (by omega), Plane.pixel_of_col_ge _ (by omega)]
      have : x ≠ x' := by omega
      simp [this]
  · rw [Plane.pixel_of_row_ge _ (by omega), Plane.pixel_of_row_ge _ (by omega)]
    have : y ≠ y' := by omega
    simp [this]

theorem getLsbD_rowBits (f : Nat → Bool) (n x : Nat) (hn : n ≤ 128) :
    (rowBits f n).getLsbD x = (decide (x < n) && f x) := by
  induction n with
  | zero => simp [rowBits]
  | succ n ih =>
    simp only [rowBits, BitVec.getLsbD_or, ih (by omega)]
    by_cases h : x = n
    · subst h
      have h128 : x < 128 := by omega
      cases f x <;> simp [h128]
    · have hb : (if f n then 1#128 <<< n else 0#128).getLsbD x = false := by
        split
        · simp only [BitVec.getLsbD_shiftLeft, BitVec.getLsbD_one]
          by_cases h3 : x < n
          · simp [h3]
          · have : x - n ≠ 0 := by omega
            simp [this]
        · simp
      rw [hb, Bool.or_false]
      congr 1
      exact decide_eq_decide.mpr (by omega)

/-- A tabulated plane has the pixels of its function, inside the buffer. -/
theorem Plane.pixel_tabulate (f : Nat → Nat → Bool) (x y : Nat) :
    Plane.pixel (Plane.tabulate f) x y = (decide (x < 128 ∧ y < 64) && f x y) := by
  by_cases hy : y < 64
  · unfold Plane.pixel Plane.tabulate
    simp [hy, getLsbD_rowBits]
  · rw [Plane.pixel_of_row_ge _ (by omega)]
    simp [hy]

/-! ## Selected planes -/

theorem State.getElem_mapSelected (s : State) (f : Fin 2 → Plane → Plane) (p : Fin 2) :
    (s.mapSelected f)[p] = if s.isSelected p then f p s.planes[p] else s.planes[p] := by
  simp [State.mapSelected]

theorem State.mem_selected (s : State) (p : Fin 2) : p ∈ s.selected ↔ s.isSelected p = true := by
  unfold State.selected
  rw [List.mem_filter]
  exact ⟨fun h => h.2, fun h => ⟨by fin_cases p <;> simp, h⟩⟩

/-! ## The blit -/

/-- The blit flips each listed pixel once and reports whether one of them was on, when all are inside the buffer and none is
listed twice. -/
theorem blit_foldl (pixels : List (Nat × Nat)) (hn : pixels.Nodup) (hin : ∀ q ∈ pixels, q.1 < 128 ∧ q.2 < 64)
    (acc : Plane × Bool) :
    (∀ x y, Plane.pixel (pixels.foldl blitPixel acc).1 x y = (Plane.pixel acc.1 x y ^^ decide ((x, y) ∈ pixels))) ∧
      (pixels.foldl blitPixel acc).2 = (acc.2 || pixels.any fun q => Plane.pixel acc.1 q.1 q.2) := by
  induction pixels generalizing acc with
  | nil => simp
  | cons q qs ih =>
    obtain ⟨qx, qy⟩ := q
    simp only [List.nodup_cons] at hn
    have hq := hin (qx, qy) List.mem_cons_self
    have hflip := fun x y => Plane.pixel_flip acc.1 hq.1 hq.2 x y
    obtain ⟨h1, h2⟩ := ih hn.2 (fun r hr => hin r (List.mem_cons_of_mem _ hr)) (blitPixel acc (qx, qy))
    constructor
    · intro x y
      simp only [List.foldl_cons]
      rw [h1 x y]
      simp only [blitPixel]
      rw [hflip x y, Bool.xor_assoc]
      congr 1
      by_cases h : (qx, qy) = (x, y)
      · cases h; simp [hn.1]
      · have hne : ¬(qx = x ∧ qy = y) := fun hh => h (by rw [hh.1, hh.2])
        have hne' : (x, y) ≠ (qx, qy) := fun hh => h hh.symm
        simp [hne, List.mem_cons, hne']
    · simp only [List.foldl_cons, List.any_cons]
      rw [h2]
      simp only [blitPixel, Bool.or_assoc]
      congr 2
      rw [Bool.eq_iff_iff, List.any_eq_true, List.any_eq_true]
      have hsame : ∀ r ∈ qs, Plane.pixel (Plane.flip acc.1 qx qy) r.1 r.2 = Plane.pixel acc.1 r.1 r.2 := by
        intro r hr
        rw [hflip]
        have : ¬(qx = r.1 ∧ qy = r.2) := fun hh => hn.1 (by rw [show (qx, qy) = r from Prod.ext hh.1 hh.2]; exact hr)
        simp [this]
      constructor
      · rintro ⟨r, hr, h⟩; exact ⟨r, hr, by rw [← hsame r hr]; exact h⟩
      · rintro ⟨r, hr, h⟩; exact ⟨r, hr, by rw [hsame r hr]; exact h⟩

theorem State.windowWidth_pos (s : State) : 0 < s.windowWidth := by unfold State.windowWidth; split <;> omega
theorem State.windowHeight_pos (s : State) : 0 < s.windowHeight := by unfold State.windowHeight; split <;> omega
theorem State.windowWidth_le (s : State) : s.windowWidth ≤ 128 := by unfold State.windowWidth; split <;> omega
theorem State.windowHeight_le (s : State) : s.windowHeight ≤ 64 := by unfold State.windowHeight; split <;> omega
theorem State.le_windowWidth (s : State) : 64 ≤ s.windowWidth := by unfold State.windowWidth; split <;> omega
theorem State.le_windowHeight (s : State) : 32 ≤ s.windowHeight := by unfold State.windowHeight; split <;> omega

/-- A placed pixel lies in the window. -/
theorem State.placePixel_in_window {s : State} {px py : Nat} {q : Nat × Nat} (h : s.placePixel px py = some q) :
    q.1 < s.windowWidth ∧ q.2 < s.windowHeight := by
  unfold State.placePixel at h
  split at h
  · cases h; exact ⟨Nat.mod_lt _ s.windowWidth_pos, Nat.mod_lt _ s.windowHeight_pos⟩
  · split at h
    · next h2 => cases h; exact h2
    · cases h

/-- Two offsets of at most 16 from one start land on one pixel only when they are the same. -/
theorem State.placePixel_injective {s : State} {x0 y0 c1 r1 c2 r2 : Nat} {q : Nat × Nat}
    (h1 : s.placePixel (x0 + c1) (y0 + r1) = some q) (h2 : s.placePixel (x0 + c2) (y0 + r2) = some q)
    (hc1 : c1 < 16) (hc2 : c2 < 16) (hr1 : r1 < 16) (hr2 : r2 < 16) : c1 = c2 ∧ r1 = r2 := by
  have hw := s.le_windowWidth
  have hh := s.le_windowHeight
  unfold State.placePixel at h1 h2
  split at h1
  · rw [if_pos (by assumption)] at h2
    injection h1 with h1
    injection h2 with h2
    rw [← h2] at h1
    injection h1 with ha hb
    have ea := Nat.ModEq.add_left_cancel' x0 ha
    have eb := Nat.ModEq.add_left_cancel' y0 hb
    unfold Nat.ModEq at ea eb
    rw [Nat.mod_eq_of_lt (by omega), Nat.mod_eq_of_lt (by omega)] at ea eb
    exact ⟨ea, eb⟩
  · rw [if_neg (by assumption)] at h2
    split at h1
    · split at h2
      · injection h1 with h1
        injection h2 with h2
        rw [← h2] at h1
        injection h1 with ha hb
        omega
      · cases h2
    · cases h1

/-- The pixels a block of sprite data touches: those where a set bit lands. -/
theorem State.mem_spritePixels (s : State) (x y : Reg) (n : Nibble) (base : Nat) (q : Nat × Nat) :
    q ∈ s.spritePixels x y n base ↔
      ∃ r c, r < s.spriteRows n ∧ c < 8 * s.spriteRowBytes n ∧ s.spriteBit n base r c = true ∧
        s.placePixel (s.spriteX x + c) (s.spriteY y + r) = some q := by
  simp only [State.spritePixels, List.mem_flatMap, List.mem_range, List.mem_filterMap]
  constructor
  · rintro ⟨r, hr, c, hc, h⟩
    split at h
    · exact ⟨r, c, hr, hc, by assumption, h⟩
    · cases h
  · rintro ⟨r, c, hr, hc, hb, h⟩
    exact ⟨r, hr, c, hc, by rw [if_pos hb]; exact h⟩

/-- No pixel is touched twice within one plane (spec/44_display.md R181, corner cases). -/
theorem State.nodup_spritePixels (s : State) (x y : Reg) (n : Nibble) (base : Nat) :
    (s.spritePixels x y n base).Nodup := by
  have hrows := s.spriteRows_le n
  have hbytes := s.spriteRowBytes_le n
  unfold State.spritePixels
  rw [List.nodup_flatMap]
  constructor
  · intro r hr
    rw [List.mem_range] at hr
    unfold List.Nodup
    rw [List.pairwise_filterMap]
    refine List.Pairwise.imp_of_mem ?_ List.nodup_range
    intro c1 c2 hc1 hc2 hne q1 h1 q2 h2 hq
    rw [List.mem_range] at hc1 hc2
    split at h1
    · split at h2
      · subst hq
        exact hne (State.placePixel_injective h1 h2 (by omega) (by omega) (by omega) (by omega)).1
      · cases h2
    · cases h1
  · refine List.Pairwise.imp_of_mem ?_ List.nodup_range
    intro r1 r2 hr1 hr2 hne
    rw [List.mem_range] at hr1 hr2
    intro q h1 h2
    simp only [List.mem_filterMap, List.mem_range] at h1 h2
    obtain ⟨c1, hc1, h1⟩ := h1
    obtain ⟨c2, hc2, h2⟩ := h2
    split at h1
    · split at h2
      · exact hne (State.placePixel_injective h1 h2 (by omega) (by omega) (by omega) (by omega)).2
      · cases h2
    · cases h1

/-- Everything a draw does to one plane: each pixel a set bit lands on is flipped, and the collision says whether one of
them was on. -/
theorem State.drawPlane_spec (s : State) (x y : Reg) (n : Nibble) (p : Fin 2) :
    (∀ px py, Plane.pixel (s.drawPlane x y n p).1 px py =
      (Plane.pixel s.planes[p] px py ^^ decide ((px, py) ∈ s.spritePixels x y n (s.spriteBase n p)))) ∧
    (s.drawPlane x y n p).2 =
      (s.spritePixels x y n (s.spriteBase n p)).any fun q => Plane.pixel s.planes[p] q.1 q.2 := by
  have hin : ∀ q ∈ s.spritePixels x y n (s.spriteBase n p), q.1 < 128 ∧ q.2 < 64 := by
    intro q hq
    obtain ⟨r, c, _, _, _, h⟩ := (s.mem_spritePixels x y n _ q).mp hq
    have h1 := State.placePixel_in_window h
    have h2 := s.windowWidth_le
    have h3 := s.windowHeight_le
    omega
  obtain ⟨h1, h2⟩ := blit_foldl _ (s.nodup_spritePixels x y n _) hin (s.planes[p], false)
  exact ⟨h1, h2⟩

/-! ## The scrolls -/

/-- Every pixel after ScrollWindow on one plane. -/
theorem pixel_scrollPlane (wraps : Bool) (w h : Nat) (dx dy : Int) (old : Plane) (x y : Nat) (hx : x < 128) (hy : y < 64) :
    Plane.pixel (scrollPlane wraps w h dx dy old) x y =
      (if x < w ∧ y < h then
        if wraps = true then Plane.pixel old (((x : Int) - dx) % w).toNat (((y : Int) - dy) % h).toNat
        else if 0 ≤ (x : Int) - dx ∧ (x : Int) - dx < w ∧ 0 ≤ (y : Int) - dy ∧ (y : Int) - dy < h
          then Plane.pixel old ((x : Int) - dx).toNat ((y : Int) - dy).toNat
        else false
      else Plane.pixel old x y) := by
  unfold scrollPlane
  rw [Plane.pixel_tabulate]
  simp [hx, hy]

end Sys2Proof.Machine
end

