-- ==== Sys2Proof/Tests/Slice0.lean ====
section
/-! SUPPORT. Small tests. Expected results are the vectors of spec/95_test_vectors.md (named V-...) or the encodings and
corner cases of the rule named. The second half gives, for every statement with hypotheses, a state and operands that meet them. -/

namespace Sys2Proof.Tests

open Sys2Proof Sys2Proof.Machine

/-- After CONSTRUCT with the defaults and a quirk set. -/
def base (q : Quirks) : State := State.construct (configOf q)

/-- The default configuration with 65536 bytes. -/
def wide (q : Quirks) : State := State.construct { configOf q with memSize := .extended }

/-- One STEP on a word placed at the program counter. -/
def one (s : State) (w : Nat) : Option State := nextOf (step (s.withFetchWord 16 w))

/-- The fault of one STEP on a word placed at the program counter. -/
def oneFault (s : State) (w : Nat) : Option Fault := faultOf (step (s.withFetchWord 16 w))

/-- A state with some registers set. -/
def regs (s : State) (ps : List (Reg × Byte)) : State := s.setRegs ps

/-- A plane with some pixels on. -/
def dots (ps : List (Nat × Nat)) : Plane := ps.foldl (fun p q => Plane.flip p q.1 q.2) Plane.blank

/-- In plane 0 of a state the first pixels are on and the second are off. -/
def shows (on off : List (Nat × Nat)) (t : State) : Bool :=
  on.all (fun q => Plane.pixel t.planes[0] q.1 q.2) && off.all (fun q => !Plane.pixel t.planes[0] q.1 q.2)

/-! ## Ill-formed instructions -/

/-- R85, column min isa: every Super-Chip row is refused at `isa = Chip8`. -/
theorem test_wf_refuses_superchip_at_chip8 :
    [Instr.scd 1, .scr, .scl, .exit, .low, .high, .ldHfVx 0, .storeFlags 1, .loadFlags 1].all
      (fun i => !i.wf .chip8 && i.wf .superChip) = true := by decide

/-- R85, column min isa: every XO-Chip row is refused at `isa = SuperChip`. -/
theorem test_wf_refuses_xochip_at_superchip :
    [Instr.scu 1, .saveRange 1 2, .loadRange 1 2, .ldILong 5, .plane 1, .audio, .pitch 0].all
      (fun i => !i.wf .superChip && i.wf .xoChip) = true := by decide

/-! ## A written-out word for every constructor (R82, R85) -/

theorem test_decode_family_0 :
    decode .superChip [0x00, 0xC5] = .instr (.scd 5) [] ∧ decode .xoChip [0x00, 0xD6] = .instr (.scu 6) [] ∧
    decode .chip8 [0x00, 0xE0] = .instr .cls [] ∧ decode .chip8 [0x00, 0xEE] = .instr .ret [] ∧
    decode .superChip [0x00, 0xFB] = .instr .scr [] ∧ decode .superChip [0x00, 0xFC] = .instr .scl [] ∧
    decode .superChip [0x00, 0xFD] = .instr .exit [] ∧ decode .superChip [0x00, 0xFE] = .instr .low [] ∧
    decode .superChip [0x00, 0xFF] = .instr .high [] := by decide

theorem test_decode_families_1_to_7 :
    decode .chip8 [0x12, 0x04] = .instr (.jp 0x204) [] ∧ decode .chip8 [0x2A, 0xBC] = .instr (.call 0xABC) [] ∧
    decode .chip8 [0x3A, 0x05] = .instr (.seImm 10 5) [] ∧ decode .chip8 [0x4B, 0xF6] = .instr (.sneImm 11 0xF6) [] ∧
    decode .chip8 [0x51, 0x20] = .instr (.seReg 1 2) [] ∧ decode .xoChip [0x51, 0x32] = .instr (.saveRange 1 3) [] ∧
    decode .xoChip [0x53, 0x13] = .instr (.loadRange 3 1) [] ∧ decode .chip8 [0x60, 0xFE] = .instr (.ldImm 0 0xFE) [] ∧
    decode .chip8 [0x71, 0xFF] = .instr (.addImm 1 0xFF) [] := by decide

theorem test_decode_family_8 :
    decode .chip8 [0x81, 0x20] = .instr (.ldReg 1 2) [] ∧ decode .chip8 [0x81, 0x21] = .instr (.orReg 1 2) [] ∧
    decode .chip8 [0x81, 0x22] = .instr (.andReg 1 2) [] ∧ decode .chip8 [0x81, 0x23] = .instr (.xorReg 1 2) [] ∧
    decode .chip8 [0x81, 0x24] = .instr (.addReg 1 2) [] ∧ decode .chip8 [0x81, 0x25] = .instr (.subReg 1 2) [] ∧
    decode .chip8 [0x81, 0x26] = .instr (.shr 1 2) [] ∧ decode .chip8 [0x81, 0x27] = .instr (.subnReg 1 2) [] ∧
    decode .chip8 [0x81, 0x2E] = .instr (.shl 1 2) [] := by decide

theorem test_decode_families_9_to_e :
    decode .chip8 [0x91, 0x20] = .instr (.sneReg 1 2) [] ∧ decode .chip8 [0xA3, 0x01] = .instr (.ldI 0x301) [] ∧
    decode .chip8 [0xB2, 0xA0] = .instr (.jpV0 0x2A0) [] ∧ decode .chip8 [0xC4, 0x0F] = .instr (.rnd 4 0x0F) [] ∧
    decode .chip8 [0xD1, 0x25] = .instr (.drw 1 2 5) [] ∧ decode .chip8 [0xE7, 0x9E] = .instr (.skp 7) [] ∧
    decode .chip8 [0xE7, 0xA1] = .instr (.sknp 7) [] := by decide

theorem test_decode_family_f_low :
    decode .xoChip [0xF0, 0x00, 0x12, 0x34] = .instr (.ldILong 0x1234) [] ∧
    decode .xoChip [0xF3, 0x01] = .instr (.plane 3) [] ∧ decode .xoChip [0xF0, 0x02] = .instr .audio [] ∧
    decode .chip8 [0xF4, 0x07] = .instr (.ldVxDt 4) [] ∧ decode .chip8 [0xF3, 0x0A] = .instr (.ldVxK 3) [] ∧
    decode .chip8 [0xF3, 0x15] = .instr (.ldDtVx 3) [] ∧ decode .chip8 [0xF0, 0x18] = .instr (.ldStVx 0) [] ∧
    decode .chip8 [0xF2, 0x1E] = .instr (.addIVx 2) [] := by decide

theorem test_decode_family_f_high :
    decode .chip8 [0xF5, 0x29] = .instr (.ldFVx 5) [] ∧ decode .superChip [0xF6, 0x30] = .instr (.ldHfVx 6) [] ∧
    decode .chip8 [0xF7, 0x33] = .instr (.ldBVx 7) [] ∧ decode .xoChip [0xF1, 0x3A] = .instr (.pitch 1) [] ∧
    decode .chip8 [0xF8, 0x55] = .instr (.storeRegs 8) [] ∧ decode .chip8 [0xF9, 0x65] = .instr (.loadRegs 9) [] ∧
    decode .superChip [0xFA, 0x75] = .instr (.storeFlags 10) [] ∧
    decode .superChip [0xFB, 0x85] = .instr (.loadFlags 11) [] := by decide

/-- V-FLT-3, V-MEM-28, V-MEM-32, V-DSP-37, V-KEY-6: unknown words. -/
theorem test_decode_unknown_words :
    decode .chip8 [0x80, 0x08] = .unknown 0x8008 ∧ decode .chip8 [0xE1, 0x9F] = .unknown 0xE19F ∧
    decode .chip8 [0x51, 0x21] = .unknown 0x5121 ∧ decode .chip8 [0x91, 0x21] = .unknown 0x9121 ∧
    decode .chip8 [0x01, 0x23] = .unknown 0x0123 ∧ decode .superChip [0x51, 0x32] = .unknown 0x5132 ∧
    decode .chip8 [0xF1, 0x75] = .unknown 0xF175 ∧ decode .xoChip [0xF4, 0x01] = .unknown 0xF401 ∧
    decode .xoChip [0xF1, 0x02] = .unknown 0xF102 := by decide

/-! ## Control transfer -/

/-- V-CF-1. -/
theorem test_ret : (one { base presetChip8 with sp := 1, stack := [0x0206] } 0x00EE).map (fun t => (t.pc, t.sp)) =
    some (0x0206, 0) := by decide

/-- V-CF-2. -/
theorem test_ret_empty : oneFault (base presetChip8) 0x00EE = some .stackUnderflow := by decide

/-- V-CF-3. -/
theorem test_jp : (one { base presetChip8 with pc := 0x020A } 0x1204).map (·.pc) = some 0x0204 := by decide

/-- V-CF-6. -/
theorem test_call : (one { base presetChip8 with pc := 0x0204 } 0x2210).map (fun t => (t.pc, t.sp, t.stack[0]?)) =
    some (0x0210, 1, some 0x0206) := by decide

/-- V-CF-5. -/
theorem test_call_full : oneFault { base presetChip8 with sp := 16 } 0x2300 = some .stackOverflow := by decide

/-- V-CF-7, V-CF-8. -/
theorem test_jp_v0 :
    (one (regs (base presetChip8) [(0, 0x04), (3, 0x10)]) 0xB300).map (·.pc) = some 0x0304 ∧
    (one (regs (base presetSchip11) [(0, 0x04), (3, 0x10)]) 0xB300).map (·.pc) = some 0x0310 := by decide

/-- V-CF-9: the sum is not cut to 12 bits. -/
theorem test_jp_v0_beyond : (one (regs (base presetChip8) [(0, 0xFF)]) 0xBFFF).map (·.pc) = some 0x10FE := by decide

/-- V-CF-10, V-CF-11. -/
theorem test_se_imm :
    (one { base presetChip8 with pc := 0x0208 } 0x3100).map (·.pc) = some 0x020C ∧
    (one (regs { base presetChip8 with pc := 0x0208 } [(1, 1)]) 0x3100).map (·.pc) = some 0x020A := by decide

/-- V-CF-12, V-CF-13. -/
theorem test_sne_imm :
    (one (regs { base presetChip8 with pc := 0x0300 } [(10, 5)]) 0x4A05).map (·.pc) = some 0x0302 ∧
    (one (regs { base presetChip8 with pc := 0x0300 } [(10, 6)]) 0x4A05).map (·.pc) = some 0x0304 := by decide

/-- V-CF-14, V-CF-15. -/
theorem test_se_reg :
    (one (regs (base presetChip8) [(1, 7), (2, 7)]) 0x5120).map (·.pc) = some 0x0204 ∧
    (one (regs (base presetChip8) [(1, 7), (2, 8)]) 0x5120).map (·.pc) = some 0x0202 := by decide

/-- V-CF-16, V-CF-17. -/
theorem test_sne_reg :
    (one (regs (base presetChip8) [(1, 7), (2, 8)]) 0x9120).map (·.pc) = some 0x0204 ∧
    (one (regs (base presetChip8) [(1, 7)]) 0x9110).map (·.pc) = some 0x0202 := by decide

/-- V-CF-18. -/
theorem test_exit : (one { base presetSchip11 with pc := 0x0230 } 0x00FD).map (·.pc) = some 0x0230 := by decide

/-- Program P8 at 0x206: the skip passes `F000 0300` whole at `isa = XOChip`; below it passes two bytes (R109). -/
theorem test_skip_over_long :
    (nextOf (step (((base presetXochip).storeBytes 0x200 [0x30, 0x00, 0xF0, 0x00])))).map (·.pc) = some 0x0206 ∧
    (nextOf (step (((base presetSchip11).storeBytes 0x200 [0x30, 0x00, 0xF0, 0x00])))).map (·.pc) = some 0x0204 := by decide

/-! ## Arithmetic and logic -/

/-- R140, example. -/
theorem test_ld_imm : (one (base presetChip8) 0x60FE).map (fun t => (t.reg 0, t.pc)) = some (0xFE, 0x0202) := by decide

/-- R141, example and corner case: no carry is kept. -/
theorem test_add_imm :
    (one (regs (base presetChip8) [(1, 5)]) 0x71FF).map (fun t => (t.reg 1, t.reg 15)) = some (4, 0) := by decide

/-- R142, example. -/
theorem test_ld_reg : (one (regs (base presetChip8) [(2, 9)]) 0x8120).map (·.reg 1) = some 9 := by decide

/-- R143, example: with the quirk and without. -/
theorem test_or :
    (one (regs (base presetChip8) [(1, 0x0C), (2, 0x0A), (15, 1)]) 0x8121).map (fun t => (t.reg 1, t.reg 15)) =
      some (0x0E, 0) ∧
    (one (regs (base presetXochip) [(1, 0x0C), (2, 0x0A), (15, 1)]) 0x8121).map (fun t => (t.reg 1, t.reg 15)) =
      some (0x0E, 1) := by decide

/-- R144, example. -/
theorem test_and : (one (regs (base presetChip8) [(1, 0x0C), (2, 0x0A)]) 0x8122).map (·.reg 1) = some 0x08 := by decide

/-- R145, example. -/
theorem test_xor : (one (regs (base presetChip8) [(1, 0x0C), (2, 0x0A)]) 0x8123).map (·.reg 1) = some 0x06 := by decide

/-- R146, example; and `X = 15`, where the sum is overwritten by the carry. -/
theorem test_add_reg :
    (one (regs (base presetChip8) [(0, 0xFF), (1, 0x02)]) 0x8014).map (fun t => (t.reg 0, t.reg 15)) = some (0x01, 1) ∧
    (one (regs (base presetChip8) [(15, 0x10), (1, 0x02)]) 0x8F14).map (·.reg 15) = some 0 := by decide

/-- R147, example and the corner `a = b`. -/
theorem test_sub_reg :
    (one (regs (base presetChip8) [(0, 5), (1, 7)]) 0x8015).map (fun t => (t.reg 0, t.reg 15)) = some (0xFE, 0) ∧
    (one (regs (base presetChip8) [(0, 7), (1, 7)]) 0x8015).map (fun t => (t.reg 0, t.reg 15)) = some (0, 1) := by decide

/-- R148, example. -/
theorem test_shr :
    (one (regs (base presetSchip11) [(1, 0x05), (2, 0x08)]) 0x8126).map (fun t => (t.reg 1, t.reg 15)) = some (0x02, 1) ∧
    (one (regs (base presetChip8) [(1, 0x05), (2, 0x08)]) 0x8126).map (fun t => (t.reg 1, t.reg 15)) = some (0x04, 0) := by
  decide

/-- R149, example. -/
theorem test_subn_reg :
    (one (regs (base presetChip8) [(0, 5), (1, 7)]) 0x8017).map (fun t => (t.reg 0, t.reg 15)) = some (2, 1) := by decide

/-- R150, example. -/
theorem test_shl :
    (one (regs (base presetSchip11) [(1, 0x81), (2, 0x40)]) 0x812E).map (fun t => (t.reg 1, t.reg 15)) = some (0x02, 1) ∧
    (one (regs (base presetChip8) [(1, 0x81), (2, 0x40)]) 0x812E).map (fun t => (t.reg 1, t.reg 15)) = some (0x80, 0) := by
  decide

/-- R151, corner case: under the mask 0 the result is 0 whatever the generator hands out. -/
theorem test_rnd_mask_zero : (one (regs (base presetChip8) [(4, 9)]) 0xC400).map (fun t => (t.reg 4, t.pc)) =
    some (0, 0x0202) := by
  have h : ∀ b : Byte, b &&& 0 = 0 := by decide
  have hs : step ((regs (base presetChip8) [(4, 9)]).withFetchWord 16 0xC400) =
      exec (.rnd 4 0) ((regs (base presetChip8) [(4, 9)]).withFetchWord 16 0xC400) := by rfl
  unfold one
  rw [hs]
  simp only [exec, execRnd, nextOf, Option.map]
  rw [h]
  decide

/-! ## Index register and memory -/

/-- R160, example. -/
theorem test_ld_i : (one (base presetChip8) 0xA300).map (·.i) = some 0x0300 := by decide

/-- R161, example and the wrap. -/
theorem test_add_i :
    (one (regs { base presetChip8 with i := 0x0FFE } [(2, 3)]) 0xF21E).map (·.i) = some 0x1001 ∧
    (one (regs { base presetChip8 with i := 0xFFFF } [(2, 1)]) 0xF21E).map (fun t => (t.i, t.reg 15)) = some (0, 0) := by
  decide

/-- R163, example; the high nibble of the register does not count. -/
theorem test_ld_f : (one (regs (base presetChip8) [(0, 0x3A)]) 0xF029).map (·.i) = some 0x0082 := by decide

/-- R164, example. -/
theorem test_ld_hf : (one (regs (base presetSchip11) [(0, 3)]) 0xF030).map (·.i) = some 0x00BE := by decide

/-- R167, example. -/
theorem test_ld_b :
    (one (regs { base presetChip8 with i := 0x300 } [(0, 254)]) 0xF033).map (fun t => (t.bytesAt 0x300 4, t.i)) =
      some ([2, 5, 4, 0], 0x300) := by decide

/-- V-MEM-12: the payload is `max(I, MEM_SIZE)`. -/
theorem test_ld_b_outside :
    oneFault (regs { base presetChip8 with i := 0x2000 } [(0, 1)]) 0xF033 = some (.outOfBoundsAccess 0x2000) := by decide

/-- V-MEM-13. -/
theorem test_store_regs :
    (one (regs { base presetChip8 with i := 0x300 } [(0, 1), (1, 2), (2, 3)]) 0xF255).map
      (fun t => (t.bytesAt 0x300 4, t.i)) = some ([1, 2, 3, 0], 0x0303) ∧
    (one (regs { base presetSchip11 with i := 0x300 } [(0, 1), (1, 2), (2, 3)]) 0xF255).map (·.i) = some 0x0300 := by
  decide

/-- V-MEM-14, V-MEM-15, V-MEM-17: the top of memory. -/
theorem test_store_regs_top :
    oneFault { base presetChip8 with i := 0x0FFE } 0xF255 = some (.outOfBoundsAccess 0x1000) ∧
    (one { base presetChip8 with i := 0x0FFD } 0xF255).map (·.i) = some 0x1000 ∧
    oneFault { wide presetXochip with i := 0xFFF1 } 0xFF55 = some (.outOfBoundsAccess 0x10000) := by decide

/-- V-MEM-18. -/
theorem test_load_regs :
    (one ({ base presetChip8 with i := 0x300 }.storeBytes 0x300 [2, 5, 4, 9]) 0xF265).map
      (fun t => (t.reg 0, t.reg 1, t.reg 2, t.reg 3, t.i)) = some (2, 5, 4, 0, 0x0303) := by decide

/-- V-MEM-19. -/
theorem test_load_regs_top :
    (one ({ base presetChip8 with i := 0x0FFF }.storeBytes 0xFFF [0x77]) 0xF065).map (fun t => (t.reg 0, t.i)) =
      some (0x77, 0x1000) ∧
    oneFault { base presetChip8 with i := 0x0FFF } 0xF165 = some (.outOfBoundsAccess 0x1000) := by decide

/-- V-MEM-20, V-MEM-23. -/
theorem test_ld_i_long :
    (nextOf (step ((base presetXochip).storeBytes 0x200 [0xF0, 0x00, 0x12, 0x34]))).map (fun t => (t.i, t.pc)) =
      some (0x1234, 0x0204) ∧
    (nextOf (step ({ base presetXochip with pc := 0x0FFC }.storeBytes 0xFFC [0xF0, 0x00, 0xAB, 0xCD]))).map
      (fun t => (t.i, t.pc)) = some (0xABCD, 0x1000) := by decide

/-- V-MEM-22, V-MEM-24. -/
theorem test_ld_i_long_outside :
    faultOf (step ({ wide presetXochip with pc := 0xFFFE }.storeBytes 0xFFFE [0xF0, 0x00])) =
      some (.outOfBoundsAccess 0x10000) ∧
    faultOf (step ({ base presetXochip with pc := 0x0FFE }.storeBytes 0xFFE [0xF0, 0x00])) =
      some (.outOfBoundsAccess 0x1000) := by decide

/-- V-MEM-25: both directions; `I` stays. -/
theorem test_save_range :
    (one (regs { base presetXochip with i := 0x400 } [(1, 0x11), (2, 0x22), (3, 0x33)]) 0x5132).map
      (fun t => (t.bytesAt 0x400 4, t.i)) = some ([0x11, 0x22, 0x33, 0], 0x400) ∧
    (one (regs { base presetXochip with i := 0x400 } [(1, 0x11), (2, 0x22), (3, 0x33)]) 0x5312).map
      (·.bytesAt 0x400 4) = some [0x33, 0x22, 0x11, 0] := by decide

/-- V-MEM-26. -/
theorem test_load_range :
    (one ({ base presetXochip with i := 0x400 }.storeBytes 0x400 [0x11, 0x22, 0x33]) 0x5133).map
      (fun t => (t.reg 1, t.reg 2, t.reg 3)) = some (0x11, 0x22, 0x33) ∧
    (one ({ base presetXochip with i := 0x400 }.storeBytes 0x400 [0x11, 0x22, 0x33]) 0x5313).map
      (fun t => (t.reg 1, t.reg 2, t.reg 3)) = some (0x33, 0x22, 0x11) := by decide

/-- V-MEM-30. -/
theorem test_store_flags :
    (one (regs (base presetSchip11) [(0, 7), (1, 9), (2, 5)]) 0xF175).map (fun t => (t.flags[0], t.flags[1], t.flags[2])) =
      some (7, 9, 0) := by decide

/-- V-MEM-31. -/
theorem test_load_flags :
    (one { base presetSchip11 with flags := #v[7, 9, 5, 0, 0, 0, 0, 0, 0, 0, 0, 0, 0, 0, 0, 0] } 0xF185).map
      (fun t => (t.reg 0, t.reg 1, t.reg 2)) = some (7, 9, 0) := by decide

/-! ## Display -/

/-- V-DSP-1, V-DSP-2: the selected planes alone, and the whole buffer. -/
theorem test_cls :
    (one { base presetXochip with planeMask := 0b10, planes := #v[dots [(1, 1)], dots [(2, 2)]] } 0x00E0).map
      (fun t => (shows [(1, 1)] [] t, Plane.pixel t.planes[1] 2 2)) = some (true, false) ∧
    (one { base presetChip8 with planes := #v[dots [(1, 1), (100, 50)], Plane.blank] } 0x00E0).map (shows [] [(1, 1), (100, 50)]) =
      some true := by decide +kernel

/-- V-DSP-3, V-DSP-4: clip and wrap at the right edge. -/
theorem test_drw_edge :
    (one ((regs { base presetSchipModern with i := 0x300 } [(0, 60), (1, 31)]).storeBytes 0x300 [0xFF]) 0xD011).map
      (fun t => (shows [(60, 31), (63, 31)] [(64, 31), (0, 31), (59, 31)] t, t.reg 15)) = some (true, 0) ∧
    (one ((regs { base presetXochip with i := 0x300 } [(0, 60), (1, 31)]).storeBytes 0x300 [0xFF]) 0xD011).map
      (shows [(60, 31), (63, 31), (0, 31), (3, 31)] [(64, 31), (4, 31)]) = some true := by
  decide +kernel

/-- V-DSP-8 and V-DSP-9: the collision, and the stall. -/
theorem test_drw_collision_and_stall :
    (one ((regs { base presetSchipModern with i := 0x300, planes := #v[dots [(4, 2)], Plane.blank] }
      [(0, 3), (1, 2)]).storeBytes 0x300 [0xC0]) 0xD011).map (fun t => (shows [(3, 2)] [(4, 2)] t, t.reg 15)) = some (true, 1) ∧
    (one ((regs { base presetChip8 with i := 0x300 } [(0, 3), (1, 2)]).storeBytes 0x300 [0xC0]) 0xD011).map
      (fun t => (shows [(3, 2), (4, 2)] [(2, 2), (5, 2)] t, t.reg 15, t.dwStall, t.pc)) = some (true, 0, true, 0x0202) := by decide +kernel

/-- V-DSP-18, V-DSP-19: the block of each plane. -/
theorem test_drw_planes :
    (one ({ base presetXochip with i := 0x300, planeMask := 0b11 }.storeBytes 0x300 [0x80, 0x40, 0x20, 0x10]) 0xD012).map
      (fun t => (shows [(0, 0), (1, 1)] [(2, 0), (3, 1)] t, Plane.pixel t.planes[1] 2 0, Plane.pixel t.planes[1] 0 0)) =
      some (true, true, false) ∧
    (one ({ base presetXochip with i := 0x300, planeMask := 0b10 }.storeBytes 0x300 [0x80, 0x40, 0x20, 0x10]) 0xD012).map
      (fun t => (shows [] [(0, 0), (1, 1)] t, Plane.pixel t.planes[1] 0 0, Plane.pixel t.planes[1] 1 1)) =
      some (true, true, true) := by decide +kernel

/-- V-DSP-14, V-DSP-10: the 16 x 16 form, and no rows at `isa = Chip8`. -/
theorem test_drw_zero :
    (one ({ base presetSchipModern with i := 0x300 }.storeBytes 0x300
      ([0x80, 0x01] ++ List.replicate 28 0 ++ [0x80, 0x01])) 0xD010).map (shows [(0, 0), (15, 0), (0, 15), (15, 15)] [(1, 0), (7, 0), (0, 1), (8, 15)]) =
      some true ∧
    (one ((regs { base presetChip8 with i := 0x300 } [(15, 1)]).storeBytes 0x300 [0xC0]) 0xD010).map
      (fun t => (shows [] [(3, 2), (0, 0)] t, t.reg 15, t.dwStall)) = some (true, 0, true) := by decide +kernel

/-- V-DSP-13, V-DSP-20: the bytes of clipped rows are checked; with no plane selected nothing is read. -/
theorem test_drw_bounds :
    oneFault (regs { base presetSchipModern with i := 0x0FFF } [(1, 31)]) 0xD012 = some (.outOfBoundsAccess 0x1000) ∧
    (one (regs { base presetXochip with i := 0xFFFF, planeMask := 0 } [(15, 9)]) 0xD012).map (fun t => t.reg 15) =
      some 0 := by decide

/-- V-DSP-24. -/
theorem test_low :
    (one { base presetXochip with hires := true, planes := #v[dots [(100, 50)], dots [(5, 5)]] } 0x00FE).map
      (fun t => (t.hires, shows [] [(100, 50)] t, Plane.pixel t.planes[1] 5 5)) = some (false, true, false) := by decide +kernel

/-- V-DSP-23. -/
theorem test_high :
    (one { base presetSchip11 with planes := #v[dots [(1, 1)], Plane.blank] } 0x00FF).map
      (fun t => (t.hires, shows [] [(1, 1)] t)) = some (true, true) := by decide +kernel

/-- V-DSP-26. -/
theorem test_scd :
    (one { base presetSchipModern with planes := #v[dots [(5, 3), (5, 31)], Plane.blank] } 0x00C2).map (shows [(5, 5)] [(5, 3), (5, 1)]) =
      some true ∧
    (one { base { presetSchipModern with scrollWraps := true } with
      planes := #v[dots [(5, 3), (5, 31)], Plane.blank] } 0x00C2).map (shows [(5, 5), (5, 1)] [(5, 31)]) = some true := by
  decide +kernel

/-- V-DSP-27. -/
theorem test_scu :
    (one { base presetXochip with planes := #v[dots [(5, 3), (5, 1)], Plane.blank] } 0x00D2).map (shows [(5, 1)] [(5, 3), (5, 31)]) =
      some true ∧
    (one { base { presetXochip with scrollWraps := true } with
      planes := #v[dots [(5, 3), (5, 1)], Plane.blank] } 0x00D2).map (shows [(5, 1), (5, 31)] [(5, 3)]) = some true := by
  decide +kernel

/-- V-DSP-29, V-DSP-31. -/
theorem test_scr :
    (one { base presetSchipModern with planes := #v[dots [(61, 0), (5, 0)], Plane.blank] } 0x00FB).map (shows [(9, 0)] [(1, 0), (65, 0), (5, 0)]) =
      some true ∧
    (one { base { presetSchipModern with scrollWraps := true } with
      hires := true, planes := #v[dots [(61, 0), (125, 0)], Plane.blank] } 0x00FB).map (shows [(65, 0), (1, 0)] [(61, 0)]) =
      some true := by decide +kernel

/-- V-DSP-30. -/
theorem test_scl :
    (one { base presetSchipModern with planes := #v[dots [(5, 0), (2, 7)], Plane.blank] } 0x00FC).map (shows [(1, 0)] [(5, 0), (62, 7)]) =
      some true ∧
    (one { base { presetSchipModern with scrollWraps := true } with
      planes := #v[dots [(5, 0), (2, 7)], Plane.blank] } 0x00FC).map (shows [(1, 0), (62, 7)] [(2, 7)]) = some true := by
  decide +kernel

/-- V-DSP-36. -/
theorem test_plane :
    (one (base presetXochip) 0xF301).map (·.planeMask) = some 0b11 ∧
    (one (base presetXochip) 0xF001).map (·.planeMask) = some 0b00 := by decide

/-! ## Timers, audio, keys -/

/-- V-KEY-1. -/
theorem test_ld_vx_dt : (one { base presetChip8 with dt := 6 } 0xF407).map (fun t => (t.reg 4, t.dt)) = some (6, 6) := by
  decide

/-- V-KEY-2. -/
theorem test_ld_dt_vx : (one (regs (base presetChip8) [(3, 7)]) 0xF315).map (·.dt) = some 7 := by decide

/-- V-KEY-3. -/
theorem test_ld_st_vx : (one (regs (base presetChip8) [(0, 2)]) 0xF018).map (·.st) = some 2 := by decide

/-- V-KEY-5. -/
theorem test_audio :
    oneFault { base presetXochip with i := 0x0FF1 } 0xF002 = some (.outOfBoundsAccess 0x1000) ∧
    (one ({ base presetXochip with i := 0x0FF0 }.storeBytes 0xFF0 [0, 1, 2, 3, 4, 5, 6, 7, 8, 9, 10, 11, 12, 13, 14, 15])
      0xF002).map (·.pattern) = some #v[0, 1, 2, 3, 4, 5, 6, 7, 8, 9, 10, 11, 12, 13, 14, 15] := by decide

/-- V-KEY-7. -/
theorem test_pitch :
    (one (regs (base presetXochip) [(1, 0x70)]) 0xF13A).map (·.pitch) = some 0x70 ∧
    oneFault (regs (base presetSchip11) [(1, 0x70)]) 0xF13A = some (.unknownOpcode 0xF13A) := by decide

/-- V-KEY-8. -/
theorem test_skp :
    (one (regs ((base presetChip8).setKey 7 true) [(0, 0xF7)]) 0xE09E).map (·.pc) = some 0x0204 ∧
    (one (regs ((base presetChip8).setKey 7 true) [(0, 6)]) 0xE09E).map (·.pc) = some 0x0202 := by decide

/-- V-KEY-9. -/
theorem test_sknp :
    (one (regs ((base presetChip8).setKey 7 true) [(0, 7)]) 0xE0A1).map (·.pc) = some 0x0202 ∧
    (one (regs ((base presetChip8).setKey 7 true) [(0, 6)]) 0xE0A1).map (·.pc) = some 0x0204 := by decide

/-- V-KEY-11, first step: a held key does not end the wait. -/
theorem test_ld_vx_k :
    (one ((base presetChip8).setKey 7 true) 0xF30A).map (fun t => (t.waitReg, t.keysPrev[7], t.pc, t.reg 3)) =
      some (some 3, true, 0x0202, 0) := by decide

/-- V-KEY-11, last step: the lowest of the newly pressed keys wins and the snapshot is taken. -/
theorem test_waiting_step :
    (nextOf (step ((({ base presetChip8 with waitReg := some 3 }.setKey 2 true).setKey 9 true)))).map
      (fun t => (t.reg 3, t.waitReg, t.keysPrev[9], t.pc)) = some (2, none, true, 0x0200) := by decide

/-- V-KEY-13: with `key_wait_release` the release counts. -/
theorem test_waiting_step_release :
    (nextOf (step { base { presetChip8 with keyWaitRelease := true } with
      waitReg := some 3, keysPrev := (Vector.replicate 16 false).set 7 true })).map (fun t => (t.reg 3, t.waitReg)) =
      some (7, none) := by decide

/-! ## The step cycle and the host commands -/

/-- V-FLT-1, V-FLT-2. -/
theorem test_unknown_opcode :
    (((base presetChip8).withFetchWord 16 0x00FF).command .step).1.lastUnknown = some 0x00FF ∧
    (((base presetChip8).withFetchWord 16 0x00FF).command .step).1.pc = 0x0200 ∧
    (one (State.construct { configOf presetChip8 with unknownPolicy := .skip }) 0x00FF).map
      (fun t => (t.pc, t.lastUnknown)) = some (0x0202, some 0x00FF) := by decide

/-- V-FLT-6, V-FLT-7, V-FLT-8. -/
theorem test_fetch_edges :
    (nextOf (step ({ wide presetXochip with pc := 0xFFFE }.storeBytes 0xFFFE [0x60, 0x11]))).map
      (fun t => (t.reg 0, t.pc)) = some (0x11, 0) ∧
    faultOf (step { wide presetXochip with pc := 0xFFFF }) = some (.outOfBoundsAccess 0x10000) ∧
    faultOf (step { base presetChip8 with pc := 0x1234 }) = some (.outOfBoundsAccess 0x1234) := by decide

/-- V-FLT-9: a stalled step makes no fetch. -/
theorem test_stalled_step :
    (nextOf (step { base presetChip8 with dwStall := true, pc := 0x1234 })).map (fun t => (t.pc, t.dwStall)) =
      some (0x1234, true) := by decide

/-- V-HOST-1, V-HOST-2. -/
theorem test_tick :
    (fun t : State => (t.dt, t.st, t.dwStall)) { base presetChip8 with dt := 1, dwStall := true }.tick = (0, 0, false) ∧
    { base presetChip8 with dt := 1, dwStall := true }.tick.tick.dt = 0 := by decide

/-- V-HOST-3: the sound signal. -/
theorem test_sound_active :
    { base presetChip8 with st := 1 }.audio.soundActive = true ∧
    { base presetChip8 with st := 1 }.tick.audio.soundActive = false := by decide

/-- V-HOST-4: the map after CONSTRUCT, and the first step with nothing loaded. -/
theorem test_construct :
    (base presetChip8).byteAt 0x4F = 0 ∧ (base presetChip8).bytesAt 0x50 5 = [0xF0, 0x90, 0x90, 0x90, 0xF0] ∧
    (base presetChip8).bytesAt 0xA0 4 = [0x3C, 0x7E, 0xE7, 0xC3] ∧ (base presetChip8).byteAt 0x13F = 0xC0 ∧
    (base presetChip8).byteAt 0x140 = 0 ∧ faultOf (step (base presetChip8)) = some (.unknownOpcode 0) := by decide

/-- V-HOST-5. -/
theorem test_load_rom_limit :
    (nextOf ((base presetChip8).loadRom (List.replicate 3584 0))).isSome = true ∧
    faultOf ((base presetChip8).loadRom (List.replicate 3585 0)) = some (.invalidRomLength 3585) := by decide +kernel

/-- V-HOST-7: what LOAD_ROM forgets and what it keeps. -/
theorem test_load_rom :
    (nextOf ((({ base presetChip8 with i := 0x301, waitReg := some 0, pc := 0x0208 }.storeBytes 0x300 [5]).setKey 3
      true).loadRom [0x12, 0x00])).map (fun t => (t.i, t.bytesAt 0x200 4, t.byteAt 0x300, t.keys[3])) =
      some (0, [0x12, 0, 0, 0], 0, true) := by decide

/-! ## Witnesses: for each statement with hypotheses, a state and operands that meet them -/

theorem test_witness_DecodeEncodeRoundTrip : (Instr.scd 15).wf .superChip = true ∧ (Instr.ldILong 0xFFFF).wf .xoChip = true := by
  decide

theorem test_witness_DecodedBytesAreTheEncoding : decode .xoChip [0xF0, 0x00, 0xAB, 0xCD, 0x12] =
    .instr (.ldILong 0xABCD) [0x12] := by decide

/-- One row fits; a word of a row above the level; a row of the level, with `F000` at exactly two more bytes. -/
theorem test_witness_DecoderFollowsOpcodeTable :
    opcodeRows[9].fits 0x1ABC = true ∧ (⟨0xFFF0, 0x00D0, .xoChip⟩ : OpcodeRow) ∈ opcodeRows ∧
    (⟨0xFFF0, 0x00D0, .xoChip⟩ : OpcodeRow).fits 0x00DF = true ∧ Isa.superChip.atLeast .xoChip = false ∧
    (⟨0xFFFF, 0xF000, .xoChip⟩ : OpcodeRow) ∈ opcodeRows ∧ (⟨0xFFFF, 0xF000, .xoChip⟩ : OpcodeRow).fits 0xF000 = true ∧
    Isa.xoChip.atLeast .xoChip = true ∧ 2 ≤ ([0x12, 0x34] : List Byte).length := by decide

/-- Words at the ends of the ranges of R86. -/
theorem test_witness_UnknownWordsAreThoseListed :
    decode .xoChip [0x00, 0xBF] = .unknown 0x00BF ∧ decode .xoChip [0x00, 0xC0] = .instr (.scd 0) [] ∧
    decode .xoChip [0x00, 0xFA] = .unknown 0x00FA ∧ decode .xoChip [0x01, 0x00] = .unknown 0x0100 ∧
    decode .superChip [0x00, 0xD0] = .unknown 0x00D0 ∧ decode .chip8 [0x00, 0xCF] = .unknown 0x00CF ∧
    decode .xoChip [0xF3, 0x01] = .instr (.plane 3) [] ∧ decode .superChip [0xF3, 0x01] = .unknown 0xF301 := by decide

theorem test_witness_LengthIsToldByTheFirstWord :
    decode .xoChip [0xF0, 0x00, 0x12, 0x34, 0x56] = .instr (.ldILong 0x1234) [0x56] ∧ joinBytes 0xF0 0x00 = 0xF000 ∧
    decode .chip8 [0x12, 0x04, 0x56] = .instr (.jp 0x204) [0x56] := by decide

/-- Also at the last word of memory. -/
theorem test_witness_StepRunsTheDecodedInstruction :
    (fun s : State => (s.dwStall, s.waitReg, decide (s.pc.toNat + (Instr.jp 0x204).size ≤ s.memSize),
        decide (decode s.config.quirks.isa (s.bytesAt s.pc.toNat (Instr.jp 0x204).size) = .instr (.jp 0x204) [])))
      ({ base presetChip8 with pc := 0xFFE }.withFetchWord 16 0x1204) = (false, none, true, true) := by decide

theorem test_witness_StalledStepChangesNothing : { base presetChip8 with dwStall := true }.dwStall = true ∧
    Command.step ≠ .tick := by decide

/-- No event, and a least event at the last key. -/
theorem test_witness_WaitingStepSamplesTheKeys :
    { base presetChip8 with waitReg := some 15 }.dwStall = false ∧
    { base presetChip8 with waitReg := some 15 }.waitReg = some 15 ∧
    (∀ k, { base presetChip8 with waitReg := some 15 }.keyEvent k = false) ∧
    ({ base presetChip8 with waitReg := some 15 }.setKey 15 true).keyEvent 15 = true ∧
    (∀ j, j < 15 → ({ base presetChip8 with waitReg := some 15 }.setKey 15 true).keyEvent j = false) := by decide

/-- The last address that can be fetched from, and the first that cannot. -/
theorem test_witness_StepTakesOneOfFourPaths :
    (base presetChip8).dwStall = false ∧ (base presetChip8).waitReg = none ∧
    { base presetChip8 with pc := 0xFFE }.pc.toNat + 1 < { base presetChip8 with pc := 0xFFE }.memSize ∧
    { base presetChip8 with pc := 0xFFF }.memSize ≤ { base presetChip8 with pc := 0xFFF }.pc.toNat + 1 ∧
    { base presetChip8 with waitReg := some 3 }.waitReg = some 3 ∧
    { base presetChip8 with dwStall := true }.dwStall = true := by decide

theorem test_witness_UnknownOpcodeStep :
    (base presetChip8).dwStall = false ∧ (base presetChip8).waitReg = none ∧
    (base presetChip8).pc.toNat + 1 < (base presetChip8).memSize ∧
    joinBytes ((base presetChip8).byteAt 0x200) ((base presetChip8).byteAt 0x201) = 0x0000 ∧
    decode .chip8 (hiByte 0x0000 :: loByte 0x0000 :: []) = .unknown 0x0000 ∧
    (base presetChip8).config.unknownPolicy = .halt ∧
    (State.construct { configOf presetChip8 with unknownPolicy := .skip }).config.unknownPolicy = .skip := by decide

theorem test_witness_FaultChangesOnlyLastUnknown :
    ((base presetChip8).command .step).2 = .fault (.unknownOpcode 0) ∧
    ({ base presetChip8 with pc := 0xFFF }.command .step).2 = .fault (.outOfBoundsAccess 0x1000) := by decide

theorem test_witness_FaultRepeatsUntilReload :
    (∀ c ∈ [Command.tick, .setKey 3 true, .step, .display, .audio],
      (∀ k, c ≠ .construct k) ∧ ∀ bs, c ≠ .loadRom bs) ∧
    faultOf (step (base presetChip8)) = some (.unknownOpcode 0) := by
  refine ⟨?_, by decide⟩
  intro c hc
  simp only [List.mem_cons, List.not_mem_nil, or_false] at hc
  rcases hc with rfl | rfl | rfl | rfl | rfl <;> simp

theorem test_witness_StepResultsAreOfTheList :
    faultOf (step { wide presetXochip with pc := 0xFFFF }) = some (.outOfBoundsAccess 0x10000) := by decide

theorem test_witness_StepFaultCauses :
    oneFault { base presetChip8 with sp := 16 } 0x2300 = some .stackOverflow ∧
    oneFault (base presetChip8) 0x00EE = some .stackUnderflow ∧
    oneFault (base presetChip8) 0x8008 = some (.unknownOpcode 0x8008) := by decide

/-- Both forms of the end of a run, the jump also at the last word of 4096 bytes. -/
theorem test_witness_EndedRunStaysEnded :
    ({ base presetChip8 with pc := 0xFFE }.withFetchWord 16 0x1FFE).hasEnded = true ∧
    ((base presetSchip11).withFetchWord 16 0x00FD).hasEnded = true := by decide

theorem test_witness_TakenSkipWidth :
    true = decide ((base presetChip8).reg 1 = 0) ∧ true = decide ((base presetChip8).reg 1 ≠ 5) ∧
    true = decide ((base presetChip8).reg 1 = (base presetChip8).reg 2) ∧
    false = decide ((base presetChip8).reg 1 ≠ (base presetChip8).reg 2) ∧
    true = ((base presetChip8).setKey 0 true).keys[lowNibble ((base presetChip8).reg 1)] ∧
    true = !(base presetChip8).keys[lowNibble ((base presetChip8).reg 1)] := by decide

theorem test_witness_ReturnPopsTheStack :
    (base presetChip8).sp = 0 ∧ { base presetChip8 with sp := 1, stack := [0x206] }.sp ≠ 0 ∧
    ({ base presetChip8 with sp := 1, stack := [0x206] }.stack[0]? = some 0x206) := by decide

/-- A full stack, and the last free entry. -/
theorem test_witness_CallPushesTheNextAddress :
    { base presetChip8 with sp := 16 }.sp.toNat = { base presetChip8 with sp := 16 }.config.stackDepth ∧
    { base presetChip8 with sp := 15 }.sp.toNat ≠ { base presetChip8 with sp := 15 }.config.stackDepth ∧
    { base presetChip8 with sp := 15 }.sp.toNat < { base presetChip8 with sp := 15 }.stack.length := by decide

/-- A running state of the `CHIP8` preset with one free entry on the stack, about to run `6005`. -/
def sample : State := { base presetChip8 with sp := 15 }.withFetchWord 16 0x6005

theorem inv_sample : sample.Inv where
  configLegal := by decide
  stackLength := by decide
  spBound := by decide
  waitNotStalled := fun h => absurd rfl h
  belowXoChip := fun _ => by unfold State.noXoChipState; decide
  atChip8 := fun _ => by unfold State.noSuperChipState; decide
  lowWindow := fun _ p x y _ => by
    have h : sample.planes[p] = Plane.blank := by
      revert p; decide
    rw [h]
    unfold Plane.pixel Plane.blank
    by_cases hy : y < 64 <;> simp [hy]
  memWf := by decide

theorem test_witness_CallThenReturnComesBack : sample.Inv ∧ sample.sp.toNat < sample.config.stackDepth :=
  ⟨inv_sample, by decide⟩

theorem test_witness_KeySkips : (15 : Fin 16).val = ((regs (base presetChip8) [(0, 0xFF)]).reg 0).toNat % 16 := by decide

theorem test_witness_LogicOperations :
    (Instr.orReg 15 15 = .orReg 15 15 ∧ (0 : Byte) = (base presetChip8).reg 15 ||| (base presetChip8).reg 15) ∧
    (Instr.andReg 1 2 = .andReg 1 2 ∧ (0 : Byte) = (base presetChip8).reg 1 &&& (base presetChip8).reg 2) ∧
    (Instr.xorReg 1 2 = .xorReg 1 2 ∧ (0 : Byte) = (base presetChip8).reg 1 ^^^ (base presetChip8).reg 2) := by decide

theorem test_witness_SubtractWithNoBorrow :
    (Instr.subReg 1 15 = .subReg 1 15 ∧ (0 : Byte) = (base presetChip8).reg 1 ∧ (0 : Byte) = (base presetChip8).reg 15) ∧
    (Instr.subnReg 15 1 = .subnReg 15 1 ∧ (0 : Byte) = (base presetChip8).reg 1 ∧ (0 : Byte) = (base presetChip8).reg 15) := by
  decide

theorem test_witness_FontPointers : (base presetChip8).config.legal = true := by decide

/-- The last base that fits three bytes, and the first that does not. -/
theorem test_witness_DecimalDigitsStored :
    { base presetChip8 with i := 0xFFD }.i.toNat + 2 < (base presetChip8).memSize ∧
    (base presetChip8).memSize ≤ { base presetChip8 with i := 0xFFE }.i.toNat + 2 := by decide

theorem test_witness_StoreRegistersUpToX :
    { wide presetXochip with i := 0xFFF0 }.i.toNat + (15 : Reg).val < (wide presetXochip).memSize ∧
    (wide presetXochip).memSize ≤ { wide presetXochip with i := 0xFFF1 }.i.toNat + (15 : Reg).val := by decide

theorem test_witness_LoadRegistersUpToX :
    { base presetChip8 with i := 0xFFF }.i.toNat + (0 : Reg).val < (base presetChip8).memSize ∧
    (base presetChip8).memSize ≤ { base presetChip8 with i := 0xFFF }.i.toNat + (1 : Reg).val := by decide

/-- An operand word that ends at the last byte, and one that is cut. -/
theorem test_witness_LongIndexLoad :
    (fun s : State => (s.dwStall, s.waitReg, s.config.quirks.isa, s.byteAt s.pc.toNat, s.byteAt (s.pc.toNat + 1)))
      ({ base presetXochip with pc := 0xFFC }.withFetchWord 32 0xABCDF000) = (false, none, .xoChip, 0xF0, 0x00) ∧
    { base presetXochip with pc := 0xFFC }.pc.toNat + 3 < (base presetXochip).memSize ∧
    (base presetXochip).memSize ≤ { base presetXochip with pc := 0xFFE }.pc.toNat + 3 ∧
    { base presetXochip with pc := 0xFFE }.pc.toNat + 1 < (base presetXochip).memSize := by decide

/-- Sixteen registers at the last base that fits them and one beyond; both directions meet at `x = y`. -/
theorem test_witness_SaveRegisterRange :
    { wide presetXochip with i := 0xFFF0 }.i.toNat + ((0 - 15) + (15 - 0)) < (wide presetXochip).memSize ∧
    (wide presetXochip).memSize ≤ { wide presetXochip with i := 0xFFF1 }.i.toNat + ((0 - 15) + (15 - 0)) ∧
    (3 : Reg) ≤ 3 ∧ (0 : Reg) ≤ 15 := by decide

theorem test_witness_LoadRegisterRange :
    { base presetXochip with i := 0xFFD }.i.toNat + ((3 - 1) + (1 - 3)) < (base presetXochip).memSize ∧
    (base presetXochip).memSize ≤ { base presetXochip with i := 0xFFE }.i.toNat + ((3 - 1) + (1 - 3)) ∧
    ¬((1 : Reg) ≤ 0 ∧ (0 : Reg) ≤ 3) ∧ ¬((3 : Reg) ≤ 0 ∧ (0 : Reg) ≤ 1) := by decide

theorem test_witness_ClearSelectedPlanes :
    (base presetXochip).planeMask.getLsbD (0 : Fin 2).val = true ∧
    (base presetXochip).planeMask.getLsbD (1 : Fin 2).val = false := by decide

/-- The 32 bytes of the big form at the last base that fits them and one beyond; an empty sprite; a pixel hit, and one not. -/
theorem test_witness_DrawFlipsSpritePixels :
    (SpriteBytes { base presetSchipModern with i := 0xFE1 } 0 ≠ 0 ∧
      (base presetSchipModern).memSize < 0xFE1 + SpriteBytes { base presetSchipModern with i := 0xFE1 } 0) ∧
    0xFE0 + SpriteBytes { base presetSchipModern with i := 0xFE0 } 0 ≤ (base presetSchipModern).memSize ∧
    SpriteBytes (base presetChip8) 0 = 0 := by decide

theorem test_witness_SpriteHits :
    SpriteHits ({ base presetChip8 with i := 0x300 }.storeBytes 0x300 [0x01]) 0 1 1 0 7 0 ∧
    ¬SpriteHits (base presetChip8) 0 1 0 0 7 0 := by
  constructor
  · exact ⟨0, 7, by decide, by decide, by decide, by decide⟩
  · rintro ⟨r, c, hr, _⟩
    exact Nat.not_lt_zero r hr

theorem test_witness_ResolutionSwitchClears :
    (Instr.low = .low ∧ false = false) ∧ (Instr.high = .high ∧ true = true) := by decide

/-- Pixels outside the window, moved within it, wrapped, and left by the scroll down of one row. -/
theorem test_witness_ScrollsMoveTheWindow :
    (base presetSchipModern).planeMask.getLsbD 0 = true ∧ (base presetSchipModern).planeMask.getLsbD 1 = false ∧
    (base presetSchipModern).config.quirks.scrollWraps = false ∧
    (base { presetSchipModern with scrollWraps := true }).config.quirks.scrollWraps = true ∧
    ¬((64 : Nat) < 64 ∧ (0 : Nat) < 32) ∧ ((0 : Nat) : Int) = (1 : Nat) - (1 : Int) ∧
    ¬(0 ≤ ((0 : Nat) : Int) - 1 ∧ ((0 : Nat) : Int) - 1 < 32) := by decide

theorem test_witness_PlaneMaskSelected : 0x4#4 ≤ (0x4 : Nibble) ∧ 0x4#4 ≤ (0xF : Nibble) := by decide

theorem test_witness_AudioPatternAndPitch :
    { base presetXochip with i := 0xFF0 }.i.toNat + 15 < (base presetXochip).memSize ∧
    (base presetXochip).memSize ≤ { base presetXochip with i := 0xFF1 }.i.toNat + 15 := by decide

theorem test_witness_KeyLatchAndReaders : (0 : Fin 16) ≠ 15 := by decide

/-- The longest image that fits 4096 bytes, and one byte more. -/
theorem test_witness_LoadRomForgetsTheRun :
    (List.replicate 3584 (0 : Byte)).length ≤ (base presetChip8).memSize - 0x200 ∧
    (List.replicate 3585 (0 : Byte)).length > (base presetChip8).memSize - 0x200 := by
  simp only [List.length_replicate]; decide

theorem test_witness_ResetValues : (nextOf ((base presetChip8).loadRom [0x12, 0x00])).isSome = true := by decide

theorem test_witness_AddressMapAfterLoad :
    (configOf presetChip8).fontSmallBase = 0x050 ∧ (configOf presetChip8).fontBigBase = 0x0A0 ∧
    (nextOf ((State.construct (configOf presetChip8)).loadRom [0x12, 0x00])).isSome = true := by decide

theorem test_witness_ConstructMeetsInvariant : (configOf presetSchip11).legal = true := by decide

theorem test_witness_StepKeepsInvariant : sample.Inv ∧ (nextOf (step sample)).isSome = true := ⟨inv_sample, by decide⟩

theorem test_witness_CommandsKeepInvariant : sample.Inv ∧
    ∀ k, Command.construct k ∈ [Command.construct (configOf presetXochip), .step, .tick] → k.legal = true := by
  refine ⟨inv_sample, ?_⟩
  intro k hk
  simp only [List.mem_cons, Command.construct.injEq, List.not_mem_nil, or_false, reduceCtorEq] at hk
  subst hk
  decide

theorem test_witness_CanonicalMemoryIsWhatItReads :
    Memory.wf (configOf presetChip8) [(0x050, 0x00), (0xFFF, 0x01)] = true ∧
    Memory.wf (configOf presetChip8) [(0x050, 0xF0)] = false := by decide

theorem test_witness_FrameOfGeneralRegisters :
    (nextOf (exec (.addReg 1 2) (base presetChip8))).isSome = true ∧ (0 : Reg) ∉ destRegs presetChip8 (.addReg 1 2) := by
  decide

theorem test_witness_FrameOfMemory :
    (nextOf (exec (.storeRegs 2) { base presetChip8 with i := 0xFFD })).isSome = true ∧ storeCount (.storeRegs 2) ≠ 0 := by
  decide

theorem test_witness_FrameOfSpecialState :
    (nextOf (exec (.ldImm 1 5) (base presetChip8))).isSome = true ∧
    writesIndex presetChip8 (.ldImm 1 5) = false ∧ writesPlanes (.ldImm 1 5) = false := by decide

/-- A history in which the host ticks and steps by turns. -/
def byTurns : History := fun n => if n % 2 = 0 then .tick else .step

theorem fair_byTurns : byTurns.FairTick ∧ byTurns.FairStep :=
  ⟨fun n => ⟨2 * n, by omega, if_pos (by omega)⟩, fun n => ⟨2 * n + 1, by omega, if_neg (by omega)⟩⟩

theorem byTurns_cases (n : Nat) : byTurns n = .tick ∨ byTurns n = .step := by
  unfold byTurns; split
  · exact Or.inl rfl
  · exact Or.inr rfl

theorem byTurns_quiet (n : Nat) :
    (∀ k p, byTurns n ≠ .setKey k p) ∧ (∀ c, byTurns n ≠ .construct c) ∧ ∀ bs, byTurns n ≠ .loadRom bs := by
  rcases byTurns_cases n with h | h <;> simp [h]

/-- A stalled state, a state that waits for a key with no event pending, a fair history, and one without SET_KEY, CONSTRUCT and
LOAD_ROM. -/
theorem test_witness_StallsEndKeyWaitsNeedNot :
    { base presetChip8 with dwStall := true }.dwStall = true ∧
    ({ base presetChip8 with waitReg := some 15 }.waitReg = some 15 ∧
      { base presetChip8 with waitReg := some 15 }.keysPrev = { base presetChip8 with waitReg := some 15 }.keys) ∧
    byTurns.FairTick ∧
    ∀ n, (∀ k p, byTurns n ≠ .setKey k p) ∧ (∀ c, byTurns n ≠ .construct c) ∧ ∀ bs, byTurns n ≠ .loadRom bs :=
  ⟨rfl, ⟨rfl, rfl⟩, fair_byTurns.1, byTurns_quiet⟩

/-- `1300` at 0x300 with `DT` at 2. -/
def selfJump : State := { base presetChip8 with pc := 0x300, dt := 2 }.placeBytes 0x300 [0x13, 0x00]

theorem selfJump_fetch : selfJump.fetch = .instr (.jp 0x300) := by decide

/-- Under `byTurns` the machine stays at the jump of `selfJump`. -/
theorem byTurns_selfJump (n : Nat) : (byTurns.state selfJump n).fetch = .instr (.jp 0x300) := by
  let P : State → Prop := fun t =>
    t.config = selfJump.config ∧ t.mem = selfJump.mem ∧ t.pc = selfJump.pc ∧ t.waitReg = none
  have fetch_of_P : ∀ t, P t → t.fetch = .instr (.jp 0x300) := fun t ht =>
    (State.fetch_congr ht.1 ht.2.1 ht.2.2.1).trans selfJump_fetch
  refine fetch_of_P _ (History.state_induction (P := P) byTurns selfJump 0 ⟨rfl, rfl, rfl, rfl⟩ ?_ n (Nat.zero_le n))
  intro k _ ht
  rw [History.state_succ]
  rcases byTurns_cases k with h | h <;> rw [h]
  · exact ht
  · unfold State.command
    cases hd : (byTurns.state selfJump k).dwStall
    · simp only [step_of_running hd ht.2.2.2, fetch_of_P _ ht, exec, execJp, State.settle]
      exact ⟨ht.1, ht.2.1, rfl, ht.2.2.2⟩
    · simp only [step_of_stalled hd, State.settle]
      exact ht

/-- First clause: a fair history that steps and never runs `FX15`. Second clause: `F407` `3400` `1300` at 0x300, and the loop at
both ends of where a `JP` reaches. -/
theorem test_witness_DelayTimerLoopsEnd :
    (byTurns.FairTick ∧ ∀ n x, byTurns n = .step → ¬(byTurns.state selfJump n).Runs (.ldDtVx x)) ∧
    (byTurns.FairTick ∧ byTurns.FairStep ∧ (∀ n, (∀ c, byTurns n ≠ .construct c) ∧ ∀ bs, byTurns n ≠ .loadRom bs) ∧
      (State.placeBytes { base presetChip8 with pc := 0x300, dt := 2, dwStall := true } 0x300
        [0xF4, 0x07, 0x34, 0x00, 0x13, 0x00]).AtDtLoop 4 ∧
      (State.placeBytes { wide presetXochip with pc := 0 } 0 [0xFF, 0x07, 0x3F, 0x00, 0x10, 0x00]).AtDtLoop 15 ∧
      (State.placeBytes { wide presetXochip with pc := 0xFFF } 0xFFF [0xF0, 0x07, 0x30, 0x00, 0x1F, 0xFF]).AtDtLoop 0) := by
  refine ⟨⟨fair_byTurns.1, fun n x _ hr => ?_⟩, fair_byTurns.1, fair_byTurns.2, fun n => (byTurns_quiet n).2, ?_, ?_, ?_⟩
  · exact absurd ((byTurns_selfJump n).symm.trans hr.2.2) (by simp)
  all_goals unfold State.AtDtLoop; decide

end Sys2Proof.Tests
end

section
/-! What memory reads as after CONSTRUCT and after LOAD_ROM (spec/20_memory.md R61). -/

namespace Sys2Proof.Machine

/-- After CONSTRUCT nothing is listed, so every address reads its reset contents. -/
@[simp] theorem State.byteAt_construct (c : Config) (a : Nat) : (State.construct c).byteAt a = initialByte c a := rfl

/-- An accepted image leaves a fresh construct but for the memory, the key latch and the generator. -/
theorem State.eq_of_loadRom_next {s t : State} {bs : List Byte} (h : s.loadRom bs = .next t) :
    t = { State.construct s.config with
      mem := Memory.ofBytes s.config origin bs, keys := s.keys, rng := s.rng } := by
  rcases s.loadRom_cases bs with ⟨-, hf⟩ | ⟨-, hn⟩
  · rw [hf] at h; cases h
  · rw [hn] at h; cases h; rfl

/-- After LOAD_ROM the image reads back from `origin`, and every other address reads its reset contents. -/
theorem State.byteAt_of_loadRom_next {s t : State} {bs : List Byte} (h : s.loadRom bs = .next t) (a : Nat) :
    t.byteAt a =
      if origin ≤ a ∧ a < origin + bs.length then bs.getD (a - origin) 0 else initialByte s.config a := by
  rw [State.eq_of_loadRom_next h]
  exact Memory.read_ofBytes s.config origin bs a

/-- R61's map: with the fonts at their default addresses the two font ranges are adjacent and do not overlap, so the order in
which they are laid does not matter. -/
theorem initialByte_of_default_fonts {c : Config} (hs : c.fontSmallBase = 0x050) (hb : c.fontBigBase = 0x0A0) (a : Nat) :
    initialByte c a =
      if a < 0x050 then 0 else if a < 0x0A0 then c.fontSmall[a - 0x050]?.getD 0
      else if a < 0x140 then c.fontBig[a - 0x0A0]?.getD 0 else 0 := by
  have hs' : c.fontSmallBase.toNat = 0x050 := by rw [hs]; rfl
  have hb' : c.fontBigBase.toNat = 0x0A0 := by rw [hb]; rfl
  unfold initialByte
  rw [hs', hb']
  by_cases h1 : a < 0x050
  · rw [if_neg (by omega), if_neg (by omega), if_pos h1]
  rw [if_neg h1]
  by_cases h2 : a < 0x0A0
  · rw [if_neg (by omega), if_pos (by omega), if_pos h2]
  rw [if_neg h2]
  by_cases h3 : a < 0x140
  · rw [if_pos (by omega), if_pos h3]
  · rw [if_neg (by omega), if_neg (by omega), if_neg h3]

/-- Settles O51: both commands leave the reset contents outside the image, and those are R61's map. -/
theorem addressMapAfterLoad : Obligations.AddressMapAfterLoad := by
  intro c hs hb
  refine ⟨fun a => initialByte_of_default_fonts hs hb a, fun s t bs hc hload => ⟨fun k hk => ?_, fun a ha => ?_⟩⟩
  · rw [State.byteAt_of_loadRom_next hload, if_pos (by unfold origin; omega)]
    exact congrArg (bs.getD · 0) (Nat.add_sub_cancel_left origin k)
  · have hout : ¬(origin ≤ a ∧ a < origin + bs.length) := ha
    rw [State.byteAt_of_loadRom_next hload, if_neg hout, hc]
    exact initialByte_of_default_fonts hs hb a

end Sys2Proof.Machine
end

section
/-! Which words no level decodes, which only XOChip, and which SuperChip and XOChip (spec/30_encoding.md R84, R86). -/

namespace Sys2Proof

/-! ## The fields of a word as digits -/

/-- The fields of R81 are the hexadecimal digits of the word. -/
theorem toNat_eq_fields (w : Word) :
    w.toNat = 4096 * (fieldOp w).toNat + 256 * (fieldX w).toNat + 16 * (fieldY w).toNat + (fieldN w).toNat := by
  simp only [fieldOp, fieldX, fieldY, fieldN, BitVec.extractLsb'_toNat, Nat.shiftRight_eq_div_pow]
  omega

theorem toNat_fieldNN (w : Word) : (fieldNN w).toNat = 16 * (fieldY w).toNat + (fieldN w).toNat := by
  simp only [fieldNN, fieldY, fieldN, BitVec.extractLsb'_toNat, Nat.shiftRight_eq_div_pow]
  omega

/-- R86 gives ranges of words only below `0100`, so they are empty in every family but 0. -/
theorem between_iff_false {w lo hi : Word} (hop : fieldOp w ≠ 0) (hhi : hi ≤ 0x00FF#16) : lo ≤ w ∧ w ≤ hi ↔ False := by
  refine iff_false_intro fun ⟨_, hle⟩ => ?_
  have hw := toNat_eq_fields w
  bv_omega

theorem eq_wordXNN_iff {w : Word} {op x : Nibble} {nn : Byte} :
    w = wordXNN op x nn ↔ fieldOp w = op ∧ fieldX w = x ∧ fieldNN w = nn := by
  constructor
  · rintro rfl; simp
  · rintro ⟨rfl, rfl, rfl⟩; exact (wordXNN_fields w).symm

theorem eq_F000_iff (w : Word) : w = 0xF000#16 ↔ fieldOp w = 0xF ∧ fieldX w = 0 ∧ fieldNN w = 0x00 :=
  eq_wordXNN_iff (op := 0xF) (x := 0) (nn := 0x00)

theorem eq_F002_iff (w : Word) : w = 0xF002#16 ↔ fieldOp w = 0xF ∧ fieldX w = 0 ∧ fieldNN w = 0x02 :=
  eq_wordXNN_iff (op := 0xF) (x := 0) (nn := 0x02)

/-- `FN01` has bits 11:10 clear (R85), which R86 says as `N` up to 3. -/
theorem extractLsb'_two_eq_zero_iff (x : Nibble) : x.extractLsb' 2 2 = 0#2 ↔ x ≤ 0x3#4 := by
  have hx : (x.extractLsb' 2 2).toNat = x.toNat / 4 := by
    simp only [BitVec.extractLsb'_toNat, Nat.shiftRight_eq_div_pow]; omega
  bv_omega

/-! ## The level of a row -/

/-- Three conditions that say when there is no row, when the row needs XOChip, and when it needs SuperChip. -/
structure RowLevel (row : Option Instr) (missing needsXo needsSuper : Prop) : Prop where
  missing_iff : row = none ↔ missing
  needsXo_iff : row.map Instr.minIsa = some .xoChip ↔ needsXo
  needsSuper_iff : row.map Instr.minIsa = some .superChip ↔ needsSuper

namespace RowLevel

variable {i : Instr} {m x s : Prop}

theorem none (hm : m) (hx : ¬x) (hs : ¬s) : RowLevel none m x s := by
  constructor <;> simp [*]

theorem chip8 (h : i.minIsa = .chip8) (hm : ¬m) (hx : ¬x) (hs : ¬s) : RowLevel (some i) m x s := by
  constructor <;> simp [*]

theorem superChip (h : i.minIsa = .superChip) (hm : ¬m) (hx : ¬x) (hs : s) : RowLevel (some i) m x s := by
  constructor <;> simp [*]

theorem xoChip (h : i.minIsa = .xoChip) (hm : ¬m) (hx : x) (hs : ¬s) : RowLevel (some i) m x s := by
  constructor <;> simp [*]

end RowLevel

/-! ## One lemma per family that has words without a row or rows above Chip8 -/

theorem rowZero_level {w : Word} (hop : fieldOp w = 0) :
    RowLevel (rowZero w)
      (¬(0x00C0#16 ≤ w ∧ w ≤ 0x00CF#16) ∧ ¬(0x00D0#16 ≤ w ∧ w ≤ 0x00DF#16) ∧ w ≠ 0x00E0 ∧ w ≠ 0x00EE ∧
        ¬(0x00FB#16 ≤ w ∧ w ≤ 0x00FF#16))
      (0x00D0#16 ≤ w ∧ w ≤ 0x00DF#16)
      ((0x00C0#16 ≤ w ∧ w ≤ 0x00CF#16) ∨ (0x00FB#16 ≤ w ∧ w ≤ 0x00FF#16)) := by
  have hw := toNat_eq_fields w
  have hnn := toNat_fieldNN w
  unfold rowZero
  split
  case isFalse => exact .none (by bv_omega) (by bv_omega) (by bv_omega)
  split
  case h_1 => exact .superChip rfl (by bv_omega) (by bv_omega) (by bv_omega)
  case h_2 => exact .xoChip rfl (by bv_omega) (by bv_omega) (by bv_omega)
  split
  case h_1 | h_2 => exact .chip8 rfl (by bv_omega) (by bv_omega) (by bv_omega)
  case h_8 =>
    simp only [imp_false] at *
    exact .none (by bv_omega) (by bv_omega) (by bv_omega)
  all_goals exact .superChip rfl (by bv_omega) (by bv_omega) (by bv_omega)

theorem rowFive_level (w : Word) :
    RowLevel (rowFive w) (fieldN w ∉ [0x0#4, 0x2#4, 0x3#4]) (fieldN w = 0x2 ∨ fieldN w = 0x3) False := by
  unfold rowFive
  split
  case h_1 => exact .chip8 rfl (by simp [*]) (by simp [*]) id
  case h_2 | h_3 => exact .xoChip rfl (by simp [*]) (by simp [*]) id
  case h_4 => exact .none (by simp_all) (by simp_all) id

theorem rowEight_level (w : Word) :
    RowLevel (rowEight w) (fieldN w ∈ [0x8#4, 0x9#4, 0xA#4, 0xB#4, 0xC#4, 0xD#4, 0xF#4]) False False := by
  unfold rowEight
  split
  case h_10 =>
    simp only [imp_false] at *
    exact .none (by simp only [List.mem_cons]; bv_omega) id id
  all_goals exact .chip8 rfl (by simp [*]) id id

theorem rowNine_level (w : Word) : RowLevel (rowNine w) (fieldN w ≠ 0x0) False False := by
  unfold rowNine
  split
  case h_1 hn => exact .chip8 rfl (not_not_intro hn) id id
  case h_2 hn => exact .none hn id id

theorem rowE_level (w : Word) : RowLevel (rowE w) (fieldNN w ∉ [0x9E#8, 0xA1#8]) False False := by
  unfold rowE
  split
  case h_3 => exact .none (by simp_all) id id
  all_goals exact .chip8 rfl (by simp [*]) id id

theorem rowF_level (w nnnn : Word) :
    RowLevel (rowF w nnnn)
      (fieldNN w ∉ [0x00#8, 0x01#8, 0x02#8, 0x07#8, 0x0A#8, 0x15#8, 0x18#8, 0x1E#8, 0x29#8, 0x30#8, 0x33#8, 0x3A#8, 0x55#8,
          0x65#8, 0x75#8, 0x85#8] ∨
        ((fieldNN w = 0x00 ∨ fieldNN w = 0x02) ∧ fieldX w ≠ 0x0) ∨ (fieldNN w = 0x01 ∧ 0x4#4 ≤ fieldX w))
      ((fieldX w = 0x0 ∧ fieldNN w = 0x00) ∨ (fieldX w ≤ 0x3#4 ∧ fieldNN w = 0x01) ∨ (fieldX w = 0x0 ∧ fieldNN w = 0x02) ∨
        fieldNN w = 0x3A)
      (fieldNN w = 0x30 ∨ fieldNN w = 0x75 ∨ fieldNN w = 0x85) := by
  unfold rowF
  split
  case h_1 | h_3 =>
    split
    · exact .xoChip rfl (by simp [*]) (by simp [*]) (by simp [*])
    · exact .none (by simp [*]) (by simp [*]) (by simp [*])
  case h_2 =>
    simp only [extractLsb'_two_eq_zero_iff]
    split
    · exact .xoChip rfl (by simp [*]; bv_omega) (by simp [*]) (by simp [*])
    · exact .none (by simp [*]; bv_omega) (by simp [*]) (by simp [*])
  case h_10 | h_15 | h_16 => exact .superChip rfl (by simp [*]) (by simp [*]) (by simp [*])
  case h_12 => exact .xoChip rfl (by simp [*]) (by simp [*]) (by simp [*])
  case h_17 => exact .none (by simp_all) (by simp_all) (by simp_all)
  all_goals exact .chip8 rfl (by simp [*]) (by simp [*]) (by simp [*])

/-! ## The three lists of R86 -/

/-- The words that R86 lists for XOChip. -/
def UnknownAtXoChip (w : Word) : Prop :=
  (fieldOp w = 0x0 ∧ ¬(0x00C0#16 ≤ w ∧ w ≤ 0x00CF#16) ∧ ¬(0x00D0#16 ≤ w ∧ w ≤ 0x00DF#16) ∧ w ≠ 0x00E0 ∧ w ≠ 0x00EE ∧
    ¬(0x00FB#16 ≤ w ∧ w ≤ 0x00FF#16)) ∨
  (fieldOp w = 0x5 ∧ fieldN w ∉ [0x0#4, 0x2#4, 0x3#4]) ∨
  (fieldOp w = 0x8 ∧ fieldN w ∈ [0x8#4, 0x9#4, 0xA#4, 0xB#4, 0xC#4, 0xD#4, 0xF#4]) ∨
  (fieldOp w = 0x9 ∧ fieldN w ≠ 0x0) ∨
  (fieldOp w = 0xE ∧ fieldNN w ∉ [0x9E#8, 0xA1#8]) ∨
  (fieldOp w = 0xF ∧ fieldNN w ∉ [0x00#8, 0x01#8, 0x02#8, 0x07#8, 0x0A#8, 0x15#8, 0x18#8, 0x1E#8, 0x29#8, 0x30#8,
    0x33#8, 0x3A#8, 0x55#8, 0x65#8, 0x75#8, 0x85#8]) ∨
  (fieldOp w = 0xF ∧ (fieldNN w = 0x00 ∨ fieldNN w = 0x02) ∧ fieldX w ≠ 0x0) ∨
  (fieldOp w = 0xF ∧ fieldNN w = 0x01 ∧ 0x4#4 ≤ fieldX w)

/-- The words that R86 adds at SuperChip. -/
def AddedAtSuperChip (w : Word) : Prop :=
  (0x00D0#16 ≤ w ∧ w ≤ 0x00DF#16) ∨ (fieldOp w = 0x5 ∧ (fieldN w = 0x2 ∨ fieldN w = 0x3)) ∨ w = 0xF000 ∨
  (fieldOp w = 0xF ∧ fieldX w ≤ 0x3#4 ∧ fieldNN w = 0x01) ∨ w = 0xF002 ∨ (fieldOp w = 0xF ∧ fieldNN w = 0x3A)

/-- The words that R86 adds further at Chip8. -/
def AddedAtChip8 (w : Word) : Prop :=
  (0x00C0#16 ≤ w ∧ w ≤ 0x00CF#16) ∨ (0x00FB#16 ≤ w ∧ w ≤ 0x00FF#16) ∨
  (fieldOp w = 0xF ∧ (fieldNN w = 0x30 ∨ fieldNN w = 0x75 ∨ fieldNN w = 0x85))

/-- The lists of R86 are the words without a row, those whose row needs XOChip, and those whose row needs SuperChip. -/
theorem rowOf_level (w nnnn : Word) :
    RowLevel (rowOf w nnnn) (UnknownAtXoChip w) (AddedAtSuperChip w) (AddedAtChip8 w) := by
  unfold rowOf UnknownAtXoChip AddedAtSuperChip AddedAtChip8
  split
  case h_1 hop => simpa [hop, eq_F000_iff, eq_F002_iff] using rowZero_level hop
  case h_6 hop => simpa [hop, eq_F000_iff, eq_F002_iff, between_iff_false] using rowFive_level w
  case h_9 hop => simpa [hop, eq_F000_iff, eq_F002_iff, between_iff_false] using rowEight_level w
  case h_10 hop => simpa [hop, eq_F000_iff, eq_F002_iff, between_iff_false] using rowNine_level w
  case h_15 hop => simpa [hop, eq_F000_iff, eq_F002_iff, between_iff_false] using rowE_level w
  case h_16 hop => simpa [hop, eq_F000_iff, eq_F002_iff, between_iff_false] using rowF_level w nnnn
  case h_17 =>
    simp only [imp_false] at *
    bv_omega
  all_goals
    next hop =>
    simpa [hop, eq_F000_iff, eq_F002_iff, between_iff_false] using
      RowLevel.chip8 rfl not_false not_false not_false

/-! ## The decoder's answer -/

/-- R84 steps (1) and (3): the word is Unknown when no row of the level fits it. -/
theorem decode_eq_unknown_iff (isa : Isa) (w : Word) (rest : List Byte) :
    decode isa (hiByte w :: loByte w :: rest) = .unknown w ↔
      ∀ i, rowOf w (operandWord rest) = some i → isa.atLeast i.minIsa = false := by
  rw [decode_cons_cons, joinBytes_hiByte_loByte]
  rcases rowOf w (operandWord rest) with _ | i
  · simp
  · by_cases hwf : isa.atLeast i.minIsa = true
    · by_cases hsize : i.size ≤ rest.length + 2 <;> simp [Instr.wf, hwf, hsize]
    · simp [Instr.wf, hwf]

/-- Going down a level adds the words whose row needs the level above. -/
theorem RowLevel.decode_eq_unknown_iff {w : Word} {rest : List Byte} {m x s : Prop}
    (h : RowLevel (rowOf w (operandWord rest)) m x s) :
    (decode .xoChip (hiByte w :: loByte w :: rest) = .unknown w ↔ m) ∧
    (decode .superChip (hiByte w :: loByte w :: rest) = .unknown w ↔ m ∨ x) ∧
    (decode .chip8 (hiByte w :: loByte w :: rest) = .unknown w ↔ m ∨ x ∨ s) := by
  simp only [Sys2Proof.decode_eq_unknown_iff, ← h.missing_iff, ← h.needsXo_iff, ← h.needsSuper_iff]
  rcases rowOf w (operandWord rest) with _ | i
  · simp
  · cases hi : i.minIsa <;> simp [hi, Isa.atLeast, Isa.level]

/-- Settles O4: R86's lists are sorted by the level that a word's row needs (`rowOf_level`), and that level decides what the
decoder answers. -/
theorem unknownWordsAreThoseListed : Obligations.UnknownWordsAreThoseListed := by
  intro w rest
  exact (rowOf_level w (operandWord rest)).decode_eq_unknown_iff

end Sys2Proof
end

section
/-! Which fault an instruction and a STEP answer, as a function of the state (spec/40_step_cycle.md R106 to R108, R111;
spec/60_exceptions.md R240 to R246). -/

namespace Sys2Proof.Machine

/-! ## The fault as a function of the state -/

/-- The fault of a guarded access (R62, R244). -/
def State.accessFault (s : State) (base n : Nat) : Option Fault :=
  if s.inBounds base n then none else some (.outOfBoundsAccess (max base s.memSize))

/-- The fault of one instruction, read off the "Faults" lines of files 41 to 45 (R242 to R244). -/
def State.execFault (s : State) : Instr → Option Fault
  | .ret => if s.sp = 0 then some .stackUnderflow else none
  | .call _ => if s.sp.toNat = s.config.stackDepth then some .stackOverflow else none
  | .drw _ _ n => s.accessFault s.i.toNat (s.spriteTotal n)
  | .ldBVx _ => s.accessFault s.i.toNat 3
  | .storeRegs x => s.accessFault s.i.toNat (x.val + 1)
  | .loadRegs x => s.accessFault s.i.toNat (x.val + 1)
  | .saveRange x y => s.accessFault s.i.toNat (spanCount x y)
  | .loadRange x y => s.accessFault s.i.toNat (spanCount x y)
  | .audio => s.accessFault s.i.toNat 16
  | .ldILong _ => s.accessFault (s.pc.toNat + 2) 2
  | _ => none

/-- The fault of a running step, by what the fetch answers (R103, R106). -/
def State.fetchedFault (s : State) : Fetched → Option Fault
  | .instr i => s.execFault i
  | .unknown w => if s.config.unknownPolicy = .halt then some (.unknownOpcode w) else none
  | .outside base => some (.outOfBoundsAccess (max base s.memSize))

/-- The fault of a STEP; the stalled and the waiting step have none (R101, R102). -/
def State.stepFault (s : State) : Option Fault :=
  if s.dwStall = false ∧ s.waitReg = none then s.fetchedFault s.fetch else none

/-- The result is a next state when there is no fault, and else that fault; it is never a refusal. -/
def FaultsExactly (r : Result) : Option Fault → Prop
  | none => ∃ t, r = .next t
  | some f => r = .fault f

theorem FaultsExactly.eq_fault_iff {r : Result} {o : Option Fault} {f : Fault} (h : FaultsExactly r o) :
    r = .fault f ↔ o = some f := by
  rcases o with _ | g
  · obtain ⟨t, rfl⟩ := h; simp
  · obtain rfl : r = .fault g := h; simp

theorem FaultsExactly.ne_refused {r : Result} {o : Option Fault} (h : FaultsExactly r o) (q : Refusal) : r ≠ .refused q := by
  rcases o with _ | g
  · obtain ⟨t, rfl⟩ := h; simp
  · obtain rfl : r = .fault g := h; simp

theorem State.guardAccess_faultsExactly (s t : State) (base n : Nat) :
    FaultsExactly (s.guardAccess base n (.next t)) (s.accessFault base n) := by
  unfold State.accessFault
  rcases s.guardAccess_cases base n (.next t) with ⟨hin, h⟩ | ⟨hout, h⟩
  · rw [h, if_pos hin]; exact ⟨t, rfl⟩
  · rw [h, hout]; rfl

theorem execRet_faultsExactly (s : State) : FaultsExactly (execRet s) (s.execFault .ret) := by
  unfold execRet State.execFault
  split
  · rfl
  · exact ⟨_, rfl⟩

theorem execCall_faultsExactly (nnn : BitVec 12) (s : State) :
    FaultsExactly (execCall nnn s) (s.execFault (.call nnn)) := by
  unfold execCall State.execFault
  split
  · rfl
  · exact ⟨_, rfl⟩

/-- Only the two stack instructions and the guarded accesses can fault. -/
theorem exec_faultsExactly (i : Instr) (s : State) : FaultsExactly (exec i s) (s.execFault i) := by
  cases i
  case ret => exact execRet_faultsExactly s
  case call nnn => exact execCall_faultsExactly nnn s
  case drw | ldBVx | storeRegs | loadRegs | saveRange | loadRange | audio | ldILong =>
    exact s.guardAccess_faultsExactly _ _ _
  all_goals exact ⟨_, rfl⟩

theorem State.unknownStep_faultsExactly (s : State) (w : Word) :
    FaultsExactly (s.unknownStep w) (s.fetchedFault (.unknown w)) := by
  rcases s.unknownStep_cases w with ⟨hp, h⟩ | ⟨hp, h⟩ <;> simp only [h, State.fetchedFault, hp]
  · rfl
  · exact ⟨_, rfl⟩

theorem step_faultsExactly (s : State) : FaultsExactly (step s) s.stepFault := by
  unfold State.stepFault
  rcases step_cases s with
    ⟨hd, h⟩ | ⟨r, hd, hw, h⟩ | ⟨i, hd, hw, hf, -, h⟩ | ⟨w, hd, hw, hf, h⟩ | ⟨base, hd, hw, hf, h⟩
  · rw [h, if_neg (by simp [hd])]; exact ⟨_, rfl⟩
  · rw [h, if_neg (by simp [hw])]; exact ⟨_, rfl⟩
  · rw [h, if_pos ⟨hd, hw⟩, hf]; exact exec_faultsExactly i s
  · rw [h, if_pos ⟨hd, hw⟩, hf]; exact s.unknownStep_faultsExactly w
  · rw [h, if_pos ⟨hd, hw⟩, hf]; rfl

theorem step_eq_fault_iff {s : State} {f : Fault} : step s = .fault f ↔ s.stepFault = some f :=
  (step_faultsExactly s).eq_fault_iff

/-! ## R111: the results of STEP -/

/-- The faults that R111 lists for STEP, with the range that R244 gives the address. -/
def Fault.OfStep (memSize : Nat) : Fault → Prop
  | .unknownOpcode _ => True
  | .stackOverflow => True
  | .stackUnderflow => True
  | .outOfBoundsAccess a => memSize ≤ a ∧ a ≤ 0x10000
  | .invalidRomLength _ => False

theorem State.memSize_le (s : State) : s.memSize ≤ 0x10000 := by
  unfold State.memSize
  cases s.config.memSize <;> decide

theorem State.outOfBoundsAccess_ofStep (s : State) {base : Nat} (hb : base ≤ 0x10000) :
    (Fault.outOfBoundsAccess (max base s.memSize)).OfStep s.memSize :=
  ⟨le_max_right _ _, max_le hb s.memSize_le⟩

theorem State.accessFault_ofStep {s : State} {base n : Nat} {f : Fault} (hb : base ≤ 0x10000)
    (h : s.accessFault base n = some f) : f.OfStep s.memSize := by
  unfold State.accessFault at h
  split at h
  · cases h
  · cases h; exact s.outOfBoundsAccess_ofStep hb

/-- The operand word of `F000 NNNN` starts at most at 0x10000, since the word at `PC` is in memory. -/
theorem State.execFault_ofStep {s : State} {i : Instr} {f : Fault} (hpc : s.pc.toNat + 1 < s.memSize)
    (h : s.execFault i = some f) : f.OfStep s.memSize := by
  have hi : s.i.toNat ≤ 0x10000 := by omega
  have hoperand : s.pc.toNat + 2 ≤ 0x10000 := by have := s.memSize_le; omega
  cases i
  case ret | call =>
    simp only [State.execFault, Option.ite_none_right_eq_some, Option.some.injEq] at h
    obtain ⟨-, rfl⟩ := h
    trivial
  case ldILong => exact State.accessFault_ofStep hoperand h
  case drw | ldBVx | storeRegs | loadRegs | saveRange | loadRange | audio => exact State.accessFault_ofStep hi h
  all_goals cases h

theorem State.fetchedFault_ofStep {s : State} {f : Fault} (h : s.fetchedFault s.fetch = some f) : f.OfStep s.memSize := by
  have hmem := s.memSize_le
  rcases s.fetch_cases with ⟨i, hf, -, hpc, -⟩ | ⟨w, hf, -, -⟩ | ⟨hf, hpc, -⟩ | ⟨hf, -⟩ <;> rw [hf] at h
  · exact State.execFault_ofStep hpc h
  · simp only [State.fetchedFault, Option.ite_none_right_eq_some, Option.some.injEq] at h
    obtain ⟨-, rfl⟩ := h
    trivial
  · cases h; exact s.outOfBoundsAccess_ofStep (by omega)
  · cases h; exact s.outOfBoundsAccess_ofStep (by omega)

theorem step_fault_ofStep {s : State} {f : Fault} (h : step s = .fault f) : f.OfStep s.memSize := by
  rw [step_eq_fault_iff, State.stepFault, Option.ite_none_right_eq_some] at h
  exact State.fetchedFault_ofStep h.2

/-- Settles O14: R111's list and R244's range hold of every fault of a STEP (`step_fault_ofStep`), and no arm refuses. -/
theorem stepResultsAreOfTheList : Obligations.StepResultsAreOfTheList := fun s =>
  ⟨(step_faultsExactly s).ne_refused, fun _ h => step_fault_ofStep h, fun _ h => step_fault_ofStep h⟩

/-! ## R107: what a fault leaves unchanged -/

theorem State.afterFault_eq (s : State) (f : Fault) :
    s.afterFault f = { s with lastUnknown := (s.afterFault f).lastUnknown } := by
  cases f <;> rfl

theorem State.afterFault_of_ne_unknownOpcode (s : State) {f : Fault} (h : ∀ w, f ≠ .unknownOpcode w) :
    s.afterFault f = s := by
  cases f
  case unknownOpcode w => exact absurd rfl (h w)
  all_goals rfl

theorem State.command_step_of_fault {s : State} {f : Fault} (h : step s = .fault f) :
    s.command .step = (s.afterFault f, .fault f) :=
  congrArg s.settle h

theorem State.step_eq_fault_of_reply {s : State} {f : Fault} (h : (s.command .step).2 = .fault f) : step s = .fault f := by
  change (s.settle (step s)).2 = .fault f at h
  rcases hs : step s with t | g | r <;> rw [hs] at h <;> cases h
  rfl

/-- Settles O12: the state after the command is `State.afterFault`, which writes LAST_UNKNOWN alone. -/
theorem faultChangesOnlyLastUnknown : Obligations.FaultChangesOnlyLastUnknown := by
  intro s f h
  rw [State.command_step_of_fault (State.step_eq_fault_of_reply h)]
  exact ⟨s.afterFault_eq f, s.afterFault_of_ne_unknownOpcode⟩

/-! ## R108: the fault repeats -/

/-- Nothing changed but the timers, the key latch and LAST_UNKNOWN, none of which decides a fault. -/
def OnlyTimersKeysUnknown (s t : State) : Prop :=
  t = { s with dt := t.dt, st := t.st, keys := t.keys, lastUnknown := t.lastUnknown }

theorem OnlyTimersKeysUnknown.stepFault_eq {s t : State} (h : OnlyTimersKeysUnknown s t) : t.stepFault = s.stepFault := by
  rw [h]; rfl

theorem State.dwStall_eq_false_of_fault {s : State} {f : Fault} (h : step s = .fault f) : s.dwStall = false := by
  rw [step_eq_fault_iff, State.stepFault, Option.ite_none_right_eq_some] at h
  exact h.1.1

theorem State.tick_of_not_stalled {s : State} (h : s.dwStall = false) :
    s.tick = { s with dt := countDown s.dt, st := countDown s.st } :=
  congrArg (fun d => { s with dt := countDown s.dt, st := countDown s.st, dwStall := d }) h.symm

/-- In a state that faults, TICK has no stall to end and STEP faults again. -/
theorem OnlyTimersKeysUnknown.command {s t : State} {f : Fault} {c : Command} (h : OnlyTimersKeysUnknown s t)
    (hf : step s = .fault f) (hconstruct : ∀ k, c ≠ .construct k) (hload : ∀ bs, c ≠ .loadRom bs) :
    OnlyTimersKeysUnknown s (t.command c).1 := by
  have ht : step t = .fault f := step_eq_fault_iff.mpr (h.stepFault_eq.trans (step_eq_fault_iff.mp hf))
  cases c with
  | construct k => exact absurd rfl (hconstruct k)
  | loadRom bs => exact absurd rfl (hload bs)
  | step =>
    rw [State.command_step_of_fault ht, State.afterFault_eq, h]
    rfl
  | tick =>
    change OnlyTimersKeysUnknown s t.tick
    rw [State.tick_of_not_stalled (State.dwStall_eq_false_of_fault ht), h]
    rfl
  | setKey k p => rw [h]; rfl
  | display => exact h
  | audio => exact h

/-- Settles O13: the commands write only what decides no fault, by induction on their list. -/
theorem faultRepeatsUntilReload : Obligations.FaultRepeatsUntilReload := by
  intro s f cs hcs hf
  have hsame : OnlyTimersKeysUnknown s (s.runCommands cs) :=
    State.runCommands_induction s cs rfl fun t c hc ht => ht.command hf (hcs c hc).1 (hcs c hc).2
  rw [step_eq_fault_iff, hsame.stepFault_eq]
  exact step_eq_fault_iff.mp hf

end Sys2Proof.Machine
end

section
/-! What the decoder makes of more bytes behind the ones it looks at (spec/30_encoding.md R80, R84, R87). -/

namespace Sys2Proof

theorem Instr.size_le_four (i : Instr) : i.size ≤ 4 := by
  unfold Instr.size; split <;> decide

theorem Instr.two_le_size (i : Instr) : 2 ≤ i.size := by
  unfold Instr.size; split <;> decide

/-- The operand word goes into `F000 NNNN` alone. -/
theorem rowF_eq_some_of_ne_ldILong {w a : Word} {i : Instr} (hi : ∀ nnnn, i ≠ .ldILong nnnn) (h : rowF w a = some i)
    (b : Word) : rowF w b = some i := by
  unfold rowF at h ⊢
  split at h
  case h_1 =>
    split at h
    · cases h; exact absurd rfl (hi a)
    · cases h
  all_goals exact h

theorem rowOf_eq_some_of_ne_ldILong {w a : Word} {i : Instr} (hi : ∀ nnnn, i ≠ .ldILong nnnn) (h : rowOf w a = some i)
    (b : Word) : rowOf w b = some i := by
  unfold rowOf at h ⊢
  split at h
  case h_16 => exact rowF_eq_some_of_ne_ldILong hi h b
  all_goals exact h

/-- Where two bytes are there, more behind them leave the operand word. -/
theorem operandWord_append {bs : List Byte} (h : 2 ≤ bs.length) (more : List Byte) :
    operandWord (bs ++ more) = operandWord bs := by
  match bs, h with
  | _ :: _ :: _, _ => rfl

/-- The row found in the bytes of an instruction is found with more bytes behind them. -/
theorem rowOf_append {w : Word} {bs : List Byte} {i : Instr} (h : rowOf w (operandWord bs) = some i)
    (hsize : i.size ≤ bs.length + 2) (more : List Byte) : rowOf w (operandWord (bs ++ more)) = some i := by
  by_cases hi : ∃ nnnn, i = .ldILong nnnn
  · obtain ⟨nnnn, rfl⟩ := hi
    have h4 : 4 ≤ bs.length + 2 := hsize
    rw [operandWord_append (by omega), h]
  · exact rowOf_eq_some_of_ne_ldILong (not_exists.mp hi) h _

/-- The decoder accepts a row of the level whose bytes are all there (R84). -/
theorem decode_eq_instr_iff {isa : Isa} {hi lo : Byte} {tail rest : List Byte} {i : Instr} :
    decode isa (hi :: lo :: tail) = .instr i rest ↔
      rowOf (joinBytes hi lo) (operandWord tail) = some i ∧ i.wf isa = true ∧ i.size ≤ tail.length + 2 ∧
        tail.drop (i.size - 2) = rest := by
  rw [decode_cons_cons]
  constructor
  · intro h
    rcases hrow : rowOf (joinBytes hi lo) (operandWord tail) with _ | j <;> simp only [hrow] at h
    · cases h
    by_cases hwf : j.wf isa = true <;> simp only [hwf, if_true] at h
    · by_cases hsize : j.size ≤ tail.length + 2 <;> simp only [hsize, if_true, if_false] at h
      · obtain ⟨rfl, rfl⟩ := Decoded.instr.inj h
        exact ⟨rfl, hwf, hsize, rfl⟩
      · cases h
    · cases h
  · rintro ⟨hrow, hwf, hsize, rfl⟩
    simp only [hrow, hwf, hsize, if_true]

/-- What the decoder accepts, it accepts with more bytes behind. -/
theorem decode_append {isa : Isa} {bs rest : List Byte} {i : Instr} (h : decode isa bs = .instr i rest) (more : List Byte) :
    decode isa (bs ++ more) = .instr i (rest ++ more) := by
  match bs, h with
  | hi :: lo :: tail, h =>
    obtain ⟨hrow, hwf, hsize, rfl⟩ := decode_eq_instr_iff.mp h
    rw [List.cons_append, List.cons_append]
    refine decode_eq_instr_iff.mpr ⟨rowOf_append hrow hsize more, hwf, ?_, ?_⟩
    · rw [List.length_append]; omega
    · exact List.drop_append_of_le_length (by omega)

/-- Whether a word is Unknown does not depend on what follows it (R84). -/
theorem decode_eq_unknown_of_rest {isa : Isa} {w : Word} {rest : List Byte}
    (h : decode isa (hiByte w :: loByte w :: rest) = .unknown w) (rest' : List Byte) :
    decode isa (hiByte w :: loByte w :: rest') = .unknown w := by
  obtain ⟨xo, sup, chip⟩ := (rowOf_level w (operandWord rest)).decode_eq_unknown_iff
  obtain ⟨xo', sup', chip'⟩ := (rowOf_level w (operandWord rest')).decode_eq_unknown_iff
  cases isa with
  | xoChip => exact xo'.mpr (xo.mp h)
  | superChip => exact sup'.mpr (sup.mp h)
  | chip8 => exact chip'.mpr (chip.mp h)

end Sys2Proof
end

section
/-! The paths of a STEP (spec/40_step_cycle.md R100, R101, R103, R106). -/

namespace Sys2Proof.Machine

/-! ## The bytes the fetch looks at -/

theorem State.bytesAt_add (s : State) (base m n : Nat) :
    s.bytesAt base (m + n) = s.bytesAt base m ++ s.bytesAt (base + m) n := by
  simp [State.bytesAt, List.range_add, Nat.add_assoc]

/-- The fetch sees the whole of an instruction that lies in memory. -/
theorem State.fetchBytes_eq_append {s : State} {n : Nat} (hn : n ≤ 4) (h : s.pc.toNat + n ≤ s.memSize) :
    ∃ more, s.fetchBytes = s.bytesAt s.pc.toNat n ++ more := by
  obtain ⟨k, hk⟩ : ∃ k, min 4 (s.memSize - s.pc.toNat) = n + k := Nat.exists_eq_add_of_le (by omega)
  unfold State.fetchBytes
  rw [hk, State.bytesAt_add]
  exact ⟨_, rfl⟩

/-! ## One lemma per path of a running step -/

section Running

variable {s : State} (hd : s.dwStall = false) (hw : s.waitReg = none)
include hd hw

theorem step_of_pc_outside (hpc : s.memSize ≤ s.pc.toNat + 1) :
    step s = .fault (.outOfBoundsAccess (max s.pc.toNat s.memSize)) := by
  have hf : s.fetch = .outside s.pc.toNat := by
    rcases s.fetch_cases with ⟨i, -, -, hlt, -⟩ | ⟨w, -, hlt, -⟩ | ⟨-, hlt, -⟩ | ⟨hf, -⟩
    · omega
    · omega
    · omega
    · exact hf
  rw [step_of_running hd hw, hf]
  rfl

variable (hpc : s.pc.toNat + 1 < s.memSize)
include hpc

theorem step_of_decode_instr {i : Instr} {rest : List Byte}
    (h : decode s.config.quirks.isa s.fetchBytes = .instr i rest) : step s = exec i s := by
  rw [step_of_running hd hw, State.fetch, if_pos ((s.inBounds_iff _ _).mpr (by omega)), h]

theorem step_of_decode_unknown {w : Word} (h : decode s.config.quirks.isa s.fetchBytes = .unknown w) :
    step s = s.unknownStep w := by
  rw [step_of_running hd hw, State.fetch, if_pos ((s.inBounds_iff _ _).mpr (by omega)), h]

theorem step_of_decode_tooShort (h : decode s.config.quirks.isa s.fetchBytes = .tooShort) :
    step s = .fault (.outOfBoundsAccess (max (s.pc.toNat + 2) s.memSize)) := by
  rw [step_of_running hd hw, State.fetch, if_pos ((s.inBounds_iff _ _).mpr (by omega)), h]
  rfl

end Running

/-! ## The statements -/

/-- Settles O7, path by path. -/
theorem stepTakesOneOfFourPaths : Obligations.StepTakesOneOfFourPaths := by
  intro s
  refine ⟨step_of_stalled, fun r => step_of_waiting, step_of_pc_outside, fun hd hw hpc => ?_⟩
  obtain ⟨rest, hbytes⟩ := State.fetchBytes_eq hpc
  refine ⟨rest, hbytes, ?_⟩
  rcases hdec : decode s.config.quirks.isa s.fetchBytes with ⟨i, more⟩ | w | _
  · exact step_of_decode_instr hd hw hpc hdec
  · exact step_of_decode_unknown hd hw hpc hdec
  · exact step_of_decode_tooShort hd hw hpc hdec

/-- Settles O8: the fetch looks at the bytes of the instruction first, and those behind it do not matter
(`decode_append`). -/
theorem stepRunsTheDecodedInstruction : Obligations.StepRunsTheDecodedInstruction := by
  intro s i hd hw hpc hdec
  obtain ⟨more, hbytes⟩ := State.fetchBytes_eq_append i.size_le_four hpc
  have hsize := i.two_le_size
  exact step_of_decode_instr hd hw (by omega) (hbytes ▸ decode_append hdec more)

/-- Settles O9: `step_of_stalled`, and the commands one by one. -/
theorem stalledStepChangesNothing : Obligations.StalledStepChangesNothing := by
  intro s hd
  refine ⟨step_of_stalled hd, rfl, fun c htick hconstruct hload => ?_⟩
  cases c with
  | construct k => exact absurd rfl (hconstruct k)
  | loadRom bs => exact absurd rfl (hload bs)
  | step => rw [State.command, step_of_stalled hd]; exact hd
  | tick => exact absurd rfl htick
  | setKey k p => exact hd
  | display => exact hd
  | audio => exact hd

/-- Settles O11: the fetch finds the unknown word whatever follows it, and the policy decides. -/
theorem unknownOpcodeStep : Obligations.UnknownOpcodeStep := by
  intro s w rest hd hw hpc hword hdec
  obtain ⟨more, hbytes⟩ := State.fetchBytes_eq hpc
  have hfetch : decode s.config.quirks.isa s.fetchBytes = .unknown w := by
    have := decode_eq_unknown_of_rest hdec more
    rwa [← hword, hiByte_joinBytes, loByte_joinBytes, ← hbytes, hword] at this
  have hstep := step_of_decode_unknown hd hw hpc hfetch
  rcases s.unknownStep_cases w with ⟨hp, hu⟩ | ⟨hp, hu⟩ <;> rw [hu] at hstep <;> simp only [hp]
  · exact ⟨fun _ => ⟨hstep, State.command_step_of_fault hstep⟩, nofun⟩
  · exact ⟨nofun, fun _ => hstep⟩

end Sys2Proof.Machine
end

section
/-! The conditional skips (spec/40_step_cycle.md R109). -/

namespace Sys2Proof.Machine

/-- Settles O17: each of the six forms ends in `State.skipIf` of its own condition. -/
theorem takenSkipWidth : Obligations.TakenSkipWidth := by
  intro s i taken hform
  have hexec : exec i s = .next (s.skipIf taken) := by
    rcases hform with
      ⟨x, nn, rfl, rfl⟩ | ⟨x, nn, rfl, rfl⟩ | ⟨x, y, rfl, rfl⟩ | ⟨x, y, rfl, rfl⟩ | ⟨x, rfl, rfl⟩ | ⟨x, rfl, rfl⟩
    · rfl
    · simp only [ne_eq, decide_not]; rfl
    · rfl
    · simp only [ne_eq, decide_not]; rfl
    · rfl
    · rfl
  exact hexec

end Sys2Proof.Machine
end

section
/-! The word of a one-word instruction decodes to that instruction (spec/30_encoding.md R84, R85). -/

namespace Sys2Proof

/-- All instructions but `F000 NNNN` are two bytes long (R80, R87). -/
theorem Instr.size_eq_two {i : Instr} (hi : ∀ nnnn, i ≠ .ldILong nnnn) : i.size = 2 := by
  cases i
  case ldILong nnnn => exact absurd rfl (hi nnnn)
  all_goals rfl

/-- Each word matches the row of R85 it was assembled from, and the fields of the word give the operands back. -/
theorem rowOf_firstWord {i : Instr} (hi : ∀ nnnn, i ≠ .ldILong nnnn) (nnnn : Word) :
    rowOf (firstWord i) nnnn = some i := by
  unfold rowOf rowZero rowFive rowEight rowNine rowE rowF
  cases i <;> unfold firstWord
  case ldILong long => exact absurd rfl (hi long)
  case cls | ret | scr | scl | exit | low | high | audio => rfl
  case jp | call | ldI | jpV0 => rw [fieldOp_wordNNN, fieldNNN_wordNNN]; rfl
  case scd | scu | seReg | saveRange | loadRange | ldReg | orReg | andReg | xorReg | addReg | subReg | shr | subnReg |
      shl | sneReg | drw =>
    rw [fieldOp_wordXYN, fieldX_wordXYN, fieldY_wordXYN, fieldN_wordXYN]; rfl
  case plane n =>
    have hhigh : (0#2 ++ n).extractLsb' 2 2 = 0#2 := BitVec.extractLsb'_append_eq_left
    have hlow : (0#2 ++ n).extractLsb' 0 2 = n := BitVec.extractLsb'_append_eq_right
    rw [fieldOp_wordXNN, fieldX_wordXNN, fieldNN_wordXNN]
    exact (if_pos hhigh).trans (congrArg (fun k => some (Instr.plane k)) hlow)
  all_goals rw [fieldOp_wordXNN, fieldX_wordXNN, fieldNN_wordXNN]; rfl

/-- From its own level on, the decoder reads a one-word instruction from its word and leaves the bytes behind it. -/
theorem decodesTo_firstWord {i : Instr} (hi : ∀ nnnn, i ≠ .ldILong nnnn) :
    Machine.DecodesTo (firstWord i) i.minIsa i := by
  intro isa rest
  rw [decode_cons_cons, joinBytes_hiByte_loByte, rowOf_firstWord hi]
  simp [Instr.wf, Instr.size_eq_two hi]

end Sys2Proof
end

section
/-! Control transfer (spec/41_control_flow.md). -/

namespace Sys2Proof.Machine

/-! ## The stack: RET and CALL (R120, R122) -/

theorem exec_ret_of_empty {s : State} (h : s.sp = 0) : exec .ret s = .fault .stackUnderflow := if_pos h

theorem exec_ret_of_nonempty {s : State} (h : s.sp ≠ 0) :
    exec .ret s = .next { s with pc := s.stack.getD (s.sp.toNat - 1) 0, sp := s.sp - 1 } := if_neg h

theorem exec_call_of_full {s : State} (nnn : BitVec 12) (h : s.sp.toNat = s.config.stackDepth) :
    exec (.call nnn) s = .fault .stackOverflow := if_pos h

theorem exec_call_of_room {s : State} (nnn : BitVec 12) (h : s.sp.toNat ≠ s.config.stackDepth) :
    exec (.call nnn) s =
      .next { s with stack := s.stack.set s.sp.toNat s.npc, sp := s.sp + 1, pc := zext16 nnn } := if_neg h

/-- `STACK_DEPTH` is at most 255 (R5), so `SP` does not wrap where there is room. -/
theorem State.Inv.toNat_sp_add_one {s : State} (h : s.Inv) (hroom : s.sp.toNat < s.config.stackDepth) :
    (s.sp + 1).toNat = s.sp.toNat + 1 := by
  have hdepth : s.config.stackDepth ≤ 255 := (of_decide_eq_true h.configLegal).2.1
  bv_omega

/-- Settles O20: `SP` does not wrap, so the entry that RET pops is the one that CALL pushed, and the entries below it were not
written. -/
theorem callThenReturnComesBack : Obligations.CallThenReturnComesBack := by
  intro s nnn hinv hroom
  have hsp := hinv.toNat_sp_add_one hroom
  have hnonempty : s.sp + 1 ≠ 0 := by bv_omega
  have hin : s.sp.toNat < s.stack.length := hinv.stackLength ▸ hroom
  refine ⟨_, _, exec_call_of_room nnn hroom.ne, exec_ret_of_nonempty hnonempty, ?pc, ?sp, fun k hk => ?live⟩
  case pc =>
    change (s.stack.set s.sp.toNat s.npc).getD ((s.sp + 1).toNat - 1) 0 = s.npc
    rw [hsp, Nat.add_sub_cancel, List.getD_eq_getElem?_getD, List.getElem?_set_self hin, Option.getD_some]
  case sp => exact BitVec.add_sub_cancel s.sp 1
  case live => exact List.getElem?_set_ne hk.ne'

/-- Settles O18: RET by whether the stack is empty. -/
theorem returnPopsTheStack : Obligations.ReturnPopsTheStack := by
  refine ⟨decodesTo_firstWord (i := .ret) nofun, fun s => ⟨exec_ret_of_empty, fun h => ?_⟩⟩
  refine ⟨_, exec_ret_of_nonempty h, rfl, fun a ha => ?_⟩
  rw [List.getD_eq_getElem?_getD, ha, Option.getD_some]

/-- Settles O19: CALL by whether the stack is full; the write of `STACK[SP]` is a `List.set`. -/
theorem callPushesTheNextAddress : Obligations.CallPushesTheNextAddress := by
  intro nnn
  refine ⟨decodesTo_firstWord (i := .call nnn) nofun, fun s => ⟨exec_call_of_full nnn, fun h => ?_⟩⟩
  exact ⟨_, exec_call_of_room nnn h, rfl, toNat_zext16 nnn, List.length_set, fun k hk => List.getElem?_set_ne hk.symm,
    List.getElem?_set_self⟩

/-! ## The jumps and EXIT (R121, R123, R126) -/

/-- The target of `BNNN` stays below 2^16 and is not cut to 12 bits. -/
theorem toNat_zext16_add_zextByte (nnn : BitVec 12) (b : Byte) :
    (zext16 nnn + zextByte b).toNat = nnn.toNat + b.toNat := by
  have hb : (zextByte b).toNat = b.toNat := BitVec.toNat_setWidth_of_le (by decide)
  rw [BitVec.toNat_add, toNat_zext16, hb]
  omega

/-- Settles O21: each is one write of PC, or none. -/
theorem jumpsAndExit : Obligations.JumpsAndExit := by
  refine ⟨fun nnn => ?jp, fun nnn => ?jpV0, decodesTo_firstWord (i := .exit) nofun, fun s => rfl⟩
  case jp => exact ⟨decodesTo_firstWord (i := .jp nnn) nofun, fun s => ⟨_, rfl, rfl, toNat_zext16 nnn⟩⟩
  case jpV0 =>
    exact ⟨decodesTo_firstWord (i := .jpV0 nnn) nofun, fun s => ⟨_, rfl, rfl, toNat_zext16_add_zextByte nnn _⟩⟩

/-! ## The skips (R109) -/

/-- `State.skipIf_eq` with the condition as a proposition. -/
theorem State.skipIf_eq_of_iff (s : State) {taken : Bool} {p : Prop} [Decidable p] (h : taken = true ↔ p) :
    s.skipIf taken = { s with pc := s.pc + 2 + (if p then s.skipWidth else 0) } := by
  rw [State.skipIf_eq]
  simp only [h]

/-- Settles O22: each skip is `State.skipIf` of its rule's comparison (R124, R125, R127, R128). -/
theorem registerSkips : Obligations.RegisterSkips := by
  refine ⟨fun x nn => ?seImm, fun x nn => ?sneImm, fun x y => ?seReg, fun x y => ?sneReg⟩
  case seImm =>
    exact ⟨decodesTo_firstWord (i := .seImm x nn) nofun, fun s => congrArg _ (s.skipIf_eq_of_iff beq_iff_eq)⟩
  case sneImm =>
    exact ⟨decodesTo_firstWord (i := .sneImm x nn) nofun, fun s => congrArg _ (s.skipIf_eq_of_iff bne_iff_ne)⟩
  case seReg =>
    exact ⟨decodesTo_firstWord (i := .seReg x y) nofun, fun s => congrArg _ (s.skipIf_eq_of_iff beq_iff_eq)⟩
  case sneReg =>
    exact ⟨decodesTo_firstWord (i := .sneReg x y) nofun, fun s => congrArg _ (s.skipIf_eq_of_iff bne_iff_ne)⟩

end Sys2Proof.Machine
end

section
/-! Arithmetic and logic (spec/42_alu.md): the flags and results as numbers, and the frames of the three ways to end. -/

namespace Sys2Proof.Machine

/-! ## The flags and the results as numbers (R152) -/

theorem flagByte_decide (p : Prop) [Decidable p] : flagByte (decide p) = if p then 1 else 0 := by
  simp only [flagByte, decide_eq_true_eq]

theorem toNat_shrFlag (a : Byte) : (shrFlag a).toNat = a.toNat % 2 :=
  (BitVec.toNat_and a 1).trans (Nat.and_one_is_mod _)

theorem toNat_shlFlag (a : Byte) : (shlFlag a).toNat = a.toNat / 128 :=
  (BitVec.toNat_ushiftRight a 7).trans (Nat.shiftRight_eq_div_pow _ 7)

theorem toNat_ushiftRight_one (a : Byte) : (a >>> 1).toNat = a.toNat / 2 :=
  (BitVec.toNat_ushiftRight a 1).trans (Nat.shiftRight_eq_div_pow _ 1)

theorem toNat_shiftLeft_one (a : Byte) : (a <<< 1).toNat = 2 * a.toNat % 256 := by
  rw [BitVec.toNat_shiftLeft, Nat.shiftLeft_eq, Nat.mul_comm]

/-- The byte difference is the integer difference mod 256. -/
theorem toNat_sub_eq_emod (a b : Byte) : ((a - b).toNat : Int) = ((a.toNat : Int) - b.toNat) % 256 := by
  have hb := b.isLt
  rw [BitVec.toNat_sub]
  omega

/-! ## One register written -/

theorem State.reg_setReg_self (s : State) (x : Reg) (b : Byte) : (s.setReg x b).reg x = b :=
  (s.reg_setReg x x b).trans (if_pos rfl)

theorem State.sameRegsBut_setReg (s : State) (x : Reg) (b : Byte) : SameRegsBut [x] s (s.setReg x b) := by
  intro r hr
  rw [State.reg_setReg, if_neg (List.ne_of_not_mem_cons hr).symm]

/-! ## A register and then `VF` written (R21) -/

theorem State.reg_setRegFlag_of_ne {x : Reg} (s : State) (b f : Byte) (hx : x ≠ 15) : (s.setRegFlag x b f).reg x = b := by
  rw [State.reg_setRegFlag, if_neg hx, if_pos rfl]

/-- The flag is written last, so it stands also over a result in `VF`. -/
theorem State.reg_setRegFlag_flag (s : State) (x : Reg) (b f : Byte) : (s.setRegFlag x b f).reg 15 = f :=
  (s.reg_setRegFlag x 15 b f).trans (if_pos rfl)

theorem State.sameRegsBut_setRegFlag (s : State) (x : Reg) (b f : Byte) : SameRegsBut [x, 15] s (s.setRegFlag x b f) := by
  intro r hr
  obtain ⟨hx, hflag⟩ : r ≠ x ∧ r ≠ 15 := by simpa using hr
  rw [State.reg_setRegFlag, if_neg hflag, if_neg hx.symm]

/-- What every instruction answers that ends with a result in `VX`, its flag in `VF`, and `PC <- npc`. -/
theorem exec_setRegFlag {i : Instr} {s : State} {x : Reg} {b f : Byte}
    (hexec : exec i s = .next (s.setRegFlag x b f).advance) :
    ∃ t, exec i s = .next t ∧ OnlyRegsPc s t ∧ SameRegsBut [x, 15] s t ∧ t.pc = s.pc + 2 ∧
      (x ≠ 15 → t.reg x = b) ∧ t.reg 15 = f :=
  ⟨_, hexec, rfl, s.sameRegsBut_setRegFlag x b f, rfl, s.reg_setRegFlag_of_ne b f, s.reg_setRegFlag_flag x b f⟩

/-! ## A logic result written (R46, R143) -/

theorem State.onlyRegsPc_setLogic_advance (s : State) (x : Reg) (b : Byte) : OnlyRegsPc s (s.setLogic x b).advance := by
  unfold State.setLogic
  split <;> rfl

theorem State.sameRegsBut_setLogic (s : State) (x : Reg) (b : Byte) : SameRegsBut [x, 15] s (s.setLogic x b) := by
  intro r hr
  obtain ⟨hx, hflag⟩ : r ≠ x ∧ r ≠ 15 := by simpa using hr
  rw [State.reg_setLogic, if_neg (fun h => hflag h.2), if_neg hx.symm]

theorem State.reg_setLogic_of_ne {x : Reg} (s : State) (b : Byte) (hx : x ≠ 15) : (s.setLogic x b).reg x = b := by
  rw [State.reg_setLogic, if_neg (fun h => hx h.2), if_pos rfl]

/-- The reset of `VF` is last, also over a result in `VF`. -/
theorem State.reg_setLogic_flag (s : State) (x : Reg) (b : Byte) :
    (s.setLogic x b).reg 15 = if s.config.quirks.vfResetOnLogic then 0 else if x = 15 then b else s.reg 15 := by
  simp only [State.reg_setLogic, and_true]

/-- What every instruction answers that ends with a logic result and `PC <- npc`. -/
theorem exec_setLogic {i : Instr} {s : State} {x : Reg} {b : Byte} (hexec : exec i s = .next (s.setLogic x b).advance) :
    ∃ t, exec i s = .next t ∧ OnlyRegsPc s t ∧ SameRegsBut [x, 15] s t ∧ t.pc = s.pc + 2 ∧
      (x ≠ 15 → t.reg x = b) ∧
      t.reg 15 = if s.config.quirks.vfResetOnLogic then 0 else if x = 15 then b else s.reg 15 :=
  ⟨_, hexec, s.onlyRegsPc_setLogic_advance x b, s.sameRegsBut_setLogic x b, congrArg (· + 2) (s.setLogic_pc x b),
    s.reg_setLogic_of_ne b, s.reg_setLogic_flag x b⟩

/-! ## The statements -/

/-- Settles O24: each is one `State.setReg`, and `VF` is a register like the others. -/
theorem loadsAndAddImmediate : Obligations.LoadsAndAddImmediate := by
  refine ⟨fun x nn => ⟨decodesTo_firstWord (i := .ldImm x nn) nofun, fun s => ?ldImm⟩,
    fun x nn => ⟨decodesTo_firstWord (i := .addImm x nn) nofun, fun s => ?addImm⟩,
    fun x y => ⟨decodesTo_firstWord (i := .ldReg x y) nofun, fun s => ?ldReg⟩⟩
  case ldImm => exact ⟨_, rfl, rfl, s.sameRegsBut_setReg x nn, s.reg_setReg_self x nn, rfl⟩
  case addImm =>
    refine ⟨_, rfl, rfl, s.sameRegsBut_setReg x _, ?sum, rfl⟩
    rw [State.reg_advance, State.reg_setReg_self, BitVec.toNat_add]
  case ldReg => exact ⟨_, rfl, rfl, s.sameRegsBut_setReg x _, s.reg_setReg_self x _, rfl⟩

/-- Settles O25: the three end in `State.setLogic` of their own result. -/
theorem logicOperations : Obligations.LogicOperations := by
  intro x y
  refine ⟨decodesTo_firstWord (i := .orReg x y) nofun, decodesTo_firstWord (i := .andReg x y) nofun,
    decodesTo_firstWord (i := .xorReg x y) nofun, fun s i b hform => exec_setLogic ?_⟩
  rcases hform with ⟨rfl, rfl⟩ | ⟨rfl, rfl⟩ | ⟨rfl, rfl⟩
  · rfl
  · rfl
  · rfl

/-- Settles O26: the carry is decided on the sum of naturals, which the byte sum is mod 256. -/
theorem addWithCarryOut : Obligations.AddWithCarryOut := by
  refine fun x y => ⟨decodesTo_firstWord (i := .addReg x y) nofun, fun s => ?_⟩
  obtain ⟨t, hexec, honly, hsame, hpc, hresult, hflag⟩ := exec_setRegFlag (i := .addReg x y) (s := s) rfl
  refine ⟨t, hexec, honly, hsame, hpc, fun hx => ?sum, hflag.trans (flagByte_decide _)⟩
  rw [hresult hx, BitVec.toNat_add]

/-- Settles O27: SUB and SUBN are one difference with the operands exchanged. -/
theorem subtractWithNoBorrow : Obligations.SubtractWithNoBorrow := by
  intro x y
  refine ⟨decodesTo_firstWord (i := .subReg x y) nofun, decodesTo_firstWord (i := .subnReg x y) nofun,
    fun s i a b hform => ?_⟩
  have hdifference : exec i s = .next (s.setRegFlag x (a - b) (noBorrowFlag a b)).advance := by
    rcases hform with ⟨rfl, rfl, rfl⟩ | ⟨rfl, rfl, rfl⟩
    · rfl
    · rfl
  obtain ⟨t, hexec, honly, hsame, hpc, hresult, hflag⟩ := exec_setRegFlag hdifference
  refine ⟨t, hexec, honly, hsame, hpc, fun hx => ?difference, hflag.trans (flagByte_decide _)⟩
  rw [hresult hx, toNat_sub_eq_emod]

/-- Settles O28: both shift the source of R41, and the bit shifted out is computed from that source before the write. -/
theorem shiftsByOne : Obligations.ShiftsByOne := by
  intro x y
  refine ⟨decodesTo_firstWord (i := .shr x y) nofun, decodesTo_firstWord (i := .shl x y) nofun, fun s => ⟨?shr, ?shl⟩⟩
  case shr =>
    obtain ⟨t, hexec, honly, hsame, hpc, hresult, hflag⟩ := exec_setRegFlag (i := .shr x y) (s := s) rfl
    refine ⟨t, hexec, honly, hsame, hpc, fun hx => ?_, ?_⟩
    · exact hresult hx ▸ toNat_ushiftRight_one _
    · exact hflag ▸ toNat_shrFlag _
  case shl =>
    obtain ⟨t, hexec, honly, hsame, hpc, hresult, hflag⟩ := exec_setRegFlag (i := .shl x y) (s := s) rfl
    refine ⟨t, hexec, honly, hsame, hpc, fun hx => ?_, ?_⟩
    · exact hresult hx ▸ toNat_shiftLeft_one _
    · exact hflag ▸ toNat_shlFlag _

/-- Settles O29: whatever the generator answers, its byte goes through one `State.setReg`. -/
theorem randomByteUnderMask : Obligations.RandomByteUnderMask := by
  refine fun x nn => ⟨decodesTo_firstWord (i := .rnd x nn) nofun, fun s => ?_⟩
  exact ⟨_, rfl, rfl, s.sameRegsBut_setReg x _, s.reg_setReg_self x _⟩

end Sys2Proof.Machine
end

section
/-! The index register and memory (spec/43_index_memory.md): the guarded accesses at `I`, the runs of registers to and from
memory, and the operand word of `F000 NNNN`. -/

namespace Sys2Proof.Machine

/-! ## The index register (R160, R161, R163, R164) -/

theorem toNat_zextByte (b : Byte) : (zextByte b).toNat = b.toNat := BitVec.toNat_setWidth_of_le (by decide)

theorem toNat_glyphAddress {base : Word} {size : Nat} {d : Fin 16} (h : base.toNat + size * d.val < 65536) :
    (glyphAddress base size d).toNat = base.toNat + size * d.val := by
  have hoffset : (BitVec.ofNat 16 (size * d.val)).toNat = size * d.val := Nat.mod_eq_of_lt (by omega)
  rw [glyphAddress, BitVec.toNat_add_of_lt (by omega), hoffset]

/-- Settles O30: the index is written once, and a sum of words is taken mod 2^16. -/
theorem indexLoadAndAdd : Obligations.IndexLoadAndAdd := by
  refine ⟨fun nnn => ⟨decodesTo_firstWord (i := .ldI nnn) nofun, fun s => ⟨_, rfl, rfl, toNat_zext16 nnn, rfl⟩⟩,
    fun x => ⟨decodesTo_firstWord (i := .addIVx x) nofun, fun s => ⟨_, rfl, rfl, ?sum, rfl⟩⟩⟩
  change (s.i + zextByte (s.reg x)).toNat = _
  rw [BitVec.toNat_add, toNat_zextByte]

/-- Settles O31: a glyph of a font that lies below `ORIGIN` (D12) is at no wrapped address. -/
theorem fontPointers : Obligations.FontPointers := by
  refine ⟨fun x => ⟨decodesTo_firstWord (i := .ldFVx x) nofun, fun s hlegal => ⟨_, rfl, rfl, rfl, ?small⟩⟩,
    fun x => ⟨decodesTo_firstWord (i := .ldHfVx x) nofun, fun s hlegal => ⟨_, rfl, rfl, rfl, ?big⟩⟩⟩
  all_goals
    obtain ⟨-, -, hsmall, hbig⟩ := of_decide_eq_true hlegal
    have hdigit := (lowNibble (s.reg x)).isLt
    have horigin : origin = 0x200 := rfl
    rw [← val_lowNibble]
    exact toNat_glyphAddress (by omega)

/-! ## Guarded accesses (R62, R244) -/

/-- What an instruction answers that checks the bounds of `n + 1` bytes at `base` first: the fault, or its next state. -/
theorem exec_of_guardAccess {i : Instr} {s t : State} {base n : Nat}
    (hexec : exec i s = s.guardAccess base (n + 1) (.next t)) :
    (s.memSize ≤ base + n → exec i s = .fault (.outOfBoundsAccess (max base s.memSize))) ∧
      (base + n < s.memSize → exec i s = .next t) := by
  refine ⟨fun h => ?outside, fun h => ?inside⟩
  case outside => rw [hexec, s.guardAccess_of_outside _ n.succ_ne_zero (by omega)]
  case inside => rw [hexec, s.guardAccess_of_inBounds _ (Or.inr h)]

/-! ## Stored bytes (R65) -/

theorem State.byteAt_storeBytes_add (s : State) (a : Nat) {bs : List Byte} {k : Nat} (hk : k < bs.length) :
    (s.storeBytes a bs).byteAt (a + k) = bs.getD k 0 := by
  rw [State.byteAt_storeBytes, if_pos (by omega), Nat.add_sub_cancel_left]

theorem State.sameMemoryBut_storeBytes (s : State) (a : Nat) (bs : List Byte) :
    SameMemoryBut a bs.length s (s.storeBytes a bs) :=
  fun x hx => (s.byteAt_storeBytes a bs x).trans (if_neg hx)

/-- A digit is below 256, so its byte is the digit. -/
theorem State.toNat_byteAt_storeBytes_decimalDigits (s : State) (a : Nat) (b : Byte) :
    ((s.storeBytes a (decimalDigits b)).byteAt a).toNat = b.toNat / 100 ∧
      ((s.storeBytes a (decimalDigits b)).byteAt (a + 1)).toNat = b.toNat / 10 % 10 ∧
      ((s.storeBytes a (decimalDigits b)).byteAt (a + 2)).toNat = b.toNat % 10 := by
  have hb := b.isLt
  have hstored {k : Nat} (hk : k < 3) : (s.storeBytes a (decimalDigits b)).byteAt (a + k) = (decimalDigits b).getD k 0 :=
    s.byteAt_storeBytes_add a hk
  refine ⟨?hundreds, ?tens, ?ones⟩
  case hundreds => exact (congrArg BitVec.toNat (hstored (k := 0) (by decide))).trans (Nat.mod_eq_of_lt (by omega))
  case tens => exact (congrArg BitVec.toNat (hstored (k := 1) (by decide))).trans (Nat.mod_eq_of_lt (by omega))
  case ones => exact (congrArg BitVec.toNat (hstored (k := 2) (by decide))).trans (Nat.mod_eq_of_lt (by omega))

/-- Settles O32: the digits stored at `I`, within bounds. -/
theorem decimalDigitsStored : Obligations.DecimalDigitsStored := by
  refine fun x => ⟨decodesTo_firstWord (i := .ldBVx x) nofun, fun s => ?_⟩
  obtain ⟨houtside, hinside⟩ := exec_of_guardAccess (i := .ldBVx x) (s := s) rfl
  obtain ⟨hhundreds, htens, hones⟩ := s.toNat_byteAt_storeBytes_decimalDigits s.i.toNat (s.reg x)
  exact ⟨houtside, fun h => ⟨_, hinside h, rfl, hhundreds, htens, hones,
    s.sameMemoryBut_storeBytes _ (decimalDigits (s.reg x))⟩⟩

/-! ## Runs of registers (R165, R166, R169, R170) -/

section Span

variable {x y r : Reg}

theorem lt_spanCount_up (hx : x ≤ r) (hy : r ≤ y) : r.val - x.val < spanCount x y := by
  rw [Fin.le_def] at hx hy
  unfold spanCount
  omega

theorem lt_spanCount_down (hy : y ≤ r) (hx : r ≤ x) : x.val - r.val < spanCount x y := by
  rw [Fin.le_def] at hx hy
  unfold spanCount
  omega

variable (s : State) (a : Nat) {k : Nat} (hk : k < spanCount x y) (hr : spanReg x y k = r)
include hk hr

/-- Byte `k` of a stored run is the register of index `k`. -/
theorem State.byteAt_storeBytes_spanBytes : (s.storeBytes a (s.spanBytes x y)).byteAt (a + k) = s.reg r := by
  rw [State.byteAt_storeBytes_add _ _ (by rwa [State.length_spanBytes]), State.getD_spanBytes _ _ _ _ hk, hr]

/-- The register of index `k` of a loaded run is byte `k`. -/
theorem State.reg_loadSpan_bytesAt : (s.loadSpan x y (s.bytesAt a (spanCount x y))).reg r = s.byteAt (a + k) := by
  rw [← hr, State.reg_loadSpan_spanReg _ _ _ _ _ hk (State.length_bytesAt ..), State.getD_bytesAt _ _ _ _ hk]

end Span

theorem State.sameMemoryBut_storeBytes_spanBytes (s : State) (a : Nat) (x y : Reg) :
    SameMemoryBut a (spanCount x y) s (s.storeBytes a (s.spanBytes x y)) :=
  s.length_spanBytes x y ▸ s.sameMemoryBut_storeBytes a (s.spanBytes x y)

/-- Settles O36: the run stored at `I`, with its registers found in either direction. -/
theorem saveRegisterRange : Obligations.SaveRegisterRange := by
  refine fun x y => ⟨decodesTo_firstWord (i := .saveRange x y) nofun, fun s => ?_⟩
  obtain ⟨houtside, hinside⟩ := exec_of_guardAccess (i := .saveRange x y) (s := s) rfl
  refine ⟨houtside, fun h => ⟨_, hinside h, rfl, fun r hx hy => ?up, fun r hy hx => ?down,
    s.sameMemoryBut_storeBytes_spanBytes _ x y⟩⟩
  case up => exact s.byteAt_storeBytes_spanBytes _ (lt_spanCount_up hx hy) (spanReg_up x y r hx hy)
  case down => exact s.byteAt_storeBytes_spanBytes _ (lt_spanCount_down hy hx) (spanReg_down x y r hy hx)

/-- Settles O33: the run from `V0` upward stored at `I`, then the index of R42. -/
theorem storeRegistersUpToX : Obligations.StoreRegistersUpToX := by
  refine fun x => ⟨decodesTo_firstWord (i := .storeRegs x) nofun, fun s => ?_⟩
  obtain ⟨houtside, hinside⟩ := exec_of_guardAccess (i := .storeRegs x) (s := s) rfl
  refine ⟨houtside, fun h => ⟨_, hinside h, rfl, rfl, fun k hk => ?stored, ?frame, s.toNat_indexAfter x⟩⟩
  case stored =>
    exact s.byteAt_storeBytes_spanBytes _ (lt_spanCount_up (Fin.zero_le k) hk) (spanReg_up 0 x k (Fin.zero_le k) hk)
  case frame => exact spanCount_zero x ▸ s.sameMemoryBut_storeBytes_spanBytes s.i.toNat 0 x

theorem State.onlyRegsPc_loadSpan_advance (s : State) (x y : Reg) (bs : List Byte) :
    OnlyRegsPc s (s.loadSpan x y bs).advance := by
  rw [State.loadSpan_eq]
  rfl

theorem State.onlyRegsIndexPc_loadSpan_setIndex_advance (s : State) (x y : Reg) (bs : List Byte) (w : Word) :
    OnlyRegsIndexPc s ((s.loadSpan x y bs).setIndex w).advance := by
  rw [State.loadSpan_eq]
  rfl

/-- Settles O37: the run loaded from `I`; a register outside both directions is not of the run (`mem_spanRegs`). -/
theorem loadRegisterRange : Obligations.LoadRegisterRange := by
  refine fun x y => ⟨decodesTo_firstWord (i := .loadRange x y) nofun, fun s => ?_⟩
  obtain ⟨houtside, hinside⟩ := exec_of_guardAccess (i := .loadRange x y) (s := s) rfl
  refine ⟨houtside, fun h => ⟨_, hinside h, s.onlyRegsPc_loadSpan_advance x y _, ?pc, fun r hx hy => ?up,
    fun r hy hx => ?down, fun r hup hdown => ?frame⟩⟩
  case pc => exact congrArg (· + 2) (s.loadSpan_pc x y _)
  case up => exact s.reg_loadSpan_bytesAt _ (lt_spanCount_up hx hy) (spanReg_up x y r hx hy)
  case down => exact s.reg_loadSpan_bytesAt _ (lt_spanCount_down hy hx) (spanReg_down x y r hy hx)
  case frame => exact s.reg_loadSpan_of_notMem x y _ r ((mem_spanRegs x y r).not.mpr (not_or.mpr ⟨hup, hdown⟩))

/-- Settles O34: the run from `V0` upward loaded from `I`, then the index of R42. -/
theorem loadRegistersUpToX : Obligations.LoadRegistersUpToX := by
  refine fun x => ⟨decodesTo_firstWord (i := .loadRegs x) nofun, fun s => ?_⟩
  obtain ⟨houtside, hinside⟩ := exec_of_guardAccess (i := .loadRegs x) (s := s) rfl
  refine ⟨houtside, fun h => ⟨_, hinside h, s.onlyRegsIndexPc_loadSpan_setIndex_advance 0 x _ _, ?pc, fun k hk => ?loaded,
    fun k hk => ?frame, s.toNat_indexAfter x⟩⟩
  case pc => exact congrArg (· + 2) (s.loadSpan_pc 0 x _)
  case loaded =>
    rw [← spanCount_zero x]
    exact s.reg_loadSpan_bytesAt _ (lt_spanCount_up (Fin.zero_le k) hk) (spanReg_up 0 x k (Fin.zero_le k) hk)
  case frame =>
    have hout : k ∉ spanRegs 0 x := by
      rw [mem_spanRegs, not_or]
      exact ⟨fun hup => hk.not_ge hup.2, fun hdown => hk.not_ge (hdown.2.trans (Fin.zero_le x))⟩
    exact s.reg_loadSpan_of_notMem 0 x _ k hout

/-! ## `F000 NNNN` (R168) -/

/-- At XOChip the bytes `F0 00` decode to the load of the word behind them, where it is there. -/
theorem decode_F000 (rest : List Byte) :
    decode .xoChip (0xF0 :: 0x00 :: rest) =
      if 2 ≤ rest.length then .instr (.ldILong (operandWord rest)) (rest.drop 2) else .tooShort := by
  have hrow : rowOf (joinBytes 0xF0 0x00) (operandWord rest) = some (.ldILong (operandWord rest)) := rfl
  have hwf : (Instr.ldILong (operandWord rest)).wf .xoChip = true := rfl
  have hsize : (Instr.ldILong (operandWord rest)).size = 4 := rfl
  rw [decode_cons_cons, hrow]
  simp only [hwf, hsize, if_true, Nat.reduceLeDiff, Nat.reduceSub]

/-- The meaning of `F000 NNNN` alone, on an operand the decoder cut. -/
theorem exec_ldILong (s : State) (nnnn : Word) :
    (s.pc.toNat + 3 < s.memSize → exec (.ldILong nnnn) s = .next { s with i := nnnn, pc := s.pc + 4 }) ∧
      (s.memSize ≤ s.pc.toNat + 3 →
        exec (.ldILong nnnn) s = .fault (.outOfBoundsAccess (max (s.pc.toNat + 2) s.memSize))) :=
  (exec_of_guardAccess (i := .ldILong nnnn) (s := s) (n := 1) rfl).symm

/-- Settles O35: the fetch sees two bytes behind the opcode exactly when `PC + 3` is in memory. -/
theorem longIndexLoad : Obligations.LongIndexLoad := by
  refine ⟨fun s hd hw hisa hpc hhi hlo => ⟨fun hin => ?inside, fun hout => ?outside⟩, exec_ldILong⟩
  case inside =>
    have hbytes : s.bytesAt s.pc.toNat 4 = [0xF0, 0x00, s.byteAt (s.pc.toNat + 2), s.byteAt (s.pc.toNat + 3)] := by
      rw [← hhi, ← hlo]; rfl
    have hdecode := decode_F000 [s.byteAt (s.pc.toNat + 2), s.byteAt (s.pc.toNat + 3)]
    rw [← hbytes, ← hisa] at hdecode
    exact (stepRunsTheDecodedInstruction s (.ldILong _) hd hw hin hdecode).trans ((exec_ldILong s _).1 hin)
  case outside =>
    obtain ⟨rest, hbytes⟩ := State.fetchBytes_eq hpc
    have hlength : min 4 (s.memSize - s.pc.toNat) = rest.length + 2 :=
      (s.length_bytesAt _ _).symm.trans (congrArg List.length hbytes)
    refine step_of_decode_tooShort hd hw hpc ?_
    rw [hisa, hbytes, hhi, hlo, decode_F000, if_neg (by omega)]

/-! ## `FLAGS` (R171, R172) -/

/-- Settles O38: each builds the whole of its target, entry by entry. -/
theorem flagRegisterTransfers : Obligations.FlagRegisterTransfers := by
  refine ⟨fun x => ⟨decodesTo_firstWord (i := .storeFlags x) nofun, fun s => ⟨_, rfl, rfl, fun k => ?flags⟩⟩,
    fun x => ⟨decodesTo_firstWord (i := .loadFlags x) nofun, fun s => ⟨_, rfl, rfl, rfl, fun k => ?regs⟩⟩⟩
  case flags => exact Vector.getElem_ofFn k.isLt
  case regs => exact Vector.getElem_ofFn k.isLt

end Sys2Proof.Machine
end

section
/-! The display (spec/44_display.md): the planes under the mask, the scrolls, and the draw against R181 as Safety.lean writes
it out. -/

namespace Sys2Proof.Machine

/-! ## Planes rebuilt under the mask (R182) -/

theorem State.getElem_mapSelected_of_selected {s : State} {p : Fin 2} (f : Fin 2 → Plane → Plane)
    (hp : s.planeMask.getLsbD p.val = true) : (s.mapSelected f)[p] = f p s.planes[p] :=
  (s.getElem_mapSelected f p).trans (if_pos hp)

theorem State.getElem_mapSelected_of_unselected {s : State} {p : Fin 2} (f : Fin 2 → Plane → Plane)
    (hp : s.planeMask.getLsbD p.val = false) : (s.mapSelected f)[p] = s.planes[p] :=
  (s.getElem_mapSelected f p).trans (if_neg (Bool.eq_false_iff.mp hp))

/-! ## The draw (R181) -/

theorem State.spriteTotal_eq (s : State) (n : Nibble) : s.spriteTotal n = SpriteBytes s n :=
  congrArg (s.spriteRows n * s.spriteRowBytes n * ·) s.length_selected

theorem State.placePixel_eq_some_iff (s : State) (a b px py : Nat) :
    s.placePixel a b = some (px, py) ↔
      if s.config.quirks.spriteWraps then px = a % s.windowWidth ∧ py = b % s.windowHeight
      else px = a ∧ py = b ∧ px < s.windowWidth ∧ py < s.windowHeight := by
  unfold State.placePixel
  by_cases hwraps : s.config.quirks.spriteWraps = true
  · rw [if_pos hwraps, if_pos hwraps, Option.some_inj, Prod.mk_inj, eq_comm (a := px), eq_comm (a := py)]
  · rw [if_neg hwraps, if_neg hwraps]
    split
    case isTrue hin => rw [Option.some_inj, Prod.mk_inj]; omega
    case isFalse hout => exact iff_of_false nofun (by omega)

/-- The pixels of the block of a selected plane are those that R181 names. Once the rank of the plane and the place of a pixel
are written out, the two sides differ only in the names of `rows`, `bpr`, `w` and `h`. -/
theorem State.mem_spritePixels_iff_spriteHits {s : State} {p : Fin 2} (hp : s.planeMask.getLsbD p.val = true) (x y : Reg)
    (n : Nibble) (px py : Nat) :
    (px, py) ∈ s.spritePixels x y n (s.spriteBase n p) ↔ SpriteHits s x y n p px py := by
  simp only [State.mem_spritePixels, State.placePixel_eq_some_iff, State.spriteBase, s.planeRank_eq p hp]
  rfl

theorem State.pixel_drawPlanes {s : State} {p : Fin 2} (hp : s.planeMask.getLsbD p.val = true) (x y : Reg) (n : Nibble)
    (px py : Nat) :
    Plane.pixel (s.drawPlanes x y n)[p] px py =
      (Plane.pixel s.planes[p] px py ^^ decide ((px, py) ∈ s.spritePixels x y n (s.spriteBase n p))) := by
  rw [State.drawPlanes, State.getElem_mapSelected_of_selected _ hp]
  exact (s.drawPlane_spec x y n p).1 px py

/-- No pixel is flipped twice, so the collision bit says that some pixel is off after the draw that was on before. -/
theorem State.drawCollides_iff (s : State) (x y : Reg) (n : Nibble) :
    s.drawCollides x y n = true ↔
      ∃ (p : Fin 2) (px py : Nat), Plane.pixel s.planes[p] px py = true ∧
        Plane.pixel (s.drawPlanes x y n)[p] px py = false := by
  simp only [State.drawCollides, List.any_eq_true, State.mem_selected, (s.drawPlane_spec x y n _).2]
  constructor
  · rintro ⟨p, hp, ⟨px, py⟩, hmem, hon⟩
    refine ⟨p, px, py, hon, ?_⟩
    rw [State.pixel_drawPlanes hp, hon, decide_eq_true hmem]
    rfl
  · rintro ⟨p, px, py, hon, hoff⟩
    cases hp : s.planeMask.getLsbD p.val
    case false =>
      rw [State.drawPlanes, State.getElem_mapSelected_of_unselected _ hp, hon] at hoff
      cases hoff
    case true =>
      rw [State.pixel_drawPlanes hp, hon, Bool.true_xor, Bool.not_eq_false', decide_eq_true_eq] at hoff
      exact ⟨p, hp, (px, py), hoff, hon⟩

theorem flagByte_eq_zero_or_one (b : Bool) : flagByte b = 0 ∨ flagByte b = 1 := by
  cases b
  · exact Or.inl rfl
  · exact Or.inr rfl

theorem flagByte_eq_one_iff (b : Bool) : flagByte b = 1 ↔ b = true := by cases b <;> decide

theorem exec_drw (x y : Reg) (n : Nibble) (s : State) :
    exec (.drw x y n) s = s.guardAccess s.i.toNat (SpriteBytes s n)
      (.next { (s.setReg 15 (flagByte (s.drawCollides x y n))).advance with
        planes := s.drawPlanes x y n, dwStall := s.dwStall || s.config.quirks.displayWait }) :=
  congrArg (s.guardAccess s.i.toNat · _) (s.spriteTotal_eq n)

/-- Settles O40: the blit lists each pixel of R181 once, so the draw flips exactly those. -/
theorem drawFlipsSpritePixels : Obligations.DrawFlipsSpritePixels := by
  refine fun x y n => ⟨decodesTo_firstWord (i := .drw x y n) nofun, fun s =>
    ⟨fun hbytes hout => ?outside, fun hin => ?inside⟩⟩
  case outside => rw [exec_drw, s.guardAccess_of_outside _ hbytes hout]
  case inside =>
    refine ⟨_, (exec_drw x y n s).trans (s.guardAccess_of_inBounds _ hin), rfl, s.sameRegsBut_setReg 15 _,
      fun p hp => State.getElem_mapSelected_of_unselected _ hp,
      fun p hp px py _ _ => ⟨fun hhit => ?flipped, fun hmiss => ?kept⟩, ?flag, ?collision⟩
    case flipped =>
      refine (State.pixel_drawPlanes hp x y n px py).trans ?_
      rw [decide_eq_true ((State.mem_spritePixels_iff_spriteHits hp x y n px py).mpr hhit), Bool.xor_true]
    case kept =>
      refine (State.pixel_drawPlanes hp x y n px py).trans ?_
      rw [decide_eq_false ((State.mem_spritePixels_iff_spriteHits hp x y n px py).not.mpr hmiss), Bool.xor_false]
    case flag => exact s.reg_setReg_self 15 _ ▸ flagByte_eq_zero_or_one _
    case collision =>
      exact s.reg_setReg_self 15 _ ▸ (flagByte_eq_one_iff _).trans (s.drawCollides_iff x y n)

/-! ## The scrolls (R185 to R188, R190) -/

/-- ScrollWindow as R190 is written out: its four cases are the branches of `pixel_scrollPlane`. -/
theorem State.scrolled_of_planes_eq {s t : State} {dx dy : Int} (hplanes : t.planes = s.scrollWindow dx dy) :
    Scrolled dx dy s t := by
  unfold Scrolled
  rw [hplanes]
  refine ⟨fun p hp => State.getElem_mapSelected_of_unselected _ hp, fun p hp x y hx hy => ?_⟩
  rw [State.scrollWindow, State.getElem_mapSelected_of_selected _ hp, pixel_scrollPlane _ _ _ _ _ _ _ _ hx hy]
  refine ⟨fun hout => ?outside, fun hxw hyh hwraps => ?wrapped, fun hxw hyh hwraps sx sy hsx hsy hsxw hsyh => ?moved,
    fun hxw hyh hwraps hvacated => ?filled⟩
  case outside => exact if_neg hout
  case wrapped => exact (if_pos ⟨hxw, hyh⟩).trans (if_pos hwraps)
  case moved =>
    refine (if_pos ⟨hxw, hyh⟩).trans ((if_neg (Bool.eq_false_iff.mp hwraps)).trans ?_)
    rw [← hsx, ← hsy, Int.toNat_natCast, Int.toNat_natCast]
    exact if_pos ⟨Int.natCast_nonneg sx, Int.ofNat_lt.mpr hsxw, Int.natCast_nonneg sy, Int.ofNat_lt.mpr hsyh⟩
  case filled =>
    exact (if_pos ⟨hxw, hyh⟩).trans ((if_neg (Bool.eq_false_iff.mp hwraps)).trans (if_neg hvacated))

/-- What every instruction answers that scrolls the window and ends with `PC <- npc`. -/
theorem exec_scrollWindow {i : Instr} {s : State} {dx dy : Int}
    (hexec : exec i s = .next { s.advance with planes := s.scrollWindow dx dy }) :
    ∃ t, exec i s = .next t ∧ OnlyPlanesPc s t ∧ t.pc = s.pc + 2 ∧ Scrolled dx dy s t :=
  ⟨_, hexec, rfl, rfl, State.scrolled_of_planes_eq rfl⟩

/-- Settles O42: the four are one ScrollWindow with their own offsets. -/
theorem scrollsMoveTheWindow : Obligations.ScrollsMoveTheWindow := by
  refine ⟨fun n => ⟨decodesTo_firstWord (i := .scd n) nofun, fun s => ?scd⟩,
    fun n => ⟨decodesTo_firstWord (i := .scu n) nofun, fun s => ?scu⟩,
    ⟨decodesTo_firstWord (i := .scr) nofun, fun s => ?scr⟩, ⟨decodesTo_firstWord (i := .scl) nofun, fun s => ?scl⟩⟩
  case scd => exact exec_scrollWindow rfl
  case scu => exact exec_scrollWindow rfl
  case scr => exact exec_scrollWindow rfl
  case scl => exact exec_scrollWindow rfl

/-! ## Clearing and selecting (R180, R183, R184, R189) -/

/-- Settles O39: a selected plane is replaced by the blank one. -/
theorem clearSelectedPlanes : Obligations.ClearSelectedPlanes := by
  refine ⟨decodesTo_firstWord (i := .cls) nofun, fun s => ⟨_, rfl, rfl, rfl, fun p => ⟨fun hp => ?unselected,
    fun hp x y => ?selected⟩⟩⟩
  case unselected => exact State.getElem_mapSelected_of_unselected _ hp
  case selected =>
    exact (congrArg (Plane.pixel · x y) (State.getElem_mapSelected_of_selected _ hp)).trans (Plane.pixel_blank x y)

theorem pixel_replicate_blank (p : Fin 2) (x y : Nat) : Plane.pixel (Vector.replicate 2 Plane.blank)[p] x y = false :=
  (congrArg (Plane.pixel · x y) (Vector.getElem_replicate p.isLt)).trans (Plane.pixel_blank x y)

/-- Settles O41: both put two blank planes, without a look at the mask. -/
theorem resolutionSwitchClears : Obligations.ResolutionSwitchClears := by
  refine ⟨decodesTo_firstWord (i := .low) nofun, decodesTo_firstWord (i := .high) nofun, fun s i b hform => ?_⟩
  rcases hform with ⟨rfl, rfl⟩ | ⟨rfl, rfl⟩
  · exact ⟨_, rfl, rfl, pixel_replicate_blank⟩
  · exact ⟨_, rfl, rfl, pixel_replicate_blank⟩

/-- A word without a row is Unknown at every level (R84). -/
theorem decode_of_unknownAtXoChip {w : Word} (hw : UnknownAtXoChip w) (isa : Isa) (rest : List Byte) :
    decode isa (hiByte w :: loByte w :: rest) = .unknown w := by
  have hrow : rowOf w (operandWord rest) = none := (rowOf_level w _).missing_iff.mpr hw
  refine (decode_eq_unknown_iff isa w rest).mpr fun i hi => ?_
  rw [hrow] at hi
  cases hi

theorem unknownAtXoChip_FX01 {x : Nibble} (hx : 0x4#4 ≤ x) : UnknownAtXoChip (wordXNN 0xF x 0x01) := by
  iterate 7 apply Or.inr
  rw [fieldOp_wordXNN, fieldNN_wordXNN, fieldX_wordXNN]
  exact ⟨rfl, rfl, hx⟩

/-- Settles O43: two bits of `X` are the mask; with more set, R86 lists the word. -/
theorem planeMaskSelected : Obligations.PlaneMaskSelected :=
  ⟨fun n => ⟨decodesTo_firstWord (i := .plane n) nofun, fun _ => rfl⟩,
    fun _ isa rest hx => decode_of_unknownAtXoChip (unknownAtXoChip_FX01 hx) isa rest⟩

end Sys2Proof.Machine
end

section
/-! Timers, audio and keys (spec/45_timers_audio_keys.md): the key latch, the waiting step, and the transfers. -/

namespace Sys2Proof.Machine

/-! ## The waiting step (R209) -/

theorem State.keyEvent_iff (s : State) (k : Fin 16) :
    s.keyEvent k = true ↔
      if s.config.quirks.keyWaitRelease then s.keysPrev[k] = true ∧ s.keys[k] = false
      else s.keysPrev[k] = false ∧ s.keys[k] = true := by
  unfold State.keyEvent
  split <;> rw [Bool.and_eq_true, Bool.not_eq_true']

theorem State.keyHit_eq_find? (s : State) : s.keyHit = Fin.find? s.keyEvent := Fin.find?_eq_find?_finRange.symm

theorem State.waitingStep_of_keyHit_none {s : State} (r : Reg) (h : s.keyHit = none) :
    s.waitingStep r = { s with keysPrev := s.keys } := by
  unfold State.waitingStep
  rw [h]

theorem State.waitingStep_of_keyHit_some {s : State} {k : Fin 16} (r : Reg) (h : s.keyHit = some k) :
    s.waitingStep r = { s.setReg r (BitVec.ofNat 8 k.val) with keysPrev := s.keys, waitReg := none } := by
  unfold State.waitingStep
  rw [h]

/-- Settles O10: the search for the hit finds nothing, or the least key with the event. -/
theorem waitingStepSamplesTheKeys : Obligations.WaitingStepSamplesTheKeys := by
  intro s r hd hw event
  have hevent (k : Fin 16) : s.keyEvent k = true ↔ event k := s.keyEvent_iff k
  have hquiet (k : Fin 16) (h : ¬event k) : s.keyEvent k = false := Bool.eq_false_iff.mpr (mt (hevent k).mp h)
  refine ⟨s.waitingStep r, step_of_waiting hd hw, s.waitingStep_eq r, fun hnone => ?goesOn, fun k hk hleast => ?ends⟩
  case goesOn =>
    have hhit : s.keyHit = none := by
      rw [State.keyHit_eq_find?, Fin.find?_eq_none_iff]
      exact fun k => hquiet k (hnone k)
    rw [State.waitingStep_of_keyHit_none r hhit]
    exact ⟨rfl, hw⟩
  case ends =>
    have hhit : s.keyHit = some k := by
      rw [State.keyHit_eq_find?, Fin.find?_eq_some_iff]
      exact ⟨(hevent k).mpr hk, fun j hj => hquiet j (hleast j hj)⟩
    rw [State.waitingStep_of_keyHit_some r hhit]
    exact ⟨rfl, s.reg_setReg_self r _, s.sameRegsBut_setReg r _⟩

/-! ## The key skips (R206, R207) -/

theorem lowNibble_eq_of_val_eq {b : Byte} {k : Fin 16} (h : k.val = b.toNat % 16) : lowNibble b = k :=
  Fin.ext ((val_lowNibble b).trans h.symm)

/-- Settles O23: each is `State.skipIf` of the latch at the low nibble of `VX`. -/
theorem keySkips : Obligations.KeySkips := by
  refine ⟨fun x => ⟨decodesTo_firstWord (i := .skp x) nofun, fun s k hk => ?skp⟩,
    fun x => ⟨decodesTo_firstWord (i := .sknp x) nofun, fun s k hk => ?sknp⟩⟩
  case skp =>
    rw [← lowNibble_eq_of_val_eq hk]
    exact congrArg _ (s.skipIf_eq_of_iff Iff.rfl)
  case sknp =>
    rw [← lowNibble_eq_of_val_eq hk]
    exact congrArg _ (s.skipIf_eq_of_iff (Bool.not_eq_true' _).to_iff)

/-! ## The transfers and the entry of the wait (R200 to R202, R204, R205, R208) -/

/-- Settles O44: FX07 is one `State.setReg`; the others write one timer. -/
theorem timerTransfers : Obligations.TimerTransfers := by
  refine fun x => ⟨⟨decodesTo_firstWord (i := .ldVxDt x) nofun, fun s => ?ldVxDt⟩,
    ⟨decodesTo_firstWord (i := .ldDtVx x) nofun, fun s => rfl⟩,
    ⟨decodesTo_firstWord (i := .ldStVx x) nofun, fun s => rfl⟩⟩
  case ldVxDt => exact ⟨_, rfl, rfl, s.sameRegsBut_setReg x s.dt, s.reg_setReg_self x s.dt, rfl⟩

/-- Settles O45: AUDIO is a guarded read of sixteen bytes; PITCH writes one item. -/
theorem audioPatternAndPitch : Obligations.AudioPatternAndPitch := by
  refine ⟨⟨decodesTo_firstWord (i := .audio) nofun, fun s => ?audio⟩,
    fun x => ⟨decodesTo_firstWord (i := .pitch x) nofun, fun s => rfl⟩⟩
  case audio =>
    obtain ⟨houtside, hinside⟩ := exec_of_guardAccess (i := .audio) (s := s) (n := 15) rfl
    exact ⟨houtside, fun h => ⟨_, hinside h, rfl, fun k => Vector.getElem_ofFn k.isLt⟩⟩

/-- Settles O46: no key is looked at, so the entry is the same whatever keys are down. -/
theorem keyWaitIsEntered : Obligations.KeyWaitIsEntered :=
  fun x => ⟨decodesTo_firstWord (i := .ldVxK x) nofun, fun _ => rfl⟩

end Sys2Proof.Machine
end

section
/-! The seven commands (spec/46_host_commands.md R220 to R224): what holds of every next state, and
the commands that write or read a few items. -/

namespace Sys2Proof.Machine

/-! ## What holds of every next state -/

/-- Every next state that an outcome can be has the property. -/
def AllNext (P : State → Prop) (r : Result) : Prop := ∀ t, r = .next t → P t

theorem allNext_next {P : State → Prop} {t : State} (h : P t) : AllNext P (.next t) := by
  rintro _ ⟨⟩
  exact h

theorem allNext_fault (P : State → Prop) (f : Fault) : AllNext P (.fault f) := by
  rintro _ ⟨⟩

/-- A guarded operation has a next state only within bounds. -/
theorem allNext_guardAccess {P : State → Prop} {s t : State} {base n : Nat} (h : s.inBounds base n = true → P t) :
    AllNext P (s.guardAccess base n (.next t)) := by
  intro u hu
  obtain ⟨hin, ht⟩ := State.guardAccess_eq_next hu
  exact allNext_next (h hin) u ht

/-- The state after a STEP or LOAD_ROM is the next state, the state after a fault, or the state before. -/
theorem State.settle_of_allNext {P : State → Prop} {s : State} {r : Result} (hnext : AllNext P r) (hself : P s)
    (hfault : ∀ f, P (s.afterFault f)) : P (s.settle r).1 := by
  cases r with
  | next t => exact hnext t rfl
  | fault f => exact hfault f
  | refused q => exact hself

/-! ## TICK, SET_KEY and the readers -/

theorem toNat_countDown (b : Byte) : (countDown b).toNat = b.toNat - 1 := by
  unfold countDown
  split
  · next h => rw [h]; rfl
  · next h => bv_omega

/-- Settles O47: both timers go by `countDown`, whose floor is that of subtraction on naturals. -/
theorem tickCountsDownToZero : Obligations.TickCountsDownToZero :=
  fun s => ⟨rfl, rfl, toNat_countDown s.dt, toNat_countDown s.st⟩

/-- Settles O48: SET_KEY is one `Vector.set`, and the readers answer what they read. -/
theorem keyLatchAndReaders : Obligations.KeyLatchAndReaders := by
  refine ⟨fun s k b => ⟨s.setKey k b, rfl, rfl, ?set, fun j hj => ?frame⟩, fun s => ⟨rfl, fun x y => ?colour⟩,
    fun s => rfl⟩
  case set => exact Vector.getElem_set_self k.isLt
  case colour => simp only [DisplayView.colour, State.display, Bool.toNat, cond_eq_ite]
  case frame => exact Vector.getElem_set_ne k.isLt j.isLt (Fin.val_ne_of_ne hj.symm)

end Sys2Proof.Machine
end

section
/-! The invariant of spec/10_state.md R53 under every command (spec/46_host_commands.md R220): one lemma per item of
`State.Inv` that a meaning writes, then the instructions by the items they write, then the commands. -/

namespace Sys2Proof.Machine

/-! ## The items that the invariant does not speak of -/

/-- Nothing changed but items that `State.Inv` does not speak of. -/
def OnlyOutsideInv (s t : State) : Prop :=
  t = { s with
    v := t.v, i := t.i, pc := t.pc, dt := t.dt, st := t.st, keys := t.keys, keysPrev := t.keysPrev, rng := t.rng,
    lastUnknown := t.lastUnknown }

theorem OnlyRegsPc.onlyOutsideInv {s t : State} (h : OnlyRegsPc s t) : OnlyOutsideInv s t := by
  rw [h]; rfl

theorem OnlyRegsIndexPc.onlyOutsideInv {s t : State} (h : OnlyRegsIndexPc s t) : OnlyOutsideInv s t := by
  rw [h]; rfl

theorem State.onlyOutsideInv_afterFault (s : State) (f : Fault) : OnlyOutsideInv s (s.afterFault f) := by
  rw [s.afterFault_eq f]; rfl

/-! ## The planes (R53 (c), (e)) -/

theorem Plane.insideLowWindow_blank : Plane.insideLowWindow Plane.blank := fun x y _ => Plane.pixel_blank x y

theorem getElem_replicate_blank (p : Fin 2) : (Vector.replicate 2 Plane.blank)[p] = Plane.blank :=
  Vector.getElem_replicate p.isLt

theorem insideLowWindow_replicate_blank (p : Fin 2) : Plane.insideLowWindow (Vector.replicate 2 Plane.blank)[p] := by
  rw [getElem_replicate_blank]
  exact Plane.insideLowWindow_blank

/-- A plane rebuilt pixel by pixel keeps to the low window where every pixel outside is as it was. -/
theorem Plane.insideLowWindow_of_same {p q : Plane} (hp : Plane.insideLowWindow p)
    (h : ∀ x y, ¬(x < 64 ∧ y < 32) → Plane.pixel q x y = Plane.pixel p x y) : Plane.insideLowWindow q :=
  fun x y hxy => (h x y hxy).trans (hp x y hxy)

/-- A sprite touches no pixel outside the window (R181). -/
theorem State.pixel_drawPlane_of_outside {s : State} (x y : Reg) (n : Nibble) (p : Fin 2) {px py : Nat}
    (h : ¬(px < s.windowWidth ∧ py < s.windowHeight)) :
    Plane.pixel (s.drawPlane x y n p).1 px py = Plane.pixel s.planes[p] px py := by
  have hmem : (px, py) ∉ s.spritePixels x y n (s.spriteBase n p) := by
    intro hq
    obtain ⟨r, c, -, -, -, hplace⟩ := (s.mem_spritePixels x y n _ _).mp hq
    exact h (State.placePixel_in_window hplace)
  rw [(s.drawPlane_spec x y n p).1, decide_eq_false hmem, Bool.xor_false]

/-- A scroll moves no pixel outside the window (R190). -/
theorem pixel_scrollPlane_of_outside (wraps : Bool) {w h : Nat} (dx dy : Int) (old : Plane) {x y : Nat}
    (hout : ¬(x < w ∧ y < h)) : Plane.pixel (scrollPlane wraps w h dx dy old) x y = Plane.pixel old x y := by
  by_cases hx : x < 128
  · by_cases hy : y < 64
    · rw [pixel_scrollPlane wraps w h dx dy old x y hx hy, if_neg hout]
    · rw [Plane.pixel_of_row_ge _ (by omega), Plane.pixel_of_row_ge _ (by omega)]
  · rw [Plane.pixel_of_col_ge _ (by omega), Plane.pixel_of_col_ge _ (by omega)]

theorem State.low_window_size {s : State} (h : s.hires = false) : s.windowWidth = 64 ∧ s.windowHeight = 32 := by
  unfold State.windowWidth State.windowHeight
  rw [h]
  exact ⟨rfl, rfl⟩

/-! ## Levels (R47, R84) -/

theorem Isa.eq_xoChip_of_atLeast {isa : Isa} (h : isa.atLeast .xoChip = true) : isa = .xoChip := by
  cases isa
  case xoChip => rfl
  all_goals exact absurd h (by decide)

theorem Isa.ne_chip8_of_atLeast {isa : Isa} (h : isa.atLeast .superChip = true) : isa ≠ .chip8 := by
  rintro rfl
  exact absurd h (by decide)

/-! ## One lemma per item -/

namespace State.Inv

variable {s t : State} (h : s.Inv)
include h

theorem of_onlyOutsideInv (ht : OnlyOutsideInv s t) : t.Inv := by
  rw [ht]
  exact { h with }

/-- A plane that the mask leaves out below XOChip stays, and the low window is kept. -/
theorem withPlanes {ps : Vector Plane 2} (hsecond : s.planeMask = 0b01 → ps[(1 : Fin 2)] = s.planes[(1 : Fin 2)])
    (hlow : s.hires = false → ∀ p : Fin 2, Plane.insideLowWindow ps[p]) : State.Inv { s with planes := ps } :=
  { h with
    belowXoChip := fun hisa =>
      let ⟨hmask, hplane, haudio⟩ := h.belowXoChip hisa
      ⟨hmask, (hsecond hmask).trans hplane, haudio⟩
    lowWindow := hlow }

/-- The selected planes rebuilt, each within the low window. -/
theorem mapSelected (f : Fin 2 → Plane → Plane)
    (hf : s.hires = false → ∀ p, Plane.insideLowWindow s.planes[p] → Plane.insideLowWindow (f p s.planes[p])) :
    State.Inv { s with planes := s.mapSelected f } := by
  refine h.withPlanes (fun hmask => ?second) (fun hlow p => ?low)
  case second => exact State.getElem_mapSelected_of_unselected f (by rw [hmask]; rfl)
  case low =>
    rw [s.getElem_mapSelected f p]
    split
    · exact hf hlow p (h.lowWindow hlow p)
    · exact h.lowWindow hlow p

theorem clearSelected : State.Inv { s with planes := s.mapSelected fun _ _ => Plane.blank } :=
  h.mapSelected _ fun _ _ _ => Plane.insideLowWindow_blank

theorem scrollWindow (dx dy : Int) : State.Inv { s with planes := s.scrollWindow dx dy } := by
  refine h.mapSelected _ fun hlow p hp => Plane.insideLowWindow_of_same hp fun x y hxy => ?_
  obtain ⟨hw, hh⟩ := State.low_window_size hlow
  exact pixel_scrollPlane_of_outside _ dx dy _ (by rwa [hw, hh])

theorem drawPlanes (x y : Reg) (n : Nibble) : State.Inv { s with planes := s.drawPlanes x y n } := by
  refine h.mapSelected _ fun hlow p hp => Plane.insideLowWindow_of_same hp fun px py hxy => ?_
  obtain ⟨hw, hh⟩ := State.low_window_size hlow
  exact State.pixel_drawPlane_of_outside x y n p (by rwa [hw, hh])

/-- A resolution switch clears both planes; the high resolution exists from SuperChip on. -/
theorem switchResolution (b : Bool) (hb : s.config.quirks.isa = .chip8 → b = false) :
    State.Inv { s with hires := b, planes := Vector.replicate 2 Plane.blank } :=
  { h with
    belowXoChip := fun hisa =>
      let ⟨hmask, _, haudio⟩ := h.belowXoChip hisa
      ⟨hmask, getElem_replicate_blank 1, haudio⟩
    atChip8 := fun hisa => ⟨hb hisa, (h.atChip8 hisa).2⟩
    lowWindow := fun _ => insideLowWindow_replicate_blank }

theorem writeXoChip (hisa : s.config.quirks.isa = .xoChip) (mask : BitVec 2) (pattern : Vector Byte 16) (pitch : Byte) :
    State.Inv { s with planeMask := mask, pattern := pattern, pitch := pitch } :=
  { h with belowXoChip := fun hbelow => absurd hisa hbelow }

theorem writeFlags (hisa : s.config.quirks.isa ≠ .chip8) (flags : Vector Byte 16) : State.Inv { s with flags := flags } :=
  { h with atChip8 := fun hchip8 => absurd hchip8 hisa }

/-- The display wait begins only where no key is waited for. -/
theorem writeStall (hw : s.waitReg = none) (b : Bool) : State.Inv { s with dwStall := b } :=
  { h with waitNotStalled := fun hwait => absurd hw hwait }

theorem endStall : State.Inv { s with dwStall := false } :=
  { h with waitNotStalled := fun _ => rfl }

/-- A key wait begins or ends only where the display wait is over. -/
theorem writeWait (hd : s.dwStall = false) (w : Option Reg) : State.Inv { s with waitReg := w } :=
  { h with waitNotStalled := fun _ => hd }

theorem pop (hsp : s.sp ≠ 0) : State.Inv { s with sp := s.sp - 1 } :=
  { h with spBound := show (s.sp - 1).toNat ≤ s.config.stackDepth by have := h.spBound; bv_omega }

theorem push (hroom : s.sp.toNat ≠ s.config.stackDepth) (a : Word) :
    State.Inv { s with stack := s.stack.set s.sp.toNat a, sp := s.sp + 1 } := by
  have hlt : s.sp.toNat < s.config.stackDepth := h.spBound.lt_of_ne hroom
  exact
    { h with
      stackLength := List.length_set.trans h.stackLength
      spBound := (h.toNat_sp_add_one hlt).trans_le hlt }

theorem storeBytes {a : Nat} {bs : List Byte} (hne : bs.length ≠ 0) (hin : s.inBounds a bs.length = true) :
    (s.storeBytes a bs).Inv :=
  { h with memWf := State.wf_storeBytes h.memWf (((s.inBounds_iff a _).mp hin).resolve_left hne) }

end State.Inv

/-! ## Instructions -/

/-- A running instruction of the level keeps the invariant. The instructions are grouped by the items they write. -/
theorem State.Inv.exec {i : Instr} {s : State} (h : s.Inv) (hd : s.dwStall = false) (hw : s.waitReg = none)
    (hwf : i.wf s.config.quirks.isa = true) : AllNext State.Inv (exec i s) := by
  cases i
  -- planes
  case cls => exact allNext_next (h.clearSelected.of_onlyOutsideInv rfl)
  case scd | scu | scr | scl => exact allNext_next ((h.scrollWindow _ _).of_onlyOutsideInv rfl)
  case drw x y n =>
    exact allNext_guardAccess fun _ => ((h.drawPlanes x y n).writeStall hw _).of_onlyOutsideInv rfl
  case low => exact allNext_next ((h.switchResolution false fun _ => rfl).of_onlyOutsideInv rfl)
  case high =>
    have hisa := Isa.ne_chip8_of_atLeast hwf
    exact allNext_next ((h.switchResolution true fun hchip8 => absurd hchip8 hisa).of_onlyOutsideInv rfl)
  -- stack
  case ret =>
    by_cases hsp : s.sp = 0
    · rw [exec_ret_of_empty hsp]; exact allNext_fault _ _
    · rw [exec_ret_of_nonempty hsp]; exact allNext_next ((h.pop hsp).of_onlyOutsideInv rfl)
  case call nnn =>
    by_cases hroom : s.sp.toNat = s.config.stackDepth
    · rw [exec_call_of_full nnn hroom]; exact allNext_fault _ _
    · rw [exec_call_of_room nnn hroom]; exact allNext_next ((h.push hroom _).of_onlyOutsideInv rfl)
  -- memory
  case ldBVx x =>
    exact allNext_guardAccess fun hin => (h.storeBytes (bs := decimalDigits (s.reg x)) nofun hin).of_onlyOutsideInv rfl
  case saveRange x y =>
    refine allNext_guardAccess fun hin => (h.storeBytes (bs := s.spanBytes x y) ?_ ?_).of_onlyOutsideInv rfl
    all_goals rw [State.length_spanBytes]
    · exact Nat.succ_ne_zero _
    · exact hin
  case storeRegs x =>
    refine allNext_guardAccess fun hin => (h.storeBytes (bs := s.spanBytes 0 x) ?_ ?_).of_onlyOutsideInv rfl
    all_goals rw [State.length_spanBytes, spanCount_zero]
    · exact Nat.succ_ne_zero _
    · exact hin
  -- items of a level
  case plane n =>
    exact allNext_next ((h.writeXoChip (Isa.eq_xoChip_of_atLeast hwf) n s.pattern s.pitch).of_onlyOutsideInv rfl)
  case audio =>
    exact allNext_guardAccess fun _ =>
      (h.writeXoChip (Isa.eq_xoChip_of_atLeast hwf) s.planeMask _ s.pitch).of_onlyOutsideInv rfl
  case pitch x =>
    exact allNext_next ((h.writeXoChip (Isa.eq_xoChip_of_atLeast hwf) s.planeMask s.pattern _).of_onlyOutsideInv rfl)
  case storeFlags x => exact allNext_next ((h.writeFlags (Isa.ne_chip8_of_atLeast hwf) _).of_onlyOutsideInv rfl)
  -- the key wait
  case ldVxK x => exact allNext_next ((h.writeWait hd (some x)).of_onlyOutsideInv rfl)
  -- none of the invariant's items
  case orReg | andReg | xorReg =>
    exact allNext_next (h.of_onlyOutsideInv (s.onlyRegsPc_setLogic_advance _ _).onlyOutsideInv)
  case loadRange x y =>
    exact allNext_guardAccess fun _ => h.of_onlyOutsideInv (s.onlyRegsPc_loadSpan_advance x y _).onlyOutsideInv
  case loadRegs x =>
    exact allNext_guardAccess fun _ =>
      h.of_onlyOutsideInv (s.onlyRegsIndexPc_loadSpan_setIndex_advance 0 x _ _).onlyOutsideInv
  case ldILong => exact allNext_guardAccess fun _ => h.of_onlyOutsideInv rfl
  all_goals exact allNext_next (h.of_onlyOutsideInv rfl)

/-! ## STEP, LOAD_ROM and the other commands -/

theorem State.Inv.waitingStep {s : State} (h : s.Inv) (hd : s.dwStall = false) (r : Reg) : (s.waitingStep r).Inv := by
  rw [s.waitingStep_eq r]
  exact (h.writeWait hd (s.waitingStep r).waitReg).of_onlyOutsideInv rfl

theorem State.Inv.unknownStep {s : State} (h : s.Inv) (w : Word) : AllNext State.Inv (s.unknownStep w) := by
  rcases s.unknownStep_cases w with ⟨-, hu⟩ | ⟨-, hu⟩ <;> rw [hu]
  · exact allNext_fault _ _
  · exact allNext_next (h.of_onlyOutsideInv rfl)

theorem State.Inv.step {s : State} (h : s.Inv) : AllNext State.Inv (step s) := by
  rcases step_cases s with
    ⟨-, hs⟩ | ⟨r, hd, -, hs⟩ | ⟨i, hd, hw, -, hwf, hs⟩ | ⟨w, -, -, -, hs⟩ | ⟨base, -, -, -, hs⟩ <;> rw [hs]
  · exact allNext_next h
  · exact allNext_next (h.waitingStep hd r)
  · exact h.exec hd hw hwf
  · exact h.unknownStep w
  · exact allNext_fault _ _

/-- The state that CONSTRUCT gives meets the invariant where the configuration is legal. -/
theorem State.inv_construct {c : Config} (hc : c.legal = true) : (State.construct c).Inv where
  configLegal := hc
  stackLength := List.length_replicate
  spBound := Nat.zero_le _
  waitNotStalled := fun _ => rfl
  belowXoChip := fun _ => ⟨rfl, getElem_replicate_blank 1, rfl, rfl⟩
  atChip8 := fun _ => ⟨rfl, rfl⟩
  lowWindow := fun _ => insideLowWindow_replicate_blank
  memWf := rfl

theorem State.origin_le_memSize (s : State) : origin ≤ s.memSize := by
  unfold State.memSize
  cases s.config.memSize <;> decide

/-- The image is laid within memory, since one that is not is rejected (R263). -/
theorem State.Inv.loadRom {s : State} (h : s.Inv) (bs : List Byte) : AllNext State.Inv (s.loadRom bs) := by
  rcases s.loadRom_cases bs with ⟨-, hl⟩ | ⟨hfits, hl⟩ <;> rw [hl]
  · exact allNext_fault _ _
  · have hin : origin + bs.length ≤ s.memSize := by have := s.origin_le_memSize; omega
    exact allNext_next { State.inv_construct h.configLegal with memWf := Memory.wfFrom_ofBytes (Nat.zero_le _) hin }

theorem State.Inv.settle {s : State} (h : s.Inv) {r : Result} (hr : AllNext State.Inv r) : (s.settle r).1.Inv :=
  State.settle_of_allNext hr h fun f => h.of_onlyOutsideInv (s.onlyOutsideInv_afterFault f)

theorem State.Inv.command {s : State} (h : s.Inv) {c : Command} (hc : ∀ k, c = .construct k → k.legal = true) :
    (s.command c).1.Inv := by
  cases c with
  | construct k => exact State.inv_construct (hc k rfl)
  | loadRom bs => exact h.settle (h.loadRom bs)
  | step => exact h.settle h.step
  | tick => exact h.endStall.of_onlyOutsideInv rfl
  | setKey k p => exact h.of_onlyOutsideInv rfl
  | display => exact h
  | audio => exact h

/-- Settles O54, by induction on the list: every command keeps the invariant (`State.Inv.command`). -/
theorem commandsKeepInvariant : Obligations.CommandsKeepInvariant := fun s cs hs hcs =>
  State.runCommands_induction s cs hs fun _ _ hmem ht => ht.command fun k hk => hcs k (hk ▸ hmem)

end Sys2Proof.Machine
end

section
/-! Histories of commands (spec/46_host_commands.md R226): the end of a stall, and a key wait that does not end. -/

namespace Sys2Proof.Machine

/-! ## Stalls and key waits -/

theorem History.not_stalled_after_tick {h : History} {n : Nat} (hn : h n = .tick) (s : State) :
    (h.state s (n + 1)).dwStall = false := by
  rw [History.state_succ, hn]
  rfl

/-- A key wait with no event pending (R209): no key has moved since the snapshot. -/
def State.WaitsQuietly (r : Reg) (s : State) : Prop := s.waitReg = some r ∧ s.keysPrev = s.keys

theorem State.WaitsQuietly.step_eq {r : Reg} {s : State} (hs : s.WaitsQuietly r) : step s = .next s := by
  obtain ⟨hwait, hkeys⟩ := hs
  cases hd : s.dwStall
  · rw [step_of_waiting hd hwait, State.waitingStep_of_no_event r hkeys]
  · exact step_of_stalled hd

theorem State.WaitsQuietly.command {r : Reg} {s : State} (hs : s.WaitsQuietly r) {c : Command}
    (hkey : ∀ k p, c ≠ .setKey k p) (hconstruct : ∀ k, c ≠ .construct k) (hload : ∀ bs, c ≠ .loadRom bs) :
    (s.command c).1.WaitsQuietly r := by
  cases c with
  | construct k => exact absurd rfl (hconstruct k)
  | loadRom bs => exact absurd rfl (hload bs)
  | step => rw [State.command, hs.step_eq]; exact hs
  | tick => exact hs
  | setKey k p => exact absurd rfl (hkey k p)
  | display => exact hs
  | audio => exact hs

theorem State.WaitsQuietly.history {r : Reg} {s : State} (hs : s.WaitsQuietly r) {h : History}
    (hquiet : ∀ n, (∀ k p, h n ≠ .setKey k p) ∧ (∀ c, h n ≠ .construct c) ∧ ∀ bs, h n ≠ .loadRom bs) (n : Nat) :
    (h.state s n).WaitsQuietly r :=
  History.state_induction h s 0 hs
    (fun k _ hk => hk.command (hquiet k).1 (hquiet k).2.1 (hquiet k).2.2) n (Nat.zero_le n)

/-- The history in which the host ticks and steps in turn and does nothing else. -/
def History.tickStep : History := fun n => if n % 2 = 0 then .tick else .step

theorem History.fairTick_tickStep : History.tickStep.FairTick := fun n => ⟨2 * n, by omega, if_pos (by omega)⟩

theorem History.fairStep_tickStep : History.tickStep.FairStep := fun n => ⟨2 * n + 1, by omega, if_neg (by omega)⟩

theorem History.tickStep_quiet (n : Nat) :
    (∀ k p, History.tickStep n ≠ .setKey k p) ∧ (∀ c, History.tickStep n ≠ .construct c) ∧
      ∀ bs, History.tickStep n ≠ .loadRom bs := by
  unfold History.tickStep
  split <;> simp

/-- Settles O59: a TICK ends the stall, and the quiet wait is kept by every command of a quiet history, `History.tickStep`
among them. -/
theorem stallsEndKeyWaitsNeedNot : Obligations.StallsEndKeyWaitsNeedNot := by
  refine ⟨fun h s => ⟨fun n hn => History.not_stalled_after_tick hn s, fun hfair n => ?ends⟩,
    fun s r hwait hkeys => ⟨fun h hquiet n => ?lasts, History.tickStep, History.fairTick_tickStep,
      History.fairStep_tickStep, fun n => ?witness⟩⟩
  case ends =>
    obtain ⟨m, hm, htick⟩ := hfair n
    exact ⟨m + 1, by omega, History.not_stalled_after_tick htick s⟩
  all_goals have hs : s.WaitsQuietly r := ⟨hwait, hkeys⟩
  case lasts => exact (hs.history hquiet n).1
  case witness => exact (hs.history History.tickStep_quiet n).1

end Sys2Proof.Machine
end

section
/-! The delay timer in a history of commands, and the loops on it (spec/46_host_commands.md R226,
spec/70_reset_and_hazards.md R275). -/

namespace Sys2Proof.Machine

/-! ## `DT` runs down -/

/-- Only `FX15` writes `DT`. -/
theorem exec_keeps_dt {i : Instr} (hi : ∀ x, i ≠ .ldDtVx x) (s : State) : AllNext (fun t => t.dt = s.dt) (exec i s) := by
  cases i
  case ldDtVx x => exact absurd rfl (hi x)
  case ret =>
    by_cases hsp : s.sp = 0
    · rw [exec_ret_of_empty hsp]; exact allNext_fault _ _
    · rw [exec_ret_of_nonempty hsp]; exact allNext_next rfl
  case call nnn =>
    by_cases hroom : s.sp.toNat = s.config.stackDepth
    · rw [exec_call_of_full nnn hroom]; exact allNext_fault _ _
    · rw [exec_call_of_room nnn hroom]; exact allNext_next rfl
  case orReg | andReg | xorReg => exact allNext_next (s.setLogic_dt _ _)
  case loadRegs | loadRange => exact allNext_guardAccess fun _ => s.loadSpan_dt _ _ _
  case drw | ldBVx | storeRegs | saveRange | ldILong | audio => exact allNext_guardAccess fun _ => rfl
  all_goals exact allNext_next rfl

theorem State.waitingStep_dt (s : State) (r : Reg) : (s.waitingStep r).dt = s.dt := by
  rw [s.waitingStep_eq r]

theorem step_keeps_dt {s : State} (hs : ∀ x, ¬s.Runs (.ldDtVx x)) : AllNext (fun t => t.dt = s.dt) (step s) := by
  rcases step_cases s with
    ⟨-, h⟩ | ⟨r, -, -, h⟩ | ⟨i, hd, hw, hf, -, h⟩ | ⟨w, -, -, -, h⟩ | ⟨base, -, -, -, h⟩ <;> rw [h]
  · exact allNext_next rfl
  · exact allNext_next (s.waitingStep_dt r)
  · exact exec_keeps_dt (fun x hx => hs x ⟨hd, hw, hx ▸ hf⟩) s
  · rcases s.unknownStep_cases w with ⟨-, hu⟩ | ⟨-, hu⟩ <;> rw [hu]
    · exact allNext_fault _ _
    · exact allNext_next rfl
  · exact allNext_fault _ _

/-- A command without `FX15` lets `DT` fall or be reset, never rise. -/
theorem State.dt_command_le {s : State} {c : Command} (hs : c = .step → ∀ x, ¬s.Runs (.ldDtVx x)) :
    (s.command c).1.dt.toNat ≤ s.dt.toNat := by
  cases c with
  | construct k => exact Nat.zero_le _
  | loadRom bs =>
    refine State.settle_of_allNext (P := fun t => t.dt.toNat ≤ s.dt.toNat) (fun t ht => ?_) le_rfl
      fun f => (congrArg BitVec.toNat (s.afterFault_dt f)).le
    rw [State.eq_of_loadRom_next ht]
    exact Nat.zero_le _
  | step =>
    exact State.settle_of_allNext (P := fun t => t.dt.toNat ≤ s.dt.toNat)
      (fun t ht => (congrArg BitVec.toNat (step_keeps_dt (hs rfl) t ht)).le) le_rfl
      fun f => (congrArg BitVec.toNat (s.afterFault_dt f)).le
  | tick => exact (toNat_countDown s.dt).trans_le (Nat.sub_le _ _)
  | setKey k p => exact le_rfl
  | display => exact le_rfl
  | audio => exact le_rfl

/-- A number that never rises and counts down again and again reaches 0. -/
theorem exists_eq_zero_of_antitone {f : Nat → Nat} (hf : Antitone f) (hdown : ∀ n, ∃ m, n ≤ m ∧ f (m + 1) = f m - 1) :
    ∃ n, f n = 0 := by
  have hle (j : Nat) : ∃ n, f n ≤ f 0 - j := by
    induction j with
    | zero => exact ⟨0, le_rfl⟩
    | succ j ih =>
      obtain ⟨n, hn⟩ := ih
      obtain ⟨m, hnm, hm⟩ := hdown n
      have := hf hnm
      exact ⟨m + 1, by omega⟩
  obtain ⟨n, hn⟩ := hle (f 0)
  exact ⟨n, by omega⟩

theorem History.dt_eventually_zero {h : History} {s : State} (hfair : h.FairTick)
    (hrun : ∀ n x, h n = .step → ¬(h.state s n).Runs (.ldDtVx x)) : ∃ n, ∀ m, n ≤ m → (h.state s m).dt = 0 := by
  have hanti : Antitone fun n => (h.state s n).dt.toNat :=
    antitone_nat_of_succ_le fun n => State.dt_command_le fun hstep x => hrun n x hstep
  obtain ⟨n, hn⟩ := exists_eq_zero_of_antitone hanti fun n => by
    obtain ⟨m, hnm, hm⟩ := hfair n
    refine ⟨m, hnm, ?_⟩
    rw [History.state_succ, hm]
    exact toNat_countDown _
  exact ⟨n, fun m hnm => BitVec.eq_of_toNat_eq (Nat.le_zero.mp ((hanti hnm).trans_eq hn))⟩

/-! ## Up to the next STEP -/

/-- Nothing changed but what TICK and SET_KEY write. -/
def OnlyTimersStallKeys (s t : State) : Prop :=
  t = { s with dt := t.dt, st := t.st, dwStall := t.dwStall, keys := t.keys }

theorem OnlyTimersStallKeys.trans {s t u : State} (hst : OnlyTimersStallKeys s t) (htu : OnlyTimersStallKeys t u) :
    OnlyTimersStallKeys s u := by
  rw [htu, hst]
  rfl

/-- The commands but STEP, CONSTRUCT and LOAD_ROM write the timers, the stall and the key latch, and leave `DT` at 0. -/
theorem State.onlyTimersStallKeys_command (s : State) {c : Command} (hstep : c ≠ .step) (hconstruct : ∀ k, c ≠ .construct k)
    (hload : ∀ bs, c ≠ .loadRom bs) :
    OnlyTimersStallKeys s (s.command c).1 ∧ (s.dt = 0 → (s.command c).1.dt = 0) ∧
      (s.dwStall = false → (s.command c).1.dwStall = false) := by
  cases c with
  | construct k => exact absurd rfl (hconstruct k)
  | loadRom bs => exact absurd rfl (hload bs)
  | step => exact absurd rfl hstep
  | tick => exact ⟨rfl, fun hdt => congrArg countDown hdt, fun _ => rfl⟩
  | setKey k p => exact ⟨rfl, id, id⟩
  | display => exact ⟨rfl, id, id⟩
  | audio => exact ⟨rfl, id, id⟩

theorem History.exists_next_step {h : History} (hfair : h.FairStep)
    (hkeep : ∀ n, (∀ c, h n ≠ .construct c) ∧ ∀ bs, h n ≠ .loadRom bs) (s : State) (n : Nat) :
    ∃ m, n ≤ m ∧ h m = .step ∧ OnlyTimersStallKeys (h.state s n) (h.state s m) := by
  obtain ⟨last, hle, hlast⟩ := hfair n
  obtain ⟨k, rfl⟩ := Nat.exists_eq_add_of_le hle
  clear hle
  induction k generalizing n with
  | zero => exact ⟨n, le_rfl, hlast, rfl⟩
  | succ k ih =>
    by_cases hn : h n = .step
    · exact ⟨n, le_rfl, hn, rfl⟩
    · obtain ⟨m, hm, hstep, hsame⟩ := ih (n + 1) (by rwa [Nat.add_right_comm])
      have hfirst := ((h.state s n).onlyTimersStallKeys_command hn (hkeep n).1 (hkeep n).2).1
      exact ⟨m, by omega, hstep, hfirst.trans hsame⟩

/-! ## The instructions of the loop -/

theorem Isa.atLeast_chip8 (isa : Isa) : isa.atLeast .chip8 = true := by cases isa <;> rfl

/-- The word at `PC` of an instruction that every level has is fetched as that instruction. -/
theorem State.fetch_of_firstWord {s : State} {i : Instr} (hlong : ∀ nnnn, i ≠ .ldILong nnnn) (hchip8 : i.minIsa = .chip8)
    (hpc : s.pc.toNat + 1 < s.memSize)
    (hword : joinBytes (s.byteAt s.pc.toNat) (s.byteAt (s.pc.toNat + 1)) = firstWord i) : s.fetch = .instr i := by
  obtain ⟨rest, hbytes⟩ := State.fetchBytes_eq hpc
  have hdecode := decodesTo_firstWord hlong s.config.quirks.isa rest
  rw [← hword, hiByte_joinBytes, loByte_joinBytes, ← hbytes, hchip8, if_pos (Isa.atLeast_chip8 _)] at hdecode
  rw [State.fetch, if_pos ((s.inBounds_iff _ _).mpr (by omega)), hdecode]

/-- The operand of the jump to an address that a `JP` reaches. -/
theorem firstWord_jp_setWidth {a : Word} (ha : a.toNat ≤ 0x0FFF) :
    firstWord (.jp (a.setWidth 12)) = 0x1000#16 ||| a := by
  apply BitVec.eq_of_toNat_eq
  change (0x1#4 ++ a.setWidth 12).toNat = (0x1000#16 ||| a).toNat
  rw [BitVec.toNat_append, BitVec.toNat_or, BitVec.toNat_setWidth, Nat.mod_eq_of_lt (by omega)]
  rfl

theorem zext16_setWidth {a : Word} (ha : a.toNat ≤ 0x0FFF) : zext16 (a.setWidth 12) = a := by
  apply BitVec.eq_of_toNat_eq
  rw [toNat_zext16, BitVec.toNat_setWidth, Nat.mod_eq_of_lt (by omega)]

section AtDtLoop

variable {s : State} {x : Reg} (hs : s.AtDtLoop x)
include hs

theorem State.AtDtLoop.pc_le : s.pc.toNat ≤ 0x0FFF := by
  obtain ⟨-, hlow, -⟩ := hs
  exact hlow

theorem State.AtDtLoop.loadWord :
    joinBytes (s.byteAt (s.pc.toNat + 0)) (s.byteAt (s.pc.toNat + 0 + 1)) = firstWord (.ldVxDt x) := by
  obtain ⟨-, -, -, hword, -, -⟩ := hs
  exact hword

theorem State.AtDtLoop.testWord :
    joinBytes (s.byteAt (s.pc.toNat + 2)) (s.byteAt (s.pc.toNat + 2 + 1)) = firstWord (.seImm x 0) := by
  obtain ⟨-, -, -, -, hword, -⟩ := hs
  exact hword

theorem State.AtDtLoop.jumpWord :
    joinBytes (s.byteAt (s.pc.toNat + 4)) (s.byteAt (s.pc.toNat + 4 + 1)) = firstWord (.jp (s.pc.setWidth 12)) := by
  obtain ⟨-, hlow, -, -, -, hword⟩ := hs
  exact hword.trans (firstWord_jp_setWidth hlow).symm

end AtDtLoop

/-- A state in which the loop on `DT` that `s` starts still runs. After the load of `VX` a zero there means that `DT` was 0. -/
structure State.InDtLoop (s : State) (x : Reg) (t : State) : Prop where
  config : t.config = s.config
  mem : t.mem = s.mem
  running : t.waitReg = none
  place : t.pc = s.pc ∨ (t.pc = s.pc + 2 ∧ (t.reg x = 0 → t.dt = 0)) ∨ t.pc = s.pc + 4

/-- The state behind the loop. -/
def State.PastDtLoop (s : State) (x : Reg) (t : State) : Prop := t.pc = s.pc + 6 ∧ t.dt = 0 ∧ t.reg x = 0

namespace State.InDtLoop

variable {s t u : State} {x : Reg}

theorem of_onlyTimersStallKeys (ht : s.InDtLoop x t) (htu : OnlyTimersStallKeys t u) (hdt : t.dt = 0 → u.dt = 0) :
    s.InDtLoop x u := by
  rw [htu]
  exact { ht with place := ht.place.imp_right (Or.imp_left (And.imp_right fun hzero hx => hdt (hzero hx))) }

theorem of_goto (ht : s.InDtLoop x t) {a : Word} (ha : a = s.pc ∨ a = s.pc + 4) : s.InDtLoop x (t.goto a) :=
  { ht with place := ha.imp_right Or.inr }

variable (hs : s.AtDtLoop x) (ht : s.InDtLoop x t)
include hs ht

/-- The word at offset `k` of the loop is the one fetched there. -/
theorem fetch_of_offset {i : Instr} {k : Nat} (hk : k ≤ 4) (hpc : t.pc = s.pc + BitVec.ofNat 16 k)
    (hlong : ∀ nnnn, i ≠ .ldILong nnnn) (hchip8 : i.minIsa = .chip8)
    (hword : joinBytes (s.byteAt (s.pc.toNat + k)) (s.byteAt (s.pc.toNat + k + 1)) = firstWord i) :
    t.fetch = .instr i := by
  obtain ⟨-, hlow, hin, -⟩ := hs
  have haddr : t.pc.toNat = s.pc.toNat + k := by
    rw [hpc, BitVec.toNat_add, BitVec.toNat_ofNat]
    omega
  have hsize : t.memSize = s.memSize := congrArg (fun c => c.memSize.bytes) ht.config
  refine State.fetch_of_firstWord hlong hchip8 (by omega) ?_
  rw [haddr, State.byteAt_congr ht.config ht.mem, State.byteAt_congr ht.config ht.mem, hword]

theorem fetch_load (hpc : t.pc = s.pc) : t.fetch = .instr (.ldVxDt x) :=
  ht.fetch_of_offset hs (k := 0) (by omega) (hpc.trans (BitVec.add_zero _).symm) nofun rfl hs.loadWord

theorem fetch_test (hpc : t.pc = s.pc + 2) : t.fetch = .instr (.seImm x 0) :=
  ht.fetch_of_offset hs (k := 2) (by omega) hpc nofun rfl hs.testWord

theorem fetch_back (hpc : t.pc = s.pc + 4) : t.fetch = .instr (.jp (s.pc.setWidth 12)) :=
  ht.fetch_of_offset hs (k := 4) (by omega) hpc nofun rfl hs.jumpWord

omit hs ht in
theorem npc_test (hpc : t.pc = s.pc + 2) : t.npc = s.pc + 4 := by
  rw [State.npc, hpc, BitVec.add_assoc]
  rfl

/-- The word that the test skips is the jump, whose first byte is no `F0`. -/
theorem skipWidth_test (hpc : t.pc = s.pc + 2) : t.skipWidth = 2 := by
  have haddr : t.npc.toNat = s.pc.toNat + 4 := by
    have := hs.pc_le
    rw [npc_test hpc]
    bv_omega
  refine if_neg fun ⟨_, _, hbyte, _⟩ => ?_
  rw [haddr, State.byteAt_congr ht.config ht.mem] at hbyte
  have hop := congrArg fieldOp hs.jumpWord
  rw [hbyte, show fieldOp (firstWord (.jp (s.pc.setWidth 12))) = 0x1 from fieldOp_wordNNN _ _] at hop
  exact absurd ((fieldOp_wordXNN 0xF 0x0 _).symm.trans hop) (by decide)

/-! ### One STEP at each place, not stalled -/

variable (hd : t.dwStall = false)
include hd

theorem step_load (hpc : t.pc = s.pc) : step t = .next (t.setReg x t.dt).advance := by
  rw [step_of_running hd ht.running, ht.fetch_load hs hpc]
  rfl

theorem step_test (hpc : t.pc = s.pc + 2) :
    step t = .next (t.goto (if t.reg x = 0 then s.pc + 6 else s.pc + 4)) := by
  rw [step_of_running hd ht.running, ht.fetch_test hs hpc]
  have htaken : t.npc + t.skipWidth = s.pc + 6 := by
    rw [npc_test hpc, ht.skipWidth_test hs hpc, BitVec.add_assoc]
    rfl
  change Host.Outcome.next (t.skipIf (t.reg x == 0)) = _
  unfold State.skipIf
  rw [htaken, npc_test hpc]
  simp only [beq_iff_eq]

theorem step_back (hpc : t.pc = s.pc + 4) : step t = .next (t.goto s.pc) := by
  rw [step_of_running hd ht.running, ht.fetch_back hs hpc]
  exact congrArg (fun a => Host.Outcome.next (t.goto a)) (zext16_setWidth hs.pc_le)

/-- A STEP stays in the loop or leaves it behind. -/
theorem step : ∃ u, step t = .next u ∧ u.dwStall = false ∧ (s.InDtLoop x u ∨ s.PastDtLoop x u) := by
  rcases ht.place with hpc | ⟨hpc, hzero⟩ | hpc
  · refine ⟨_, ht.step_load hs hd hpc, hd, Or.inl { ht with place := Or.inr (Or.inl ⟨?_, fun hx => ?_⟩) }⟩
    · exact congrArg (· + 2) hpc
    · exact (t.reg_setReg_self x t.dt).symm.trans hx
  · refine ⟨_, ht.step_test hs hd hpc, hd, ?_⟩
    split
    · next hx => exact Or.inr ⟨rfl, hzero hx, hx⟩
    · exact Or.inl (ht.of_goto (Or.inr rfl))
  · exact ⟨_, ht.step_back hs hd hpc, hd, Or.inl (ht.of_goto (Or.inl rfl))⟩

omit hd

/-- A command that does not start over stays in the loop or leaves it behind, and begins no stall. -/
theorem command {c : Command} (hconstruct : ∀ k, c ≠ .construct k) (hload : ∀ bs, c ≠ .loadRom bs) :
    (s.InDtLoop x (t.command c).1 ∨ s.PastDtLoop x (t.command c).1) ∧
      (t.dwStall = false → (t.command c).1.dwStall = false) := by
  by_cases hstep : c = .step
  · subst hstep
    cases hd : t.dwStall
    · obtain ⟨u, hu, hstall, hplace⟩ := ht.step hs hd
      rw [State.command, hu]
      exact ⟨hplace, fun _ => hstall⟩
    · rw [State.command, step_of_stalled hd]
      exact ⟨Or.inl ht, fun hnot => absurd hnot nofun⟩
  · obtain ⟨honly, hdt, hstall⟩ := t.onlyTimersStallKeys_command hstep hconstruct hload
    exact ⟨Or.inl (ht.of_onlyTimersStallKeys honly hdt), hstall⟩

/-- No STEP of the loop runs `FX15`. -/
theorem not_runs_ldDtVx (y : Reg) : ¬t.Runs (.ldDtVx y) := by
  rintro ⟨-, -, hfetch⟩
  rcases ht.place with hpc | ⟨hpc, -⟩ | hpc
  · cases (ht.fetch_load hs hpc).symm.trans hfetch
  · cases (ht.fetch_test hs hpc).symm.trans hfetch
  · cases (ht.fetch_back hs hpc).symm.trans hfetch

end State.InDtLoop

/-! ## The loop ends -/

theorem State.AtDtLoop.inDtLoop {s : State} {x : Reg} (hs : s.AtDtLoop x) : s.InDtLoop x s := by
  obtain ⟨hw, -⟩ := hs
  exact ⟨rfl, rfl, hw, Or.inl rfl⟩

section Loop

variable {h : History} {s : State} {x : Reg} (hs : s.AtDtLoop x)
  (hkeep : ∀ n, (∀ c, h n ≠ .construct c) ∧ ∀ bs, h n ≠ .loadRom bs)
include hs hkeep

/-- A loop that is never left runs at every point of the history. -/
theorem History.inDtLoop_of_never_past (hnever : ∀ n, ¬s.PastDtLoop x (h.state s n)) (n : Nat) :
    s.InDtLoop x (h.state s n) := by
  induction n with
  | zero => exact hs.inDtLoop
  | succ n ih => exact (ih.command hs (hkeep n).1 (hkeep n).2).1.resolve_right (hnever (n + 1))

/-- A loop that is never left ends up with `DT` at 0 and no stall. -/
theorem History.inDtLoop_settles (hfair : h.FairTick) (hnever : ∀ n, ¬s.PastDtLoop x (h.state s n)) :
    ∃ n, ∀ m, n ≤ m → (h.state s m).dt = 0 ∧ (h.state s m).dwStall = false := by
  have hin := History.inDtLoop_of_never_past hs hkeep hnever
  obtain ⟨n, hzero⟩ := History.dt_eventually_zero hfair fun k y _ => (hin k).not_runs_ldDtVx hs y
  obtain ⟨k, hnk, htick⟩ := hfair n
  have hrunning := History.state_induction (P := fun t => t.dwStall = false) h s (k + 1)
    (History.not_stalled_after_tick htick s) fun m _ => ((hin m).command hs (hkeep m).1 (hkeep m).2).2
  exact ⟨k + 1, fun m hm => ⟨hzero m (by omega), hrunning m hm⟩⟩

end Loop

/-- The loop that `s` starts runs at every point of a history that keeps stepping, and from point `N` on `DT` is 0 and no stall
is left. -/
structure History.SettledDtLoop (h : History) (s : State) (x : Reg) (N : Nat) : Prop where
  fairStep : h.FairStep
  keep : ∀ n, (∀ c, h n ≠ .construct c) ∧ ∀ bs, h n ≠ .loadRom bs
  start : s.AtDtLoop x
  inLoop : ∀ n, s.InDtLoop x (h.state s n)
  settled : ∀ n, N ≤ n → (h.state s n).dt = 0 ∧ (h.state s n).dwStall = false

namespace History.SettledDtLoop

variable {h : History} {s : State} {x : Reg} {N n : Nat} (hl : h.SettledDtLoop s x N) (hn : N ≤ n)
include hl hn

/-- The next STEP finds `PC` and `VX` as they are. -/
theorem exists_step : ∃ m, N ≤ m ∧ (h.state s m).pc = (h.state s n).pc ∧ (h.state s m).reg x = (h.state s n).reg x ∧
    ∀ u, Machine.step (h.state s m) = .next u → h.state s (m + 1) = u := by
  obtain ⟨m, hnm, hstep, hsame⟩ := History.exists_next_step hl.fairStep hl.keep s n
  refine ⟨m, hn.trans hnm, ?_, ?_, fun u hu => ?_⟩
  · rw [hsame]
  · rw [hsame]; rfl
  · rw [History.state_succ, hstep, State.command, hu]; rfl

theorem load_leads_to_test (hpc : (h.state s n).pc = s.pc) :
    ∃ m, N ≤ m ∧ (h.state s m).pc = s.pc + 2 ∧ (h.state s m).reg x = 0 := by
  obtain ⟨m, hm, hpcm, -, hnext⟩ := hl.exists_step hn
  obtain ⟨hdt, hd⟩ := hl.settled m hm
  refine ⟨m + 1, hm.trans m.le_succ, ?_⟩
  rw [hnext _ ((hl.inLoop m).step_load hl.start hd (hpcm.trans hpc))]
  exact ⟨congrArg (· + 2) (hpcm.trans hpc), (State.reg_setReg_self _ x _).trans hdt⟩

theorem test_leads_on (hpc : (h.state s n).pc = s.pc + 2) :
    ∃ m, N ≤ m ∧ (h.state s m).reg x = (h.state s n).reg x ∧
      (h.state s m).pc = if (h.state s n).reg x = 0 then s.pc + 6 else s.pc + 4 := by
  obtain ⟨m, hm, hpcm, hreg, hnext⟩ := hl.exists_step hn
  refine ⟨m + 1, hm.trans m.le_succ, ?_⟩
  rw [hnext _ ((hl.inLoop m).step_test hl.start (hl.settled m hm).2 (hpcm.trans hpc)), hreg]
  exact ⟨hreg, rfl⟩

theorem back_leads_to_load (hpc : (h.state s n).pc = s.pc + 4) : ∃ m, N ≤ m ∧ (h.state s m).pc = s.pc := by
  obtain ⟨m, hm, hpcm, -, hnext⟩ := hl.exists_step hn
  refine ⟨m + 1, hm.trans m.le_succ, ?_⟩
  rw [hnext _ ((hl.inLoop m).step_back hl.start (hl.settled m hm).2 (hpcm.trans hpc))]
  rfl

theorem test_zero_leads_past (hpc : (h.state s n).pc = s.pc + 2) (hx : (h.state s n).reg x = 0) :
    ∃ m, s.PastDtLoop x (h.state s m) := by
  obtain ⟨m, hm, hreg, hpcm⟩ := hl.test_leads_on hn hpc
  exact ⟨m, hpcm.trans (if_pos hx), (hl.settled m hm).1, hreg.trans hx⟩

theorem load_leads_past (hpc : (h.state s n).pc = s.pc) : ∃ m, s.PastDtLoop x (h.state s m) := by
  obtain ⟨m, hm, hpcm, hx⟩ := hl.load_leads_to_test hn hpc
  exact hl.test_zero_leads_past hm hpcm hx

theorem back_leads_past (hpc : (h.state s n).pc = s.pc + 4) : ∃ m, s.PastDtLoop x (h.state s m) := by
  obtain ⟨m, hm, hpcm⟩ := hl.back_leads_to_load hn hpc
  exact hl.load_leads_past hm hpcm

theorem test_leads_past (hpc : (h.state s n).pc = s.pc + 2) : ∃ m, s.PastDtLoop x (h.state s m) := by
  by_cases hx : (h.state s n).reg x = 0
  · exact hl.test_zero_leads_past hn hpc hx
  · obtain ⟨m, hm, -, hpcm⟩ := hl.test_leads_on hn hpc
    exact hl.back_leads_past hm (hpcm.trans (if_neg hx))

theorem leads_past : ∃ m, s.PastDtLoop x (h.state s m) := by
  rcases (hl.inLoop n).place with hpc | ⟨hpc, -⟩ | hpc
  · exact hl.load_leads_past hn hpc
  · exact hl.test_leads_past hn hpc
  · exact hl.back_leads_past hn hpc

end History.SettledDtLoop

/-- Settles O60: every TICK lowers `DT` and nothing but `FX15` raises it. A loop never left would settle at `DT` 0
(`History.inDtLoop_settles`), and the next STEPs would then lead past it (`History.SettledDtLoop.leads_past`). -/
theorem delayTimerLoopsEnd : Obligations.DelayTimerLoopsEnd := by
  refine ⟨fun h s hfair hrun => History.dt_eventually_zero hfair hrun, fun h s x htick hstep hkeep hs => ?_⟩
  by_contra hnever
  have hpast := not_exists.mp hnever
  obtain ⟨n, hsettled⟩ := History.inDtLoop_settles hs hkeep htick hpast
  have hl : h.SettledDtLoop s x n := ⟨hstep, hkeep, hs, History.inDtLoop_of_never_past hs hkeep hpast, hsettled⟩
  exact hnever (hl.leads_past le_rfl)

end Sys2Proof.Machine
end

section
/-! What the command LOAD_ROM rejects, and what an accepted one depends on (spec/70_reset_and_hazards.md R263). -/

namespace Sys2Proof.Machine

theorem State.loadRom_of_too_long {s : State} {bs : List Byte} (hlong : bs.length > s.memSize - origin) :
    s.loadRom bs = .fault (.invalidRomLength bs.length) := by
  rcases s.loadRom_cases bs with ⟨-, hf⟩ | ⟨hfits, -⟩
  · exact hf
  · omega

theorem State.exists_loadRom_next {s : State} {bs : List Byte} (hfits : bs.length ≤ s.memSize - origin) :
    ∃ t, s.loadRom bs = .next t := by
  rcases s.loadRom_cases bs with ⟨hlong, -⟩ | ⟨-, hn⟩
  · omega
  · exact ⟨_, hn⟩

/-- LOAD_ROM reads nothing of the state but the configuration, the generator and the key latch. -/
theorem State.loadRom_congr {s u : State} (hconfig : u.config = s.config) (hrng : u.rng = s.rng)
    (hkeys : u.keys = s.keys) (bs : List Byte) : u.loadRom bs = s.loadRom bs := by
  unfold State.loadRom State.memSize
  rw [hconfig, hrng, hkeys]

theorem State.command_loadRom_of_next {s t : State} {bs : List Byte} (h : s.loadRom bs = .next t) :
    s.command (.loadRom bs) = (t, .ok) :=
  congrArg s.settle h

/-- A rejected image changes nothing: the fault is no `UnknownOpcode`, so LAST_UNKNOWN stays as well. -/
theorem State.command_loadRom_of_too_long {s : State} {bs : List Byte} (hlong : bs.length > s.memSize - origin) :
    s.command (.loadRom bs) = (s, .fault (.invalidRomLength bs.length)) := by
  have hfault : s.command (.loadRom bs) =
      (s.afterFault (.invalidRomLength bs.length), .fault (.invalidRomLength bs.length)) :=
    congrArg s.settle (State.loadRom_of_too_long hlong)
  rw [hfault, s.afterFault_of_ne_unknownOpcode (by simp)]

/-- Settles O49: an accepted image leaves a fresh construct with the image in memory (`State.eq_of_loadRom_next`), and what it
leaves depends on no more of the old state than `State.loadRom_congr` names. -/
theorem loadRomForgetsTheRun : Obligations.LoadRomForgetsTheRun := by
  refine fun s bs => ⟨State.command_loadRom_of_too_long, fun hfits => ?_⟩
  obtain ⟨t, ht⟩ := State.exists_loadRom_next hfits
  refine ⟨t, State.command_loadRom_of_next ht, ?_, State.byteAt_of_loadRom_next (s := s) ht, fun u hconfig hrng hkeys => ?_⟩
  · rw [State.eq_of_loadRom_next ht]
  · exact State.command_loadRom_of_next ((State.loadRom_congr hconfig hrng hkeys bs).trans ht)

end Sys2Proof.Machine
end

section
/-! The decoder and the encoder undo each other (spec/30_encoding.md sections 1 and 2). -/

namespace Sys2Proof

/-! ## The word of a row is the first word of its instruction (R82, R85) -/

theorem wordXYN_of_fieldOp_fieldN {w : Word} {op n : Nibble} (hop : fieldOp w = op) (hn : fieldN w = n) :
    wordXYN op (fieldX w) (fieldY w) n = w := by
  rw [← hop, ← hn, wordXYN_fields]

theorem wordXYN_of_fieldOp_fieldX_fieldY {w : Word} {op x y : Nibble} (hop : fieldOp w = op) (hx : fieldX w = x)
    (hy : fieldY w = y) : wordXYN op x y (fieldN w) = w := by
  rw [← hop, ← hx, ← hy, wordXYN_fields]

theorem wordXNN_of_fieldOp_fieldNN {w : Word} {op : Nibble} {nn : Byte} (hop : fieldOp w = op) (hnn : fieldNN w = nn) :
    wordXNN op (fieldX w) nn = w := by
  rw [← hop, ← hnn, wordXNN_fields]

theorem wordNNN_of_fieldOp {w : Word} {op : Nibble} (hop : fieldOp w = op) : wordNNN op (fieldNNN w) = w := by
  rw [← hop, wordNNN_fields]

/-- The two bits of a plane mask are all of `X` when bits 11:10 of the word are clear. -/
theorem append_extractLsb'_two : ∀ x : Nibble, x.extractLsb' 2 2 = 0#2 → 0#2 ++ x.extractLsb' 0 2 = x := by decide

theorem wordXNN_plane_of_fields {w : Word} (hop : fieldOp w = 0xF) (hx : (fieldX w).extractLsb' 2 2 = 0#2)
    (hnn : fieldNN w = 0x01) : wordXNN 0xF (0#2 ++ (fieldX w).extractLsb' 0 2) 0x01 = w := by
  rw [append_extractLsb'_two _ hx, wordXNN_of_fieldOp_fieldNN hop hnn]

section Rows

variable {w nnnn : Word} {i : Instr}

theorem firstWord_of_rowZero (hop : fieldOp w = 0x0) (h : rowZero w = some i) : firstWord i = w := by
  unfold rowZero at h
  split at h
  case isFalse => cases h
  next hx =>
  split at h
  case h_1 hy | h_2 hy => cases h; exact wordXYN_of_fieldOp_fieldX_fieldY hop hx hy
  split at h
  case h_8 => cases h
  all_goals
    next hnn =>
    cases h
    exact (eq_wordXNN_iff.mpr ⟨hop, hx, hnn⟩).symm

theorem firstWord_of_rowFive (hop : fieldOp w = 0x5) (h : rowFive w = some i) : firstWord i = w := by
  unfold rowFive at h
  split at h
  case h_4 => cases h
  all_goals
    next hn =>
    cases h
    exact wordXYN_of_fieldOp_fieldN hop hn

theorem firstWord_of_rowEight (hop : fieldOp w = 0x8) (h : rowEight w = some i) : firstWord i = w := by
  unfold rowEight at h
  split at h
  case h_10 => cases h
  all_goals
    next hn =>
    cases h
    exact wordXYN_of_fieldOp_fieldN hop hn

theorem firstWord_of_rowNine (hop : fieldOp w = 0x9) (h : rowNine w = some i) : firstWord i = w := by
  unfold rowNine at h
  split at h
  case h_1 hn => cases h; exact wordXYN_of_fieldOp_fieldN hop hn
  case h_2 => cases h

theorem firstWord_of_rowE (hop : fieldOp w = 0xE) (h : rowE w = some i) : firstWord i = w := by
  unfold rowE at h
  split at h
  case h_3 => cases h
  all_goals
    next hnn =>
    cases h
    exact wordXNN_of_fieldOp_fieldNN hop hnn

theorem firstWord_of_rowF (hop : fieldOp w = 0xF) (h : rowF w nnnn = some i) : firstWord i = w := by
  unfold rowF at h
  split at h
  case h_1 hnn | h_3 hnn =>
    obtain ⟨hx, hi⟩ := Option.ite_none_right_eq_some.mp h
    cases hi
    exact (eq_wordXNN_iff.mpr ⟨hop, hx, hnn⟩).symm
  case h_2 hnn =>
    obtain ⟨hx, hi⟩ := Option.ite_none_right_eq_some.mp h
    cases hi
    exact wordXNN_plane_of_fields hop hx hnn
  case h_17 => cases h
  all_goals
    next hnn =>
    cases h
    exact wordXNN_of_fieldOp_fieldNN hop hnn

theorem firstWord_of_rowOf (h : rowOf w nnnn = some i) : firstWord i = w := by
  unfold rowOf at h
  split at h
  case h_1 hop => exact firstWord_of_rowZero hop h
  case h_6 hop => exact firstWord_of_rowFive hop h
  case h_9 hop => exact firstWord_of_rowEight hop h
  case h_10 hop => exact firstWord_of_rowNine hop h
  case h_15 hop => exact firstWord_of_rowE hop h
  case h_16 hop => exact firstWord_of_rowF hop h
  case h_17 => cases h
  case h_2 hop | h_3 hop | h_11 hop | h_12 hop => cases h; exact wordNNN_of_fieldOp hop
  case h_14 hop => cases h; exact wordXYN_of_fieldOp_fieldN hop rfl
  all_goals
    next hop =>
    cases h
    exact wordXNN_of_fieldOp_fieldNN hop rfl

theorem rowOf_F000 (nnnn : Word) : rowOf 0xF000 nnnn = some (.ldILong nnnn) := rfl

/-- The row of a word is the one instruction that has it as its first word; `F000 NNNN` takes the word behind it. -/
theorem rowOf_eq_some_iff :
    rowOf w nnnn = some i ↔ firstWord i = w ∧ ∀ long, i = .ldILong long → long = nnnn := by
  constructor
  · intro h
    obtain rfl := firstWord_of_rowOf h
    refine ⟨rfl, ?_⟩
    rintro long rfl
    exact Instr.ldILong.inj (Option.some.inj (h.symm.trans (rowOf_F000 nnnn)))
  · rintro ⟨rfl, hlong⟩
    by_cases hi : ∃ long, i = .ldILong long
    · obtain ⟨long, rfl⟩ := hi
      rw [hlong long rfl]
      exact rowOf_F000 nnnn
    · exact rowOf_firstWord (not_exists.mp hi) nnnn

end Rows

/-! ## The bytes of an instruction (R63, R80, R87) -/

/-- The bytes behind the first word: the operand word of `F000 NNNN`, high byte first. -/
def operandBytes : Instr → List Byte
  | .ldILong nnnn => [hiByte nnnn, loByte nnnn]
  | _ => []

theorem encode_eq (i : Instr) : encode i = hiByte (firstWord i) :: loByte (firstWord i) :: operandBytes i := by
  cases i
  all_goals rfl

theorem operandBytes_of_ne_ldILong {i : Instr} (hi : ∀ nnnn, i ≠ .ldILong nnnn) : operandBytes i = [] := by
  cases i
  case ldILong nnnn => exact absurd rfl (hi nnnn)
  all_goals rfl

/-- The decoder accepts a legal instruction where its first word is read and its operand bytes come next. -/
theorem decode_eq_instr_iff_operandBytes {isa : Isa} {hi lo : Byte} {tail rest : List Byte} {i : Instr} :
    decode isa (hi :: lo :: tail) = .instr i rest ↔
      i.wf isa = true ∧ firstWord i = joinBytes hi lo ∧ tail = operandBytes i ++ rest := by
  rw [decode_eq_instr_iff, rowOf_eq_some_iff]
  by_cases hlong : ∃ nnnn, i = .ldILong nnnn
  · obtain ⟨nnnn, rfl⟩ := hlong
    constructor
    · rintro ⟨⟨hword, hoperand⟩, hwf, hsize, hrest⟩
      match tail, hsize with
      | a :: b :: more, _ =>
        obtain rfl : nnnn = joinBytes a b := hoperand nnnn rfl
        obtain rfl : more = rest := hrest
        refine ⟨hwf, hword, ?_⟩
        rw [operandBytes, hiByte_joinBytes, loByte_joinBytes]
        rfl
    · rintro ⟨hwf, hword, rfl⟩
      refine ⟨⟨hword, ?_⟩, hwf, ?_, rfl⟩
      · rintro _ ⟨⟩
        exact (joinBytes_hiByte_loByte nnnn).symm
      · change 4 ≤ rest.length + 2 + 2
        omega
  · have hshort := not_exists.mp hlong
    rw [operandBytes_of_ne_ldILong hshort, Instr.size_eq_two hshort, List.nil_append]
    constructor
    · rintro ⟨⟨hword, -⟩, hwf, -, hrest⟩
      exact ⟨hwf, hword, hrest⟩
    · rintro ⟨hwf, hword, hrest⟩
      exact ⟨⟨hword, fun nnnn hi => absurd hi (hshort nnnn)⟩, hwf, by omega, hrest⟩

/-- The decoder accepts exactly the encodings of the level's instructions, with anything behind. -/
theorem decode_eq_instr_iff_encode {isa : Isa} {bs rest : List Byte} {i : Instr} :
    decode isa bs = .instr i rest ↔ i.wf isa = true ∧ bs = encode i ++ rest := by
  rw [encode_eq]
  constructor
  · intro h
    match bs, h with
    | hi :: lo :: tail, h =>
      obtain ⟨hwf, hword, rfl⟩ := decode_eq_instr_iff_operandBytes.mp h
      refine ⟨hwf, ?_⟩
      rw [hword, hiByte_joinBytes, loByte_joinBytes]
      rfl
  · rintro ⟨hwf, rfl⟩
    exact decode_eq_instr_iff_operandBytes.mpr ⟨hwf, (joinBytes_hiByte_loByte _).symm, rfl⟩

/-- Settles O1: the easy direction of `decode_eq_instr_iff_encode`. -/
theorem decodeEncodeRoundTrip : Obligations.DecodeEncodeRoundTrip := fun _ _ _ hwf =>
  decode_eq_instr_iff_encode.mpr ⟨hwf, rfl⟩

/-- Settles O2: the other direction, where the fields of a matched row assemble to the word (`firstWord_of_rowOf`). -/
theorem decodedBytesAreTheEncoding : Obligations.DecodedBytesAreTheEncoding := fun _ _ _ _ h =>
  decode_eq_instr_iff_encode.mp h

/-- Settles O5: each list of bytes is the encoding of its instruction. -/
theorem writtenOutWordsDecode : Obligations.WrittenOutWordsDecode :=
  ⟨decodeEncodeRoundTrip .superChip (.scd 7) [] rfl,
    decodeEncodeRoundTrip .chip8 .ret [] rfl,
    decodeEncodeRoundTrip .chip8 (.jp 0xABC) [] rfl,
    decodeEncodeRoundTrip .chip8 (.call 0x6D8) [] rfl,
    decodeEncodeRoundTrip .chip8 (.seImm 10 0x5C) [] rfl,
    decodeEncodeRoundTrip .chip8 (.sneImm 5 0xB1) [] rfl,
    decodeEncodeRoundTrip .xoChip (.saveRange 1 14) [] rfl,
    decodeEncodeRoundTrip .chip8 (.ldImm 14 0x93) [] rfl,
    decodeEncodeRoundTrip .chip8 (.addImm 4 0xF2) [] rfl,
    decodeEncodeRoundTrip .chip8 (.subnReg 13 2) [] rfl,
    decodeEncodeRoundTrip .chip8 (.sneReg 12 6) [] rfl,
    decodeEncodeRoundTrip .chip8 (.ldI 0x71E) [] rfl,
    decodeEncodeRoundTrip .chip8 (.jpV0 0x2A0) [] rfl,
    decodeEncodeRoundTrip .chip8 (.rnd 8 0x3D) [] rfl,
    decodeEncodeRoundTrip .chip8 (.drw 1 2 5) [] rfl,
    decodeEncodeRoundTrip .chip8 (.sknp 7) [] rfl,
    decodeEncodeRoundTrip .xoChip (.plane 3) [] rfl,
    decodeEncodeRoundTrip .xoChip (.ldILong 0x1234) [] rfl,
    decodeEncodeRoundTrip .chip8 (.loadRegs 11) [] rfl⟩

end Sys2Proof
end

section
/-! The decoder against the rows of the opcode table as data (spec/30_encoding.md R84, R85), and the length of an instruction
(R80, R87). -/

namespace Sys2Proof

/-! ## The rows are disjoint -/

/-- Two rows that one word fits have the same pattern in the bits that both their masks keep. -/
theorem OpcodeRow.agree_of_fits {r q : OpcodeRow} {w : Word} (hr : r.fits w = true) (hq : q.fits w = true) :
    r.pattern &&& q.mask = q.pattern &&& r.mask := by
  rw [← beq_iff_eq.mp hr, ← beq_iff_eq.mp hq, BitVec.and_assoc, BitVec.and_assoc, BitVec.and_comm r.mask]

/-- Any two rows of R85 have different patterns in the bits that both their masks keep. -/
theorem opcodeRows_pairwise_differ :
    opcodeRows.Pairwise fun r q => r.pattern &&& q.mask ≠ q.pattern &&& r.mask := by
  decide

/-- At most one row fits a word. -/
theorem opcodeRows_index_unique {w : Word} {j k : Nat} (hj : j < opcodeRows.length) (hk : k < opcodeRows.length)
    (hfitsj : opcodeRows[j].fits w = true) (hfitsk : opcodeRows[k].fits w = true) : j = k := by
  have hdiffer := List.pairwise_iff_getElem.mp opcodeRows_pairwise_differ
  rcases Nat.lt_trichotomy j k with hlt | heq | hgt
  · exact absurd (OpcodeRow.agree_of_fits hfitsj hfitsk) (hdiffer j k hj hk hlt)
  · exact heq
  · exact absurd (OpcodeRow.agree_of_fits hfitsk hfitsj) (hdiffer k j hk hj hgt)

/-! ## Every word of a row is the first word of an instruction at the row's level -/

/-- Whatever fits the row is the first word of an instruction at the row's level. -/
def OpcodeRow.HasInstrs (r : OpcodeRow) : Prop := ∀ w, r.fits w = true → ∃ i, firstWord i = w ∧ i.minIsa = r.minIsa

namespace OpcodeRow.HasInstrs

open Laws.Encoding

theorem single (i : Instr) : HasInstrs ⟨0xFFFF, firstWord i, i.minIsa⟩ := fun w hfits =>
  ⟨i, ((BitVec.and_allOnes (x := w)).symm.trans (beq_iff_eq.mp hfits)).symm, rfl⟩

theorem fieldOp_of_mask {w p : Word} (h : w &&& 0xF000#16 = p) : fieldOp w = fieldOp p := by
  rw [← wordXYN_fields w, mask_op_wordXYN] at h
  simpa using congrArg fieldOp h

/-! One lemma per form of R82: the mask keeps the digits that the form fixes, and `mk` takes the others. -/

section Forms

variable (op y n : Nibble) (nn : Byte) {need : Isa}

theorem opNNN (mk : BitVec 12 → Instr) (hword : ∀ nnn, firstWord (mk nnn) = wordNNN op nnn := by exact fun _ => rfl)
    (hneed : ∀ nnn, (mk nnn).minIsa = need := by exact fun _ => rfl) : HasInstrs ⟨0xF000, wordNNN op 0, need⟩ := by
  intro w hfits
  have hop : fieldOp w = op := (fieldOp_of_mask (beq_iff_eq.mp hfits)).trans (fieldOp_wordNNN op 0)
  exact ⟨mk (fieldNNN w), (hword _).trans (wordNNN_of_fieldOp hop), hneed _⟩

theorem opXNN (mk : Reg → Byte → Instr)
    (hword : ∀ x nn, firstWord (mk x nn) = wordXNN op (bitsOf x) nn := by exact fun _ _ => rfl)
    (hneed : ∀ x nn, (mk x nn).minIsa = need := by exact fun _ _ => rfl) :
    HasInstrs ⟨0xF000, wordXNN op 0 0, need⟩ := by
  intro w hfits
  have hop : fieldOp w = op := (fieldOp_of_mask (beq_iff_eq.mp hfits)).trans (fieldOp_wordXNN op 0 0)
  exact ⟨mk (regOf (fieldX w)) (fieldNN w), (hword _ _).trans (wordXNN_of_fieldOp_fieldNN hop rfl), hneed _ _⟩

theorem opXYN (mk : Reg → Reg → Nibble → Instr)
    (hword : ∀ x y n, firstWord (mk x y n) = wordXYN op (bitsOf x) (bitsOf y) n := by exact fun _ _ _ => rfl)
    (hneed : ∀ x y n, (mk x y n).minIsa = need := by exact fun _ _ _ => rfl) :
    HasInstrs ⟨0xF000, wordXYN op 0 0 0, need⟩ := by
  intro w hfits
  have hop : fieldOp w = op := (fieldOp_of_mask (beq_iff_eq.mp hfits)).trans (fieldOp_wordXYN op 0 0 0)
  exact ⟨mk (regOf (fieldX w)) (regOf (fieldY w)) (fieldN w), (hword _ _ _).trans (wordXYN_of_fieldOp_fieldN hop rfl),
    hneed _ _ _⟩

theorem opXY (mk : Reg → Reg → Instr)
    (hword : ∀ x y, firstWord (mk x y) = wordXYN op (bitsOf x) (bitsOf y) n := by exact fun _ _ => rfl)
    (hneed : ∀ x y, (mk x y).minIsa = need := by exact fun _ _ => rfl) :
    HasInstrs ⟨0xF00F, wordXYN op 0 0 n, need⟩ := by
  intro w hfits
  have hmask : w &&& 0xF00F#16 = wordXYN op 0 0 n := beq_iff_eq.mp hfits
  rw [← wordXYN_fields w, mask_opN_wordXYN] at hmask
  have hop : fieldOp w = op := by simpa using congrArg fieldOp hmask
  have hn : fieldN w = n := by simpa using congrArg fieldN hmask
  exact ⟨mk (regOf (fieldX w)) (regOf (fieldY w)), (hword _ _).trans (wordXYN_of_fieldOp_fieldN hop hn), hneed _ _⟩

theorem opX (mk : Reg → Instr) (hword : ∀ x, firstWord (mk x) = wordXNN op (bitsOf x) nn := by exact fun _ => rfl)
    (hneed : ∀ x, (mk x).minIsa = need := by exact fun _ => rfl) : HasInstrs ⟨0xF0FF, wordXNN op 0 nn, need⟩ := by
  intro w hfits
  have hmask : w &&& 0xF0FF#16 = wordXNN op 0 nn := beq_iff_eq.mp hfits
  rw [← wordXNN_fields w, mask_opNN_wordXNN] at hmask
  have hop : fieldOp w = op := by simpa using congrArg fieldOp hmask
  have hnn : fieldNN w = nn := by simpa using congrArg fieldNN hmask
  exact ⟨mk (regOf (fieldX w)), (hword _).trans (wordXNN_of_fieldOp_fieldNN hop hnn), hneed _⟩

theorem opN (mk : Nibble → Instr) (hword : ∀ n, firstWord (mk n) = wordXYN 0x0 0x0 y n := by exact fun _ => rfl)
    (hneed : ∀ n, (mk n).minIsa = need := by exact fun _ => rfl) : HasInstrs ⟨0xFFF0, wordXYN 0x0 0x0 y 0, need⟩ := by
  intro w hfits
  have hmask : w &&& 0xFFF0#16 = wordXYN 0x0 0x0 y 0 := beq_iff_eq.mp hfits
  rw [← wordXYN_fields w, mask_opXY_wordXYN] at hmask
  have hop : fieldOp w = 0x0 := by simpa using congrArg fieldOp hmask
  have hx : fieldX w = 0x0 := by simpa using congrArg fieldX hmask
  have hy : fieldY w = y := by simpa using congrArg fieldY hmask
  exact ⟨mk (fieldN w), (hword _).trans (wordXYN_of_fieldOp_fieldX_fieldY hop hx hy), hneed _⟩

end Forms

theorem mask_high_wordXNN (op x : Nibble) (nn : Byte) :
    wordXNN op x nn &&& 0xFCFF#16 = wordXNN op (x &&& 0xC#4) nn := by
  apply BitVec.eq_of_getLsbD_eq
  intro k hk
  simp only [wordXNN, BitVec.getLsbD_and, BitVec.getLsbD_append]
  interval_cases k <;> simp

theorem extractLsb'_two_of_and : ∀ x : Nibble, x &&& 0xC#4 = 0#4 → x.extractLsb' 2 2 = 0#2 := by decide

theorem plane : HasInstrs ⟨0xFCFF, 0xF001, .xoChip⟩ := by
  intro w hfits
  have hmask : w &&& 0xFCFF#16 = wordXNN 0xF 0x0 0x01 := beq_iff_eq.mp hfits
  rw [← wordXNN_fields w, mask_high_wordXNN] at hmask
  have hop : fieldOp w = 0xF := by simpa using congrArg fieldOp hmask
  have hx : fieldX w &&& 0xC#4 = 0x0 := by simpa using congrArg fieldX hmask
  have hnn : fieldNN w = 0x01 := by simpa using congrArg fieldNN hmask
  exact ⟨.plane ((fieldX w).extractLsb' 0 2), wordXNN_plane_of_fields hop (extractLsb'_two_of_and _ hx) hnn, rfl⟩

end OpcodeRow.HasInstrs

open OpcodeRow.HasInstrs in
/-- The fifty rows of R85 in the table's order, each with the instruction it stands for. -/
theorem opcodeRows_hasInstrs : ∀ r ∈ opcodeRows, r.HasInstrs := by
  simp only [opcodeRows, opcodeRowsLow, opcodeRowsMid, opcodeRowsHigh, List.forall_mem_append, List.forall_mem_cons]
  refine ⟨⟨⟨opN 0xC .scd, opN 0xD .scu, single .cls, single .ret, single .scr, single .scl, single .exit,
    single .low, single .high, opNNN 0x1 .jp, opNNN 0x2 .call, opXNN 0x3 .seImm,
    opXNN 0x4 .sneImm, opXY 0x5 0x0 .seReg, opXY 0x5 0x2 .saveRange,
    opXY 0x5 0x3 .loadRange, opXNN 0x6 .ldImm, opXNN 0x7 .addImm, nofun⟩,
    opXY 0x8 0x0 .ldReg, opXY 0x8 0x1 .orReg, opXY 0x8 0x2 .andReg,
    opXY 0x8 0x3 .xorReg, opXY 0x8 0x4 .addReg, opXY 0x8 0x5 .subReg,
    opXY 0x8 0x6 .shr, opXY 0x8 0x7 .subnReg, opXY 0x8 0xE .shl,
    opXY 0x9 0x0 .sneReg, opNNN 0xA .ldI, opNNN 0xB .jpV0, opXNN 0xC .rnd,
    opXYN 0xD .drw, opX 0xE 0x9E .skp, opX 0xE 0xA1 .sknp, nofun⟩,
    single (.ldILong 0), plane, single .audio, opX 0xF 0x07 .ldVxDt, opX 0xF 0x0A .ldVxK,
    opX 0xF 0x15 .ldDtVx, opX 0xF 0x18 .ldStVx, opX 0xF 0x1E .addIVx,
    opX 0xF 0x29 .ldFVx, opX 0xF 0x30 .ldHfVx, opX 0xF 0x33 .ldBVx,
    opX 0xF 0x3A .pitch, opX 0xF 0x55 .storeRegs, opX 0xF 0x65 .loadRegs,
    opX 0xF 0x75 .storeFlags, opX 0xF 0x85 .loadFlags, nofun⟩

namespace Laws.Encoding

/-- The encoding facts hold of every instruction. -/
theorem statement : ∀ i, Statement i
  | .scd n => scd n
  | .scu n => scu n
  | .cls => cls
  | .ret => ret
  | .scr => scr
  | .scl => scl
  | .exit => exit
  | .low => low
  | .high => high
  | .jp nnn => jp nnn
  | .call nnn => call nnn
  | .seImm x nn => seImm x nn
  | .sneImm x nn => sneImm x nn
  | .seReg x y => seReg x y
  | .saveRange x y => saveRange x y
  | .loadRange x y => loadRange x y
  | .ldImm x nn => ldImm x nn
  | .addImm x nn => addImm x nn
  | .ldReg x y => ldReg x y
  | .orReg x y => orReg x y
  | .andReg x y => andReg x y
  | .xorReg x y => xorReg x y
  | .addReg x y => addReg x y
  | .subReg x y => subReg x y
  | .shr x y => shr x y
  | .subnReg x y => subnReg x y
  | .shl x y => shl x y
  | .sneReg x y => sneReg x y
  | .ldI nnn => ldI nnn
  | .jpV0 nnn => jpV0 nnn
  | .rnd x nn => rnd x nn
  | .drw x y n => drw x y n
  | .skp x => skp x
  | .sknp x => sknp x
  | .ldILong nnnn => ldILong nnnn
  | .plane n => plane n
  | .audio => audio
  | .ldVxDt x => ldVxDt x
  | .ldVxK x => ldVxK x
  | .ldDtVx x => ldDtVx x
  | .ldStVx x => ldStVx x
  | .addIVx x => addIVx x
  | .ldFVx x => ldFVx x
  | .ldHfVx x => ldHfVx x
  | .ldBVx x => ldBVx x
  | .pitch x => pitch x
  | .storeRegs x => storeRegs x
  | .loadRegs x => loadRegs x
  | .storeFlags x => storeFlags x
  | .loadFlags x => loadFlags x

end Laws.Encoding

/-! ## The decoder by rows -/

/-- An instruction's first word fits a row of the instruction's own level. -/
theorem exists_row_of_firstWord (i : Instr) : ∃ r ∈ opcodeRows, r.fits (firstWord i) = true ∧ r.minIsa = i.minIsa :=
  (Laws.Encoding.statement i).2

/-- A word that fits a row has an instruction of the row's level. -/
theorem exists_rowOf_of_fits {r : OpcodeRow} {w : Word} (hr : r ∈ opcodeRows) (hfits : r.fits w = true) (nnnn : Word) :
    ∃ i, rowOf w nnnn = some i ∧ i.minIsa = r.minIsa := by
  obtain ⟨i, rfl, hneed⟩ := opcodeRows_hasInstrs r hr w hfits
  by_cases hlong : ∃ long, i = .ldILong long
  · obtain ⟨long, rfl⟩ := hlong
    exact ⟨.ldILong nnnn, rowOf_F000 nnnn, hneed⟩
  · exact ⟨i, rowOf_firstWord (not_exists.mp hlong) nnnn, hneed⟩

/-- Settles O3: the rows are disjoint (`opcodeRows_index_unique`), every word of a row has an instruction of the row's level
(`opcodeRows_hasInstrs`), and every instruction is of a row (`exists_row_of_firstWord`). -/
theorem decoderFollowsOpcodeTable : Obligations.DecoderFollowsOpcodeTable := by
  refine ⟨fun w j k hj hk => opcodeRows_index_unique hj hk, fun isa w rest => ?unknown,
    fun isa w rest r hr hfits hlevel hoperand => ?instr⟩
  case unknown =>
    rw [decode_eq_unknown_iff]
    constructor
    · intro h r hr hfits
      obtain ⟨i, hrow, hneed⟩ := exists_rowOf_of_fits hr hfits (operandWord rest)
      exact hneed ▸ h i hrow
    · intro h i hrow
      obtain ⟨r, hr, hfits, hneed⟩ := exists_row_of_firstWord i
      rw [firstWord_of_rowOf hrow] at hfits
      exact hneed ▸ h r hr hfits
  case instr =>
    obtain ⟨i, hrow, hneed⟩ := exists_rowOf_of_fits hr hfits (operandWord rest)
    have hword := firstWord_of_rowOf hrow
    have hsize : i.size ≤ rest.length + 2 := by
      by_cases hlong : ∃ long, i = .ldILong long
      · obtain ⟨long, rfl⟩ := hlong
        exact Nat.add_le_add_right (hoperand hword.symm) 2
      · rw [Instr.size_eq_two (not_exists.mp hlong)]
        omega
    refine ⟨i, _, decode_eq_instr_iff.mpr ⟨?_, ?_, hsize, rfl⟩, hneed, hword⟩
    · rw [joinBytes_hiByte_loByte, hrow]
    · rw [Instr.wf, hneed, hlevel]

/-! ## The length by the first word -/

theorem firstWord_eq_F000_iff {i : Instr} : firstWord i = 0xF000 ↔ ∃ nnnn, i = .ldILong nnnn := by
  constructor
  · intro h
    by_contra hlong
    have hrow := rowOf_firstWord (not_exists.mp hlong) 0
    rw [h, rowOf_F000] at hrow
    exact hlong ⟨0, (Option.some.inj hrow).symm⟩
  · rintro ⟨nnnn, rfl⟩
    rfl

/-- Settles O6: `F000` is the first word of `F000 NNNN` alone, and the bytes behind it are `operandBytes`. -/
theorem lengthIsToldByTheFirstWord : Obligations.LengthIsToldByTheFirstWord := by
  refine ⟨fun isa hi lo more rest i h => ?length, fun isa a b rest => ?long⟩
  case length =>
    obtain ⟨hwf, hword, rfl⟩ := decode_eq_instr_iff_operandBytes.mp h
    by_cases hlong : ∃ nnnn, i = .ldILong nnnn
    · rw [if_pos (hword.symm.trans (firstWord_eq_F000_iff.mpr hlong))]
      obtain ⟨nnnn, rfl⟩ := hlong
      exact ⟨Machine.Isa.eq_xoChip_of_atLeast hwf, _, _, rfl, by rw [joinBytes_hiByte_loByte]⟩
    · rw [if_neg fun hF000 => hlong (firstWord_eq_F000_iff.mp (hword.trans hF000))]
      rw [operandBytes_of_ne_ldILong (not_exists.mp hlong), List.nil_append]
  case long =>
    cases isa with
    | xoChip => exact Machine.decode_F000 (a :: b :: rest)
    | superChip => rfl
    | chip8 => rfl

end Sys2Proof
end

section
/-! Which instruction and which word a fault of a STEP comes from (spec/60_exceptions.md R246), and the end of a run
(spec/70_reset_and_hazards.md R270). -/

namespace Sys2Proof.Machine

/-! ## The word that the fetch read -/

/-- An Unknown answer reports the first two bytes. -/
theorem eq_joinBytes_of_decode_unknown {isa : Isa} {hi lo : Byte} {tail : List Byte} {w : Word}
    (h : decode isa (hi :: lo :: tail) = .unknown w) : w = joinBytes hi lo := by
  rw [decode_cons_cons] at h
  rcases hrow : rowOf (joinBytes hi lo) (operandWord tail) with _ | i <;> simp only [hrow] at h
  · exact (Decoded.unknown.inj h).symm
  · split at h
    · split at h <;> cases h
    · exact (Decoded.unknown.inj h).symm

/-- The word at `PC`, high byte first (R63, R100). -/
def State.wordAtPc (s : State) : Word := joinBytes (s.byteAt s.pc.toNat) (s.byteAt (s.pc.toNat + 1))

theorem State.firstWord_of_fetch {s : State} {i : Instr} (h : s.fetch = .instr i) : firstWord i = s.wordAtPc := by
  rcases s.fetch_cases with ⟨j, hf, -, hpc, rest, hdecode⟩ | ⟨w, hf, -⟩ | ⟨hf, -⟩ | ⟨hf, -⟩ <;>
    rw [hf] at h <;> cases h
  obtain ⟨tail, hbytes⟩ := State.fetchBytes_eq hpc
  rw [hbytes] at hdecode
  exact (decode_eq_instr_iff_operandBytes.mp hdecode).2.1

theorem State.eq_wordAtPc_of_fetch_unknown {s : State} {w : Word} (h : s.fetch = .unknown w) : w = s.wordAtPc := by
  rcases s.fetch_cases with ⟨j, hf, -⟩ | ⟨w, hf, hpc, hdecode⟩ | ⟨hf, -⟩ | ⟨hf, -⟩ <;>
    rw [hf] at h <;> cases h
  obtain ⟨tail, hbytes⟩ := State.fetchBytes_eq hpc
  rw [hbytes] at hdecode
  exact eq_joinBytes_of_decode_unknown hdecode

theorem State.hiByte_wordAtPc (s : State) : hiByte s.wordAtPc = s.byteAt s.pc.toNat := hiByte_joinBytes _ _

theorem State.loByte_wordAtPc (s : State) : loByte s.wordAtPc = s.byteAt (s.pc.toNat + 1) := loByte_joinBytes _ _

/-- `OP` is the high nibble of the byte at the lower address (R63, R81). -/
theorem extractLsb'_hiByte (w : Word) : (hiByte w).extractLsb' 4 4 = fieldOp w := by
  apply BitVec.eq_of_toNat_eq
  simp only [hiByte, fieldOp, BitVec.extractLsb'_toNat, Nat.shiftRight_eq_div_pow]
  omega

/-! ## Where a fault comes from -/

theorem State.accessFault_eq_some {s : State} {base n : Nat} {f : Fault} (h : s.accessFault base n = some f) :
    f = .outOfBoundsAccess (max base s.memSize) := by
  unfold State.accessFault at h
  split at h
  · cases h
  · exact (Option.some.inj h).symm

/-- Everything a fault of an instruction can come from: CALL on a full stack, RET on an empty one, or an access. -/
theorem State.execFault_cases {s : State} {i : Instr} {f : Fault} (h : s.execFault i = some f) :
    ((∃ nnn, i = .call nnn) ∧ s.sp.toNat = s.config.stackDepth ∧ f = .stackOverflow) ∨
      (i = .ret ∧ s.sp = 0 ∧ f = .stackUnderflow) ∨ ∃ a, f = .outOfBoundsAccess a := by
  cases i
  case call nnn =>
    obtain ⟨hfull, hf⟩ := Option.ite_none_right_eq_some.mp h
    exact Or.inl ⟨⟨nnn, rfl⟩, hfull, (Option.some.inj hf).symm⟩
  case ret =>
    obtain ⟨hempty, hf⟩ := Option.ite_none_right_eq_some.mp h
    exact Or.inr (Or.inl ⟨rfl, hempty, (Option.some.inj hf).symm⟩)
  case drw | ldBVx | storeRegs | loadRegs | saveRange | loadRange | audio | ldILong =>
    exact Or.inr (Or.inr ⟨_, State.accessFault_eq_some h⟩)
  all_goals cases h

/-- Everything a fault of a STEP can come from: the two stack instructions, the unknown word under `Halt`, or an access. -/
theorem step_fault_cases {s : State} {f : Fault} (h : step s = .fault f) :
    (∃ nnn, s.fetch = .instr (.call nnn) ∧ s.sp.toNat = s.config.stackDepth ∧ f = .stackOverflow) ∨
      (s.fetch = .instr .ret ∧ s.sp = 0 ∧ f = .stackUnderflow) ∨
      (∃ w, s.fetch = .unknown w ∧ s.config.unknownPolicy = .halt ∧ f = .unknownOpcode w) ∨
      ∃ a, f = .outOfBoundsAccess a := by
  rw [step_eq_fault_iff, State.stepFault, Option.ite_none_right_eq_some] at h
  obtain ⟨-, hf⟩ := h
  rcases hfetch : s.fetch with i | w | base <;> rw [hfetch] at hf
  · rcases State.execFault_cases hf with ⟨⟨nnn, rfl⟩, hfull, rfl⟩ | ⟨rfl, hempty, rfl⟩ | haccess
    · exact Or.inl ⟨nnn, rfl, hfull, rfl⟩
    · exact Or.inr (Or.inl ⟨rfl, hempty, rfl⟩)
    · exact Or.inr (Or.inr (Or.inr haccess))
  · obtain ⟨hpolicy, hw⟩ := Option.ite_none_right_eq_some.mp hf
    exact Or.inr (Or.inr (Or.inl ⟨w, rfl, hpolicy, (Option.some.inj hw).symm⟩))
  · exact Or.inr (Or.inr (Or.inr ⟨_, (Option.some.inj hf).symm⟩))

/-- Settles O15: only CALL, RET and the unknown word raise the three faults (`step_fault_cases`), and the fetch reads the word
at `PC`. -/
theorem stepFaultCauses : Obligations.StepFaultCauses := by
  refine fun s => ⟨fun h => ?overflow, fun h => ?underflow, fun w h => ?unknown⟩
  all_goals
    rcases step_fault_cases h with ⟨nnn, hfetch, hfull, hf⟩ | ⟨hfetch, hempty, hf⟩ | ⟨v, hfetch, hpolicy, hf⟩ | ⟨a, hf⟩
  case overflow.inl =>
    refine ⟨hfull, ?_⟩
    rw [← s.hiByte_wordAtPc, ← State.firstWord_of_fetch hfetch, extractLsb'_hiByte]
    exact fieldOp_wordNNN 0x2 nnn
  case underflow.inr.inl =>
    rw [← s.hiByte_wordAtPc, ← s.loByte_wordAtPc, ← State.firstWord_of_fetch hfetch]
    exact ⟨hempty, rfl, rfl⟩
  case unknown.inr.inr.inl =>
    obtain rfl := Fault.unknownOpcode.inj hf
    exact ⟨hpolicy, State.eq_wordAtPc_of_fetch_unknown hfetch⟩
  all_goals cases hf

/-! ## The end of a run (R270) -/

/-- The word at `PC` of a one-word instruction of the level is fetched as that instruction. -/
theorem State.fetch_of_wordAtPc {s : State} {i : Instr} (hlong : ∀ nnnn, i ≠ .ldILong nnnn)
    (hwf : i.wf s.config.quirks.isa = true) (hpc : s.pc.toNat + 1 < s.memSize) (hword : s.wordAtPc = firstWord i) :
    s.fetch = .instr i := by
  obtain ⟨rest, hbytes⟩ := State.fetchBytes_eq hpc
  have hdecode : decode s.config.quirks.isa s.fetchBytes = .instr i rest := by
    rw [hbytes]
    exact decode_eq_instr_iff_operandBytes.mpr
      ⟨hwf, hword.symm, by rw [operandBytes_of_ne_ldILong hlong, List.nil_append]⟩
  rw [State.fetch, if_pos ((s.inBounds_iff _ _).mpr (by omega)), hdecode]

/-- A jump to its own address changes nothing. -/
theorem exec_jp_self {s : State} (h : s.pc.toNat ≤ 0x0FFF) : exec (.jp (s.pc.setWidth 12)) s = .next s := by
  have hself : s.goto (zext16 (s.pc.setWidth 12)) = s := by rw [zext16_setWidth h]; rfl
  exact congrArg Host.Outcome.next hself

/-- Settles O16: both words that end a run are fetched as an instruction that leaves the state as it is. -/
theorem endedRunStaysEnded : Obligations.EndedRunStaysEnded := by
  intro s h
  simp only [State.hasEnded, Bool.and_eq_true, Bool.or_eq_true, beq_iff_eq, Bool.not_eq_true', decide_eq_true_eq] at h
  obtain ⟨⟨⟨hw, hd⟩, hpc⟩, ⟨hlow, hjump⟩ | ⟨hlevel, hexit⟩⟩ := h
  · have hfetch : s.fetch = .instr (.jp (s.pc.setWidth 12)) :=
      State.fetch_of_wordAtPc nofun (Isa.atLeast_chip8 _) hpc (hjump.trans (firstWord_jp_setWidth hlow).symm)
    rw [step_of_running hd hw, hfetch]
    exact exec_jp_self hlow
  · have hfetch : s.fetch = .instr .exit := State.fetch_of_wordAtPc nofun hlevel hpc hexit
    rw [step_of_running hd hw, hfetch]
    rfl

end Sys2Proof.Machine
end

section
/-! Memory in the model's canonical form is what it reads as (spec/20_memory.md section 1; the form is the model's own). -/

namespace Sys2Proof.Machine

/-- What a canonical memory lists at an address is told by what it reads there. -/
theorem Memory.lookup_of_wf {c : Config} {m : Memory} (h : Memory.wf c m = true) (a : Nat) :
    Memory.lookup m a =
      if a < c.memSize.bytes ∧ Memory.read c m a ≠ initialByte c a then some (Memory.read c m a) else none := by
  rcases hl : Memory.lookup m a with _ | b
  · rw [if_neg]
    simp [Memory.read, hl]
  · obtain ⟨-, hlt, hne⟩ := Memory.lookup_some_of_wfFrom h hl
    have hread : Memory.read c m a = b := by rw [Memory.read, hl, Option.getD_some]
    rw [hread, if_pos ⟨hlt, hne⟩]

theorem Memory.wfFrom_tail {c : Config} {lo k : Nat} {d : Byte} {m : Memory} (h : Memory.wfFrom c lo ((k, d) :: m) = true) :
    Memory.wfFrom c (k + 1) m = true := by
  simp only [Memory.wfFrom, Bool.and_eq_true] at h
  exact h.2

/-- The first address listed is a lower bound of the addresses. -/
theorem Memory.wfFrom_head {c : Config} {lo k : Nat} {d : Byte} {m : Memory} (h : Memory.wfFrom c lo ((k, d) :: m) = true) :
    Memory.wfFrom c k ((k, d) :: m) = true := by
  simp only [Memory.wfFrom, Bool.and_eq_true, decide_eq_true_eq] at h ⊢
  exact ⟨⟨⟨Nat.le_refl k, h.1.1.2⟩, h.1.2⟩, h.2⟩

theorem Memory.lookup_cons_self (k : Nat) (d : Byte) (m : Memory) : Memory.lookup ((k, d) :: m) k = some d := if_pos rfl

/-- A canonical memory that lists an address starts at that address or below it. -/
theorem Memory.head_le_of_lookup {c : Config} {lo k a : Nat} {d b : Byte} {m : Memory}
    (h : Memory.wfFrom c lo ((k, d) :: m) = true) (ha : Memory.lookup ((k, d) :: m) a = some b) : k ≤ a :=
  (Memory.lookup_some_of_wfFrom (Memory.wfFrom_head h) ha).1

/-- Canonical memories that list the same bytes are the same list, by induction on both: the heads are the least listed
addresses. -/
theorem Memory.eq_of_lookup_eq {c : Config} {lo : Nat} {m n : Memory} (hm : Memory.wfFrom c lo m = true)
    (hn : Memory.wfFrom c lo n = true) (h : ∀ a, Memory.lookup m a = Memory.lookup n a) : m = n := by
  induction m generalizing lo n with
  | nil =>
    cases n with
    | nil => rfl
    | cons e n => cases (h e.1).trans (Memory.lookup_cons_self e.1 e.2 n)
  | cons e m ih =>
    obtain ⟨k, d⟩ := e
    cases n with
    | nil => cases (Memory.lookup_cons_self k d m).symm.trans (h k)
    | cons f n =>
      obtain ⟨l, b⟩ := f
      have hk : Memory.lookup ((l, b) :: n) k = some d := (h k).symm.trans (Memory.lookup_cons_self k d m)
      have hl : Memory.lookup ((k, d) :: m) l = some b := (h l).trans (Memory.lookup_cons_self l b n)
      obtain rfl : k = l := Nat.le_antisymm (Memory.head_le_of_lookup hm hl) (Memory.head_le_of_lookup hn hk)
      obtain rfl : b = d := Option.some.inj ((Memory.lookup_cons_self k b n).symm.trans hk)
      have htail : ∀ a, Memory.lookup m a = Memory.lookup n a := by
        intro a
        by_cases ha : a = k
        · rw [ha, Memory.lookup_of_wfFrom_lt (Memory.wfFrom_tail hm) k.lt_succ_self,
            Memory.lookup_of_wfFrom_lt (Memory.wfFrom_tail hn) k.lt_succ_self]
        · simpa [Memory.lookup, Ne.symm ha] using h a
      rw [ih (Memory.wfFrom_tail hm) (Memory.wfFrom_tail hn) htail]

/-- Settles O55: what two canonical memories read decides what they list. -/
theorem canonicalMemoryIsWhatItReads : Obligations.CanonicalMemoryIsWhatItReads := by
  intro c m n hm hn hread
  refine Memory.eq_of_lookup_eq hm hn fun a => ?_
  rw [Memory.lookup_of_wf hm, Memory.lookup_of_wf hn]
  by_cases ha : a < c.memSize.bytes
  · rw [hread a ha]
  · rw [if_neg fun h => ha h.1, if_neg fun h => ha h.1]

end Sys2Proof.Machine
end

section
/-! What each instruction leaves unchanged (spec/10_state.md sections 1 and 2, spec/20_memory.md R65). -/

namespace Sys2Proof.Machine

/-! ## The stack instructions, which have a next state on a condition of their own (R242, R243) -/

theorem allNext_exec_ret {P : State → Prop} {s : State}
    (h : s.sp ≠ 0 → P { s with pc := s.stack.getD (s.sp.toNat - 1) 0, sp := s.sp - 1 }) : AllNext P (exec .ret s) := by
  by_cases hsp : s.sp = 0
  · rw [exec_ret_of_empty hsp]
    exact allNext_fault _ _
  · rw [exec_ret_of_nonempty hsp]
    exact allNext_next (h hsp)

theorem allNext_exec_call {P : State → Prop} {s : State} {nnn : BitVec 12}
    (h : s.sp.toNat ≠ s.config.stackDepth →
      P { s with stack := s.stack.set s.sp.toNat s.npc, sp := s.sp + 1, pc := zext16 nnn }) :
    AllNext P (exec (.call nnn) s) := by
  by_cases hroom : s.sp.toNat = s.config.stackDepth
  · rw [exec_call_of_full nnn hroom]
    exact allNext_fault _ _
  · rw [exec_call_of_room nnn hroom]
    exact allNext_next (h hroom)

/-! ## General registers (R20, R21) -/

theorem State.sameRegsBut_setLogic_of_quirk (s : State) (x : Reg) (b : Byte) :
    SameRegsBut (if s.config.quirks.vfResetOnLogic then [x, 15] else [x]) s (s.setLogic x b) := by
  unfold State.setLogic
  split
  · exact s.sameRegsBut_setRegFlag x b 0
  · exact s.sameRegsBut_setReg x b

/-- The instructions are grouped by the named update that writes their registers; the last three groups write none. -/
theorem exec_sameRegsBut (i : Instr) (s : State) : AllNext (SameRegsBut (destRegs s.config.quirks i) s) (exec i s) := by
  cases i
  case ldImm | addImm | ldReg | rnd | ldVxDt => exact allNext_next (s.sameRegsBut_setReg _ _)
  case addReg | subReg | shr | subnReg | shl => exact allNext_next (s.sameRegsBut_setRegFlag _ _ _)
  case orReg | andReg | xorReg => exact allNext_next (s.sameRegsBut_setLogic_of_quirk _ _)
  case drw => exact allNext_guardAccess fun _ => s.sameRegsBut_setReg 15 _
  case loadRange x y => exact allNext_guardAccess fun _ => s.reg_loadSpan_of_notMem x y _
  case loadRegs x => exact allNext_guardAccess fun _ => s.reg_loadSpan_of_notMem 0 x _
  case loadFlags x =>
    refine allNext_next fun k hk => (Vector.getElem_ofFn k.isLt).trans (if_neg fun hle => hk ?_)
    exact (mem_spanRegs 0 x k).mpr (Or.inl ⟨Fin.zero_le k, hle⟩)
  case ret => exact allNext_exec_ret fun _ _ _ => rfl
  case call => exact allNext_exec_call fun _ _ _ => rfl
  case ldBVx | storeRegs | saveRange | ldILong | audio => exact allNext_guardAccess fun _ _ _ => rfl
  all_goals exact allNext_next fun _ _ => rfl

/-- Settles O56, group by group of `exec_sameRegsBut`. -/
theorem frameOfGeneralRegisters : Obligations.FrameOfGeneralRegisters := fun i s => exec_sameRegsBut i s

/-! ## Memory (R62, R65) -/

/-- At most `n` bytes from the old `I` upward are stored, all of them in memory. -/
def StoresAtIndex (n : Nat) (s t : State) : Prop :=
  SameMemoryBut s.i.toNat n s t ∧ (n ≠ 0 → s.i.toNat + n ≤ s.memSize)

theorem storesAtIndex_zero {s t : State} (h : SameMemory s t) : StoresAtIndex 0 s t :=
  ⟨fun a _ => h a, fun hne => absurd rfl hne⟩

/-- The bounds check that precedes a store is that of the bytes stored. -/
theorem storesAtIndex_of_storeBytes {s t : State} {bs : List Byte} {n : Nat} (hlength : bs.length = n)
    (hin : s.inBounds s.i.toNat n = true) (hconfig : t.config = s.config)
    (hmem : t.mem = (s.storeBytes s.i.toNat bs).mem) : StoresAtIndex n s t := by
  subst hlength
  refine ⟨fun a ha => ?_, ((s.inBounds_iff _ _).mp hin).resolve_left⟩
  exact (State.byteAt_congr (s := s.storeBytes s.i.toNat bs) hconfig hmem a).trans
    (s.sameMemoryBut_storeBytes _ bs a ha)

theorem exec_storesAtIndex (i : Instr) (s : State) : AllNext (StoresAtIndex (storeCount i) s) (exec i s) := by
  cases i
  case ldBVx x =>
    exact allNext_guardAccess fun hin => storesAtIndex_of_storeBytes (bs := decimalDigits (s.reg x)) rfl hin rfl rfl
  case saveRange x y =>
    exact allNext_guardAccess fun hin => storesAtIndex_of_storeBytes (s.length_spanBytes x y) hin rfl rfl
  case storeRegs x =>
    have hlength := (s.length_spanBytes 0 x).trans (spanCount_zero x)
    exact allNext_guardAccess fun hin => storesAtIndex_of_storeBytes hlength hin rfl rfl
  case orReg | andReg | xorReg =>
    exact allNext_next (storesAtIndex_zero (State.byteAt_congr (s.setLogic_config _ _) (s.setLogic_mem _ _)))
  case loadRange | loadRegs =>
    exact allNext_guardAccess fun _ =>
      storesAtIndex_zero (State.byteAt_congr (s.loadSpan_config _ _ _) (s.loadSpan_mem _ _ _))
  case ret => exact allNext_exec_ret fun _ => storesAtIndex_zero (State.byteAt_congr rfl rfl)
  case call => exact allNext_exec_call fun _ => storesAtIndex_zero (State.byteAt_congr rfl rfl)
  case drw | ldILong | audio => exact allNext_guardAccess fun _ => storesAtIndex_zero (State.byteAt_congr rfl rfl)
  all_goals exact allNext_next (storesAtIndex_zero (State.byteAt_congr rfl rfl))

/-- Settles O57: three instructions store, each behind the bounds check of the bytes it stores. -/
theorem frameOfMemory : Obligations.FrameOfMemory := fun i s => exec_storesAtIndex i s

/-! ## The special items -/

/-- The items that `i` does not write are unchanged: each item with its writers (sections 1 and 2 of 10_state.md). -/
structure SpecialFrame (i : Instr) (s t : State) : Prop where
  config : t.config = s.config
  keys : t.keys = s.keys
  lastUnknown : t.lastUnknown = s.lastUnknown
  index : writesIndex s.config.quirks i = false → t.i = s.i
  sp : (∀ nnn, i ≠ .call nnn) → i ≠ .ret → t.sp = s.sp
  stack : (∀ nnn, i ≠ .call nnn) → t.stack = s.stack
  dt : (∀ x, i ≠ .ldDtVx x) → t.dt = s.dt
  st : (∀ x, i ≠ .ldStVx x) → t.st = s.st
  planes : writesPlanes i = false → t.planes = s.planes
  hires : i ≠ .low → i ≠ .high → t.hires = s.hires
  planeMask : (∀ n, i ≠ .plane n) → t.planeMask = s.planeMask
  dwStall : (∀ x y n, i ≠ .drw x y n) → t.dwStall = s.dwStall
  pattern : i ≠ .audio → t.pattern = s.pattern
  pitch : (∀ x, i ≠ .pitch x) → t.pitch = s.pitch
  wait : (∀ x, i ≠ .ldVxK x) → t.waitReg = s.waitReg ∧ t.keysPrev = s.keysPrev
  rng : (∀ x nn, i ≠ .rnd x nn) → t.rng = s.rng
  flags : (∀ x, i ≠ .storeFlags x) → t.flags = s.flags

theorem SpecialFrame.refl {i : Instr} {s : State} : SpecialFrame i s s where
  config := rfl
  keys := rfl
  lastUnknown := rfl
  index _ := rfl
  sp _ _ := rfl
  stack _ := rfl
  dt _ := rfl
  st _ := rfl
  planes _ := rfl
  hires _ _ := rfl
  planeMask _ := rfl
  dwStall _ := rfl
  pattern _ := rfl
  pitch _ := rfl
  wait _ := ⟨rfl, rfl⟩
  rng _ := rfl
  flags _ := rfl

theorem OnlyRegsPc.specialFrame {i : Instr} {s t : State} (h : OnlyRegsPc s t) : SpecialFrame i s t := by
  rw [h]
  exact { SpecialFrame.refl with }

theorem OnlyRegsIndexPc.specialFrame {i : Instr} {s t : State} (h : OnlyRegsIndexPc s t)
    (hindex : writesIndex s.config.quirks i = false → t.i = s.i) : SpecialFrame i s t := by
  rw [h]
  exact { SpecialFrame.refl with index := hindex }

/-- Without the quirk of R42 `FX55` and `FX65` leave `I`. -/
theorem State.indexAfter_of_not_quirk {s : State} (x : Reg) (h : s.config.quirks.loadStoreIncrementsIndex = false) :
    s.indexAfter x = s.i := if_neg (by simp [h])

/-- An instruction that writes a special item is one of the item's writers; the field written out is that item. -/
theorem exec_specialFrame (i : Instr) (s : State) : AllNext (SpecialFrame i s) (exec i s) := by
  cases i
  -- the stack
  case ret => exact allNext_exec_ret fun _ => { SpecialFrame.refl with sp := fun _ h => absurd rfl h }
  case call nnn =>
    exact allNext_exec_call fun _ =>
      { SpecialFrame.refl with sp := fun h _ => absurd rfl (h nnn), stack := fun h => absurd rfl (h nnn) }
  -- the index register
  case ldI | addIVx | ldFVx | ldHfVx => exact allNext_next { SpecialFrame.refl with index := nofun }
  case ldILong => exact allNext_guardAccess fun _ => { SpecialFrame.refl with index := nofun }
  case storeRegs x =>
    exact allNext_guardAccess fun _ => { SpecialFrame.refl with index := State.indexAfter_of_not_quirk x }
  case loadRegs x =>
    exact allNext_guardAccess fun _ =>
      (s.onlyRegsIndexPc_loadSpan_setIndex_advance 0 x _ _).specialFrame (State.indexAfter_of_not_quirk x)
  -- the display
  case cls | scd | scu | scr | scl => exact allNext_next { SpecialFrame.refl with planes := nofun }
  case low => exact allNext_next { SpecialFrame.refl with planes := nofun, hires := fun h _ => absurd rfl h }
  case high => exact allNext_next { SpecialFrame.refl with planes := nofun, hires := fun _ h => absurd rfl h }
  case drw x y n =>
    exact allNext_guardAccess fun _ =>
      { SpecialFrame.refl with planes := nofun, dwStall := fun h => absurd rfl (h x y n) }
  case plane n => exact allNext_next { SpecialFrame.refl with planeMask := fun h => absurd rfl (h n) }
  -- timers, audio, keys, the generator and FLAGS
  case ldDtVx x => exact allNext_next { SpecialFrame.refl with dt := fun h => absurd rfl (h x) }
  case ldStVx x => exact allNext_next { SpecialFrame.refl with st := fun h => absurd rfl (h x) }
  case audio => exact allNext_guardAccess fun _ => { SpecialFrame.refl with pattern := fun h => absurd rfl h }
  case pitch x => exact allNext_next { SpecialFrame.refl with pitch := fun h => absurd rfl (h x) }
  case ldVxK x => exact allNext_next { SpecialFrame.refl with wait := fun h => absurd rfl (h x) }
  case rnd x nn => exact allNext_next { SpecialFrame.refl with rng := fun h => absurd rfl (h x nn) }
  case storeFlags x => exact allNext_next { SpecialFrame.refl with flags := fun h => absurd rfl (h x) }
  -- none of them
  case orReg | andReg | xorReg => exact allNext_next (s.onlyRegsPc_setLogic_advance _ _).specialFrame
  case loadRange x y => exact allNext_guardAccess fun _ => (s.onlyRegsPc_loadSpan_advance x y _).specialFrame
  case ldBVx | saveRange => exact allNext_guardAccess fun _ => { SpecialFrame.refl with }
  all_goals exact allNext_next { SpecialFrame.refl with }

/-- Settles O58, item by item of `SpecialFrame`. -/
theorem frameOfSpecialState : Obligations.FrameOfSpecialState := by
  intro i s t h
  have hframe : SpecialFrame i s t := exec_specialFrame i s t h
  exact ⟨hframe.config, hframe.keys, hframe.lastUnknown, hframe.index, hframe.sp, hframe.stack, hframe.dt, hframe.st,
    hframe.planes, hframe.hires, hframe.planeMask, hframe.dwStall, hframe.pattern, hframe.pitch, hframe.wait, hframe.rng,
    hframe.flags⟩

end Sys2Proof.Machine
end

section
/-! The invariant after CONSTRUCT and under STEP (spec/10_state.md R53), and the values after a reset
(spec/70_reset_and_hazards.md R260, R261, R263). -/

namespace Sys2Proof.Machine

/-- Settles O53: `State.Inv.step`. -/
theorem stepKeepsInvariant : Obligations.StepKeepsInvariant := fun _ t hs => hs.step t

/-- The default configuration is within the ranges of R5 and D12. -/
theorem legal_resetConfig : resetConfig.legal = true := by decide

/-- Settles O52: `State.inv_construct`, also at the default configuration. -/
theorem constructMeetsInvariant : Obligations.ConstructMeetsInvariant :=
  ⟨fun _ => State.inv_construct, State.inv_construct legal_resetConfig⟩

/-- Settles O50: CONSTRUCT gives its column as it stands, and an accepted LOAD_ROM is a construct but for memory, `KEYS` and
`RNG` (`State.eq_of_loadRom_next`), of which the common part of the columns does not speak. -/
theorem resetValues : Obligations.ResetValues := by
  unfold Obligations.ResetValues
  intro common fonts
  have hcommon : ∀ c, common (State.construct c) := fun c =>
    ⟨fun r => Vector.getElem_replicate r.isLt, rfl, rfl, rfl, List.length_replicate, fun _ => List.eq_of_mem_replicate, rfl,
      rfl, pixel_replicate_blank, rfl, rfl, fun k => Vector.getElem_replicate k.isLt, rfl,
      fun k => Vector.getElem_replicate k.isLt, rfl, rfl, fun k => Vector.getElem_replicate k.isLt, rfl⟩
  refine ⟨fun c => ⟨hcommon c, fun k => Vector.getElem_replicate k.isLt, rfl, rfl, fun _ => rfl⟩, fun s t bs h => ?_⟩
  have hbytes := State.byteAt_of_loadRom_next h
  obtain rfl := State.eq_of_loadRom_next h
  exact ⟨hcommon s.config, rfl, rfl, rfl, hbytes⟩

end Sys2Proof.Machine
end
